-- ==== Sys2Proof/Word.lean ====
section
/-!
DEFINITION. The words and bit strings of the engine (spec/00_scope.md R7, R8, R9).
-/

namespace Sys2Proof

/-- One word of the streams `CMD` and `RSP` (20 R61); also a word of the SHA-1 and SHA-256 cores (00 R5). -/
abbrev Word := BitVec 32

/-- One 64-bit word: a word of the SHA-512 core, a lane of the sponge state (10 R31, R32). -/
abbrev Lane := BitVec 64

/-- A byte is an 8-bit word (00 R9). -/
abbrev Byte := BitVec 8

/-- A bit string; the head of the list is the first bit `b[0]` (00 R7). -/
abbrev Bits := List Bool

end Sys2Proof
end

