-- ==== Sys2Proof/Machine/BitBuffer.lean ====
section
/-!
DEFINITION. Word arithmetic, conversions between words, bytes and bit strings (spec/00_scope.md R7 to R9)
and the Bit Buffer unit (spec/40_bit_buffer.md). Payload words on the streams (spec/20_memory.md R62, R64).
-/

namespace Sys2Proof

/-- `ROTL_w(v, n)` for `0 ≤ n < w` (00 R8). -/
def rotl {w : Nat} (v : BitVec w) (n : Nat) : BitVec w := (v <<< n) ||| (v >>> (w - n))

/-- `ROTR_w(v, n) = ROTL_w(v, (w − n) mod w)` (00 R8). -/
def rotr {w : Nat} (v : BitVec w) (n : Nat) : BitVec w := rotl v ((w - n) % w)

/-- `ceil(n / k)`. -/
def ceilDiv (n k : Nat) : Nat := (n + (k - 1)) / k

/-- `bitsBE_w(v)`: the word as a bit string, most significant bit first (00 R9). -/
def bitsBE {w : Nat} (v : BitVec w) : Bits := (List.range w).map fun i => v.getMsbD i

/-- `intBE(b)`: the integer whose binary digits, most significant first, are the bits of `b` (00 R9). -/
def intBE (b : Bits) : Nat := b.foldl (fun n x => 2 * n + x.toNat) 0

/-- `0^k` (00 R7). -/
def zeros (k : Nat) : Bits := List.replicate k false

/-- `padz(b, n)` (00 R7); no zeros where `n ≤ |b|`. -/
def padz (b : Bits) (n : Nat) : Bits := b ++ zeros (n - b.length)

/-- `xorbits(a, b)` for `|a| = |b|` (40 R135). -/
def xorbits (a b : Bits) : Bits := List.zipWith (fun x y => xor x y) a b

/-- `BUF.APPEND` (40 R131): concatenation at the bit level. -/
def append (existing next : Bits) : Bits := existing ++ next

/-- `BUF.TAKE` (40 R132): the complete blocks of `B` bits, in order, and the remainder. -/
def takeBlocks (buffer : Bits) (B : Nat) : List Bits × Bits :=
  let n := buffer.length / B
  ((List.range n).map fun i => (buffer.drop (i * B)).take B, buffer.drop (n * B))

/-- A byte string as a bit string (00 R9). -/
def bitsOfBytes (B : List Byte) : Bits := B.flatMap bitsBE

/-- `bytes(b)` for `|b|` a multiple of 8 (00 R9). -/
def bytes (b : Bits) : List Byte := (takeBlocks b 8).1.map fun x => BitVec.ofNat 8 (intBE x)

/-- `rep(c, n)` as a bit string (00 R9). -/
def rep (c : Byte) (n : Nat) : Bits := bitsOfBytes (List.replicate n c)

/-- `intLE(B) = Σ B[i]·256^i` (00 R9). -/
def intLE (B : List Byte) : Nat := B.foldr (fun b n => b.toNat + 256 * n) 0

/-- `BUF.CONV.BE` (40 R133, 20 R65): sixteen `w`-bit words of a block, big-endian. -/
def convBE (w : Nat) (M : Bits) : List (BitVec w) :=
  (List.range 16).map fun t => BitVec.ofNat w (intBE ((M.drop (w * t)).take w))

/-- `BUF.CONV.LE` (40 R134, 20 R66): the lane values `L[0 .. r/64 − 1]` of a block of `r` bits. -/
def convLE (P : Bits) : List Lane :=
  let B := bytes P
  (List.range (P.length / 64)).map fun i => BitVec.ofNat 64 (intLE ((B.drop (8 * i)).take 8))

/-- The data words of a payload: `ceil(n / 32)` words, the trailing bits zero (20 R62, R64). -/
def payloadWords (p : Bits) : List Word :=
  let q := padz p (32 * ceilDiv p.length 32)
  (List.range (ceilDiv p.length 32)).map fun j => BitVec.ofNat 32 (intBE ((q.drop (32 * j)).take 32))

/-- The bits of data words laid end to end (30 R103 `Section`). -/
def wordsBits (ws : List Word) : Bits := ws.flatMap bitsBE

end Sys2Proof
end

