-- ==== Sys2Proof/Syntax.lean ====
section
/-!
DEFINITION. The abstract commands (spec/30_encoding.md R107), one constructor of `Instr` per row of
spec/opcode_table.json.
-/

namespace Sys2Proof

/-- The fifteen variants (00 R2). Also the type of the register `VAR` (10 R22). -/
inductive Variant where
  | sha1 | sha224 | sha256 | sha384 | sha512
  | sha3_224 | sha3_256 | sha3_384 | sha3_512
  | shake128 | shake256
  | cshake128 | cshake256
  | kmac128 | kmac256
deriving DecidableEq, Repr, Inhabited

/-- The options of an INIT packet, each absent (`none`) or present (30 R94, R107). -/
structure InitOpts where
  /-- `numRounds`, flag `NRP`. -/
  nr : Option Word
  /-- `hmacKey`, flag `HKP`. -/
  hk : Option Bits
  /-- `funcName`, flag `FNP`. -/
  fn : Option Bits
  /-- `customization`, flag `CUP`. -/
  cu : Option Bits
  /-- `kmacKey`, flag `KKP`. -/
  kk : Option Bits
deriving DecidableEq, Repr, Inhabited

/-- The commands. INIT has one constructor per variant and one for every other variant code. -/
inductive Instr where
  | initSha1 (o : InitOpts)
  | initSha224 (o : InitOpts)
  | initSha256 (o : InitOpts)
  | initSha384 (o : InitOpts)
  | initSha512 (o : InitOpts)
  | initSha3_224 (o : InitOpts)
  | initSha3_256 (o : InitOpts)
  | initSha3_384 (o : InitOpts)
  | initSha3_512 (o : InitOpts)
  | initShake128 (o : InitOpts)
  | initShake256 (o : InitOpts)
  | initCshake128 (o : InitOpts)
  | initCshake256 (o : InitOpts)
  | initKmac128 (o : InitOpts)
  | initKmac256 (o : InitOpts)
  /-- An INIT packet whose `var` byte is none of the fifteen codes (30 R95). -/
  | initUnknown (var : Byte) (o : InitOpts)
  | update (data : Bits)
  | getHash (len : Option Word)
  | getHmac (len : Option Word)
  | setKey (key : Bits)
deriving DecidableEq, Repr, Inhabited

end Sys2Proof
end

