-- ==== Sys2Proof/Machine/Variants.lean ====
section
/-!
DEFINITION. Variant codes (spec/30_encoding.md R95) and the descriptor table (spec/10_state.md R23).
-/

namespace Sys2Proof

/-- The four families of 10 R23; the family types the register `IS` (10 R28). -/
inductive Family where
  | sha1 | sha256 | sha512 | keccak
deriving DecidableEq, Repr, Inhabited

/-- The column `kind` of 10 R23. -/
inductive Kind where
  | md | sha3 | shake | cshake | kmac
deriving DecidableEq, Repr, Inhabited

/-- The column `endian` of 10 R23. -/
inductive Endian where
  | be | le
deriving DecidableEq, Repr, Inhabited

/-- The descriptor `d`: a constant record, a pure function of `VAR`, not state (10 R23). -/
structure Desc where
  family : Family
  kind : Kind
  blockBits : Nat
  /-- 0 means caller-supplied. -/
  outBits : Nat
  wordBits : Nat
  /-- The width `F` of the MD length field; `none` where the table has a dash. -/
  lenBits : Option Nat
  endian : Endian
  /-- The column `HMAC`. -/
  hmac : Bool
deriving DecidableEq, Repr

namespace Variant

/-- The fifteen variants in the order of 30 R95. -/
def all : List Variant :=
  [.sha1, .sha224, .sha256, .sha384, .sha512, .sha3_224, .sha3_256, .sha3_384, .sha3_512,
   .shake128, .shake256, .cshake128, .cshake256, .kmac128, .kmac256]

/-- The variant code (30 R95); the eight bits of the register `VAR` (10 R22). -/
def code : Variant → Byte
  | .sha1 => 0x01
  | .sha224 => 0x02
  | .sha256 => 0x03
  | .sha384 => 0x04
  | .sha512 => 0x05
  | .sha3_224 => 0x10
  | .sha3_256 => 0x11
  | .sha3_384 => 0x12
  | .sha3_512 => 0x13
  | .shake128 => 0x20
  | .shake256 => 0x21
  | .cshake128 => 0x30
  | .cshake256 => 0x31
  | .kmac128 => 0x40
  | .kmac256 => 0x41

/-- The variant of a code, `none` for every other value of the byte (30 R95). -/
def ofCode (c : Byte) : Option Variant := all.find? fun v => v.code == c

/-- `Desc(VAR)`, the table of 10 R23 row by row. -/
def desc : Variant → Desc
  | .sha1      => ⟨.sha1,   .md,     512,  160, 32, some 64,  .be, true⟩
  | .sha224    => ⟨.sha256, .md,     512,  224, 32, some 64,  .be, true⟩
  | .sha256    => ⟨.sha256, .md,     512,  256, 32, some 64,  .be, true⟩
  | .sha384    => ⟨.sha512, .md,     1024, 384, 64, some 128, .be, true⟩
  | .sha512    => ⟨.sha512, .md,     1024, 512, 64, some 128, .be, true⟩
  | .sha3_224  => ⟨.keccak, .sha3,   1152, 224, 64, none,     .le, true⟩
  | .sha3_256  => ⟨.keccak, .sha3,   1088, 256, 64, none,     .le, true⟩
  | .sha3_384  => ⟨.keccak, .sha3,   832,  384, 64, none,     .le, true⟩
  | .sha3_512  => ⟨.keccak, .sha3,   576,  512, 64, none,     .le, true⟩
  | .shake128  => ⟨.keccak, .shake,  1344, 0,   64, none,     .le, false⟩
  | .shake256  => ⟨.keccak, .shake,  1088, 0,   64, none,     .le, false⟩
  | .cshake128 => ⟨.keccak, .cshake, 1344, 0,   64, none,     .le, false⟩
  | .cshake256 => ⟨.keccak, .cshake, 1088, 0,   64, none,     .le, false⟩
  | .kmac128   => ⟨.keccak, .kmac,   1344, 0,   64, none,     .le, false⟩
  | .kmac256   => ⟨.keccak, .kmac,   1088, 0,   64, none,     .le, false⟩

/-- `d.md`: family other than KECCAK (10 R23). -/
def md (v : Variant) : Bool := v.desc.family != .keccak

/-- `d.variable`: the output length is caller-supplied (10 R23). -/
def isVariable (v : Variant) : Bool := v.desc.outBits == 0

end Variant

end Sys2Proof
end

