-- ==== Sys2Proof/Machine/Views.lean ====
section
/-!
DEFINITION. The four typed views of the register `IS` (spec/10_state.md R28 to R32), the counter `PLEN` (R34) and the
scratch triple (R38).
-/

namespace Sys2Proof.Machine

/-- `H[0..4]`, five 32-bit words (10 R29); also the working words `a` to `e` (43 R219). -/
structure Five where
  h0 : Word
  h1 : Word
  h2 : Word
  h3 : Word
  h4 : Word
deriving DecidableEq, Repr, Inhabited

/-- `H[0..7]`, eight `w`-bit words (10 R30, R31); also the working words `a` to `h` (44 R245, 45 R265). -/
structure Eight (w : Nat) where
  h0 : BitVec w
  h1 : BitVec w
  h2 : BitVec w
  h3 : BitVec w
  h4 : BitVec w
  h5 : BitVec w
  h6 : BitVec w
  h7 : BitVec w
deriving DecidableEq, Repr, Inhabited

/-- Five lanes that share one index: a row `A[0][y] .. A[4][y]` (46 R280), or the temporaries `C`, `D` (R282). -/
structure Row where
  x0 : Lane
  x1 : Lane
  x2 : Lane
  x3 : Lane
  x4 : Lane
deriving DecidableEq, Repr, Inhabited

/-- The sponge state, five rows of five lanes (10 R32, 46 R280). -/
structure Lanes where
  y0 : Row
  y1 : Row
  y2 : Row
  y3 : Row
  y4 : Row
deriving DecidableEq, Repr, Inhabited

/-- The register `IS`: exactly one of the four views exists (10 R28, 92 D29). -/
inductive IS where
  | sha1 (H : Five)
  | sha256 (H : Eight 32)
  | sha512 (H : Eight 64)
  | keccak (A : Lanes)
deriving DecidableEq, Repr, Inhabited

/-- The family a view belongs to (10 R28). -/
def IS.family : IS → Family
  | .sha1 _ => .sha1
  | .sha256 _ => .sha256
  | .sha512 _ => .sha512
  | .keccak _ => .keccak

/-- What the counter `PLEN` holds: 128 bits (10 R34, 00 R5, 92 D19). `none` once the count of the session has left the 128
bits: the register then holds no value, neither a wrapped nor a truncated one (00 R11, 91 N13). DESIGN CHOICE, log
entry 3. -/
abbrev Counter := Option (BitVec 128)

/-- The counter for a count of `n` bits: `n` where 128 bits hold it. -/
def counterOf (n : Nat) : Counter := if n < 2 ^ 128 then some (BitVec.ofNat 128 n) else none

/-- `PLEN <- PLEN + n` (41 R151): the sum is taken in unbounded integers, then written to the counter. -/
def counterAdd (c : Counter) (n : Nat) : Counter := c.bind fun p => counterOf (p.toNat + n)

/-- The count in unbounded integers; where the counter holds no value, the least count it cannot hold. -/
def counted (c : Counter) : Nat := c.elim (2 ^ 128) BitVec.toNat

/-- `IS`, `REM`, `PLEN`: what `Absorb` works on, the registers themselves or a scratch copy (10 R38, 41 R151). -/
structure Triple where
  is : IS
  rem : Bits
  plen : Counter
deriving DecidableEq, Repr, Inhabited

/-- The total message length `PLEN + |REM|` (10 R34); `2^128` or more where the counter holds no value. -/
def Triple.total (t : Triple) : Nat := counted t.plen + t.rem.length

end Sys2Proof.Machine
end

