-- ==== Sys2Proof/Machine/Sha1.lean ====
section
/-!
DEFINITION. The SHA-1 compression engine (spec/43_md_sha1.md R215 to R220), and the message schedule shape that
SHA-1 and SHA-2 share.
-/

namespace Sys2Proof.Machine

/-- Extends a message schedule by `n` words. The list holds the words made so far, newest first, and the
recurrence reads them as `W 1 = W[t−1]`, `W 2 = W[t−2]` and so on (43 R218, 44 R244, 45 R264). -/
def extendSchedule {w : Nat} (recurrence : (Nat → BitVec w) → BitVec w) : Nat → List (BitVec w) → List (BitVec w)
  | 0, newestFirst => newestFirst
  | n + 1, newestFirst =>
    extendSchedule recurrence n (recurrence (fun k => newestFirst.getD (k - 1) 0) :: newestFirst)

/-- The schedule `W[0 .. 15 + n]` of a block `M[0..15]`, in index order. -/
def schedule {w : Nat} (recurrence : (Nat → BitVec w) → BitVec w) (n : Nat) (M : List (BitVec w)) :
    List (BitVec w) :=
  (extendSchedule recurrence n M.reverse).reverse

/-- The SHA-1 initial state (43 R215). -/
def sha1Initial : Five := ⟨0x67452301, 0xEFCDAB89, 0x98BADCFE, 0x10325476, 0xC3D2E1F0⟩

/-- The SHA-1 round constants (43 R216). -/
def sha1K (t : Nat) : Word :=
  if t ≤ 19 then 0x5A827999
  else if t ≤ 39 then 0x6ED9EBA1
  else if t ≤ 59 then 0x8F1BBCDC
  else 0xCA62C1D6

/-- The SHA-1 boolean functions Ch, Parity, Maj, Parity (43 R217). -/
def sha1F (t : Nat) (b c d : Word) : Word :=
  if t ≤ 19 then (b &&& c) ^^^ (~~~b &&& d)
  else if t ≤ 39 then b ^^^ c ^^^ d
  else if t ≤ 59 then (b &&& c) ^^^ (b &&& d) ^^^ (c &&& d)
  else b ^^^ c ^^^ d

/-- The SHA-1 message schedule `W[0..79]` (43 R218). -/
def sha1Schedule (M : List Word) : List Word :=
  schedule (fun W => rotl (W 3 ^^^ W 8 ^^^ W 14 ^^^ W 16) 1) 64 M

/-- The SHA-1 inner round `t` with schedule word `W[t]` (43 R219); `h0` to `h4` are `a` to `e`. -/
def sha1Round (s : Five) (wt : Word × Nat) : Five :=
  { h0 := rotl s.h0 5 + sha1F wt.2 s.h1 s.h2 s.h3 + s.h4 + sha1K wt.2 + wt.1
    h1 := s.h0
    h2 := rotl s.h1 30
    h3 := s.h2
    h4 := s.h3 }

/-- Word by word addition modulo 2^32. -/
def Five.add (H s : Five) : Five := ⟨H.h0 + s.h0, H.h1 + s.h1, H.h2 + s.h2, H.h3 + s.h3, H.h4 + s.h4⟩

/-- `SHA1.BLK` (43 R220). -/
def sha1Blk (H : Five) (blk : Bits) : Five :=
  H.add ((sha1Schedule (convBE 32 blk)).zipIdx.foldl sha1Round H)

end Sys2Proof.Machine
end

