-- ==== Sys2Proof/Machine/Sha2.lean ====
section
/-!
DEFINITION. What the SHA-256 and SHA-512 cores have in common: the two are the same construction at word width 32
and 64 (spec/44_sha256.md R243 to R246, spec/45_sha512.md R263 to R266).
-/

namespace Sys2Proof.Machine

/-- One line of a table of constants, a numeral of `n` words of `w` bits with the first word on top, as its words in
order (44 R242, 45 R262). -/
def lineWords {m : Nat} (w n : Nat) (line : BitVec m) : List (BitVec w) :=
  (List.range n).map fun i => line.extractLsb' (w * (n - 1 - i)) w

/-- `Ch` (44 R243, 45 R263). -/
def ch {w : Nat} (x y z : BitVec w) : BitVec w := (x &&& y) ^^^ (~~~x &&& z)

/-- `Maj` (44 R243, 45 R263). -/
def maj {w : Nat} (x y z : BitVec w) : BitVec w := (x &&& y) ^^^ (x &&& z) ^^^ (y &&& z)

/-- The inner round with constant `K[t]` and schedule word `W[t]` (44 R245, 45 R265); `h0` to `h7` are `a` to `h`. -/
def sha2Round {w : Nat} (bigSigma0 bigSigma1 : BitVec w → BitVec w) (s : Eight w) (kw : BitVec w × BitVec w) :
    Eight w :=
  let t1 := s.h7 + bigSigma1 s.h4 + ch s.h4 s.h5 s.h6 + kw.1 + kw.2
  let t2 := bigSigma0 s.h0 + maj s.h0 s.h1 s.h2
  { h0 := t1 + t2
    h1 := s.h0
    h2 := s.h1
    h3 := s.h2
    h4 := s.h3 + t1
    h5 := s.h4
    h6 := s.h5
    h7 := s.h6 }

/-- Word by word addition modulo `2^w`. -/
def Eight.add {w : Nat} (H s : Eight w) : Eight w :=
  ⟨H.h0 + s.h0, H.h1 + s.h1, H.h2 + s.h2, H.h3 + s.h3, H.h4 + s.h4, H.h5 + s.h5, H.h6 + s.h6, H.h7 + s.h7⟩

/-- The eight words in index order. -/
def Eight.toList {w : Nat} (H : Eight w) : List (BitVec w) := [H.h0, H.h1, H.h2, H.h3, H.h4, H.h5, H.h6, H.h7]

end Sys2Proof.Machine
end

