-- ==== Sys2Proof/Machine/Sha256.lean ====
section
/-!
DEFINITION. The SHA-256 core, used by SHA-224 and SHA-256 (spec/44_sha256.md R240 to R246).
-/

namespace Sys2Proof.Machine

/-- The SHA-256 initial state (44 R240). -/
def sha256Initial : Eight 32 :=
  ⟨0x6a09e667, 0xbb67ae85, 0x3c6ef372, 0xa54ff53a,
   0x510e527f, 0x9b05688c, 0x1f83d9ab, 0x5be0cd19⟩

/-- The SHA-224 initial state (44 R241). -/
def sha224Initial : Eight 32 :=
  ⟨0xc1059ed8, 0x367cd507, 0x3070dd17, 0xf70e5939,
   0xffc00b31, 0x68581511, 0x64f98fa7, 0xbefa4fa4⟩

/-- The lines of the table of `K256[0..63]`, eight words to a line (44 R242). -/
def k256Lines : List (BitVec 256) :=
  [0x428a2f98_71374491_b5c0fbcf_e9b5dba5_3956c25b_59f111f1_923f82a4_ab1c5ed5,
   0xd807aa98_12835b01_243185be_550c7dc3_72be5d74_80deb1fe_9bdc06a7_c19bf174,
   0xe49b69c1_efbe4786_0fc19dc6_240ca1cc_2de92c6f_4a7484aa_5cb0a9dc_76f988da,
   0x983e5152_a831c66d_b00327c8_bf597fc7_c6e00bf3_d5a79147_06ca6351_14292967,
   0x27b70a85_2e1b2138_4d2c6dfc_53380d13_650a7354_766a0abb_81c2c92e_92722c85,
   0xa2bfe8a1_a81a664b_c24b8b70_c76c51a3_d192e819_d6990624_f40e3585_106aa070,
   0x19a4c116_1e376c08_2748774c_34b0bcb5_391c0cb3_4ed8aa4a_5b9cca4f_682e6ff3,
   0x748f82ee_78a5636f_84c87814_8cc70208_90befffa_a4506ceb_bef9a3f7_c67178f2]

/-- The constants `K256[0..63]` in index order (44 R242). -/
def k256 : List (BitVec 32) := k256Lines.flatMap (lineWords 32 8)

/-- `Σ0` (44 R243). -/
def sha256BigSigma0 (x : BitVec 32) : BitVec 32 := rotr x 2 ^^^ rotr x 13 ^^^ rotr x 22
/-- `Σ1` (44 R243). -/
def sha256BigSigma1 (x : BitVec 32) : BitVec 32 := rotr x 6 ^^^ rotr x 11 ^^^ rotr x 25
/-- `σ0` (44 R243). -/
def sha256SmallSigma0 (x : BitVec 32) : BitVec 32 := rotr x 7 ^^^ rotr x 18 ^^^ x >>> 3
/-- `σ1` (44 R243). -/
def sha256SmallSigma1 (x : BitVec 32) : BitVec 32 := rotr x 17 ^^^ rotr x 19 ^^^ x >>> 10

/-- The message schedule `W[0..63]` (44 R244). -/
def sha256Schedule (M : List (BitVec 32)) : List (BitVec 32) :=
  schedule (fun W => sha256SmallSigma1 (W 2) + W 7 + sha256SmallSigma0 (W 15) + W 16) 48 M

/-- `SHA256.BLK` (44 R246): the inner rounds of 44 R245 with `K[t]` and `W[t]`, then the sums. -/
def sha256Blk (H : Eight 32) (blk : Bits) : Eight 32 :=
  H.add ((k256.zip (sha256Schedule (convBE 32 blk))).foldl (sha2Round sha256BigSigma0 sha256BigSigma1) H)

end Sys2Proof.Machine
end

