-- ==== Sys2Proof/Machine/Sha512.lean ====
section
/-!
DEFINITION. The SHA-512 core, used by SHA-384 and SHA-512 (spec/45_sha512.md R260 to R266).
-/

namespace Sys2Proof.Machine

/-- The SHA-512 initial state (45 R260). -/
def sha512Initial : Eight 64 :=
  ⟨0x6a09e667f3bcc908, 0xbb67ae8584caa73b, 0x3c6ef372fe94f82b, 0xa54ff53a5f1d36f1,
   0x510e527fade682d1, 0x9b05688c2b3e6c1f, 0x1f83d9abfb41bd6b, 0x5be0cd19137e2179⟩

/-- The SHA-384 initial state (45 R261). -/
def sha384Initial : Eight 64 :=
  ⟨0xcbbb9d5dc1059ed8, 0x629a292a367cd507, 0x9159015a3070dd17, 0x152fecd8f70e5939,
   0x67332667ffc00b31, 0x8eb44a8768581511, 0xdb0c2e0d64f98fa7, 0x47b5481dbefa4fa4⟩

/-- The lines of the table of `K512[0..79]`, four words to a line (45 R262). -/
def k512Lines : List (BitVec 256) :=
  [0x428a2f98d728ae22_7137449123ef65cd_b5c0fbcfec4d3b2f_e9b5dba58189dbbc,
   0x3956c25bf348b538_59f111f1b605d019_923f82a4af194f9b_ab1c5ed5da6d8118,
   0xd807aa98a3030242_12835b0145706fbe_243185be4ee4b28c_550c7dc3d5ffb4e2,
   0x72be5d74f27b896f_80deb1fe3b1696b1_9bdc06a725c71235_c19bf174cf692694,
   0xe49b69c19ef14ad2_efbe4786384f25e3_0fc19dc68b8cd5b5_240ca1cc77ac9c65,
   0x2de92c6f592b0275_4a7484aa6ea6e483_5cb0a9dcbd41fbd4_76f988da831153b5,
   0x983e5152ee66dfab_a831c66d2db43210_b00327c898fb213f_bf597fc7beef0ee4,
   0xc6e00bf33da88fc2_d5a79147930aa725_06ca6351e003826f_142929670a0e6e70,
   0x27b70a8546d22ffc_2e1b21385c26c926_4d2c6dfc5ac42aed_53380d139d95b3df,
   0x650a73548baf63de_766a0abb3c77b2a8_81c2c92e47edaee6_92722c851482353b,
   0xa2bfe8a14cf10364_a81a664bbc423001_c24b8b70d0f89791_c76c51a30654be30,
   0xd192e819d6ef5218_d69906245565a910_f40e35855771202a_106aa07032bbd1b8,
   0x19a4c116b8d2d0c8_1e376c085141ab53_2748774cdf8eeb99_34b0bcb5e19b48a8,
   0x391c0cb3c5c95a63_4ed8aa4ae3418acb_5b9cca4f7763e373_682e6ff3d6b2b8a3,
   0x748f82ee5defb2fc_78a5636f43172f60_84c87814a1f0ab72_8cc702081a6439ec,
   0x90befffa23631e28_a4506cebde82bde9_bef9a3f7b2c67915_c67178f2e372532b,
   0xca273eceea26619c_d186b8c721c0c207_eada7dd6cde0eb1e_f57d4f7fee6ed178,
   0x06f067aa72176fba_0a637dc5a2c898a6_113f9804bef90dae_1b710b35131c471b,
   0x28db77f523047d84_32caab7b40c72493_3c9ebe0a15c9bebc_431d67c49c100d4c,
   0x4cc5d4becb3e42b6_597f299cfc657e2a_5fcb6fab3ad6faec_6c44198c4a475817]

/-- The constants `K512[0..79]` in index order (45 R262). -/
def k512 : List (BitVec 64) := k512Lines.flatMap (lineWords 64 4)

/-- `Σ0` (45 R263). -/
def sha512BigSigma0 (x : BitVec 64) : BitVec 64 := rotr x 28 ^^^ rotr x 34 ^^^ rotr x 39
/-- `Σ1` (45 R263). -/
def sha512BigSigma1 (x : BitVec 64) : BitVec 64 := rotr x 14 ^^^ rotr x 18 ^^^ rotr x 41
/-- `σ0` (45 R263). -/
def sha512SmallSigma0 (x : BitVec 64) : BitVec 64 := rotr x 1 ^^^ rotr x 8 ^^^ x >>> 7
/-- `σ1` (45 R263). -/
def sha512SmallSigma1 (x : BitVec 64) : BitVec 64 := rotr x 19 ^^^ rotr x 61 ^^^ x >>> 6

/-- The message schedule `W[0..79]` (45 R264). -/
def sha512Schedule (M : List (BitVec 64)) : List (BitVec 64) :=
  schedule (fun W => sha512SmallSigma1 (W 2) + W 7 + sha512SmallSigma0 (W 15) + W 16) 64 M

/-- `SHA512.BLK` (45 R266): the inner rounds of 45 R265 with `K[t]` and `W[t]`, then the sums. -/
def sha512Blk (H : Eight 64) (blk : Bits) : Eight 64 :=
  H.add ((k512.zip (sha512Schedule (convBE 64 blk))).foldl (sha2Round sha512BigSigma0 sha512BigSigma1) H)

end Sys2Proof.Machine
end

