-- ==== Sys2Proof/Machine/Encodings.lean ====
section
/-!
DEFINITION. The four encoding primitives of spec/47_cshake_kmac.md R320 to R323. Byte strings stand as bit strings
whose length is a multiple of 8 (00 R9).
-/

namespace Sys2Proof.Machine

/-- The smallest `n ≥ 1` with `x < 2^(8n)` (47 R320). -/
def byteCount (x : Nat) : Nat := if x = 0 then 1 else x.log2 / 8 + 1

/-- `x` as `byteCount x` bytes, most significant first (47 R320). -/
def valueBytes (x : Nat) : List Byte :=
  (List.range (byteCount x)).map fun i => BitVec.ofNat 8 (x >>> (8 * (byteCount x - 1 - i)))

/-- `left_encode(x)` (47 R320): the count byte, then the value bytes. -/
def leftEncode (x : Nat) : Bits := bitsOfBytes (BitVec.ofNat 8 (byteCount x) :: valueBytes x)

/-- `right_encode(x)` (47 R321): the value bytes, then the count byte. -/
def rightEncode (x : Nat) : Bits := bitsOfBytes (valueBytes x ++ [BitVec.ofNat 8 (byteCount x)])

/-- `encode_string(s)` (47 R322): the length of `s` in bits, left-encoded, then `s`. -/
def encodeString (s : Bits) : Bits := leftEncode s.length ++ s

/-- `bytepad(X, w)` (47 R323): `left_encode(w) ‖ X`, then the fewest zero bytes that make the length a multiple of
`w` bytes. -/
def bytepad (X : Bits) (w : Nat) : Bits :=
  let z := leftEncode w ++ X
  z ++ zeros ((8 * w - z.length % (8 * w)) % (8 * w))

/-- The four bytes `4B 4D 41 43`, "KMAC" (47 R326). -/
def kmacName : Bits := bitsOfBytes [0x4B, 0x4D, 0x41, 0x43]

/-- What `CshakePrefix(N, S)` absorbs when there is something to frame, at a rate of `r` bits (47 R324). -/
def cshakeFrame (N S : Bits) (r : Nat) : Bits := bytepad (encodeString N ++ encodeString S) (r / 8)

/-- The KMAC key block (47 R327). -/
def kmacKeyFrame (K : Bits) (r : Nat) : Bits := bytepad (encodeString K) (r / 8)

end Sys2Proof.Machine
end

