-- ==== Sys2Proof/Config.lean ====
section
/-!
DEFINITION. The free values of the engine. After reset every register but `PHASE` "is unspecified: it holds no
value" and "a model must not give these registers a reset value such as zero" (spec/10_state.md R41);
spec/93_implementation_defined.md U2 names the treatment "any value". Each constant below has no body, so
nothing can be proved about its values. The argument numbers the reset event. DESIGN CHOICE, log entry 1.

`N_ENGINES`, the one OPEN parameter of the spec (92 D27), is the parameter of `Machine.System`.
-/

namespace Sys2Proof

/-- What `VAR` holds after a reset. -/
opaque Config.resetVar : Nat → Variant
/-- What `NR` holds after a reset. -/
opaque Config.resetNr : Nat → Word
/-- What `UPD` holds after a reset. -/
opaque Config.resetUpd : Nat → Bool
/-- What `KEYSET` holds after a reset. -/
opaque Config.resetKeyset : Nat → Bool
/-- What `CSF` holds after a reset. -/
opaque Config.resetCsf : Nat → Bool
/-- What `IS` holds after a reset. -/
opaque Config.resetIs : Nat → Machine.IS
/-- What `REM` holds after a reset. -/
opaque Config.resetRem : Nat → Bits
/-- What `PLEN` holds after a reset. -/
opaque Config.resetPlen : Nat → BitVec 128

end Sys2Proof
end

