-- ==== Sys2Proof/Machine/State.lean ====
section
/-!
DEFINITION. The architectural state of one engine (spec/10_state.md R20), its two streams (spec/20_memory.md R60),
the errors (spec/60_exceptions.md R350), the responses (spec/30_encoding.md R107), and the state after reset
(spec/10_state.md R41, spec/70_reset_and_hazards.md R390).
-/

namespace Sys2Proof.Machine

/-- The register `PHASE` (10 R21): 0 Idle, 1 Fresh, 2 Updating; 3 is never written (93 U3). -/
inductive Phase where
  | idle | fresh | updating
deriving DecidableEq, Repr, Inhabited

/-- The seven errors of the engine (60 R350). -/
inductive Err where
  | unsupportedVariant
  | unsupportedOption
  | missingRequiredOption
  | invalidState
  | unsupportedOutputLength
  | noKeySet
  | illegalCommand
deriving DecidableEq, Repr, Inhabited

/-- The responses (30 R107). -/
inductive Response where
  | ok
  | okBits (out : Bits)
  | error (e : Err)
deriving DecidableEq, Repr, Inhabited

/-- Everything that survives from one command to the next (10 R20), and the words in the two streams (20 R60). -/
structure State where
  /-- `PHASE` (10 R21). -/
  phase : Phase
  /-- `VAR` (10 R22). -/
  var : Variant
  /-- `NR`, 32 bits (10 R24). -/
  nr : Word
  /-- `UPD` (10 R25). -/
  upd : Bool
  /-- `KEYSET` (10 R26). -/
  keyset : Bool
  /-- `CSF` (10 R27). -/
  csf : Bool
  /-- `IS` (10 R28 to R32). -/
  is : IS
  /-- `REM` (10 R33). -/
  rem : Bits
  /-- `PLEN`, 128 bits (10 R34): `none` once the count has left the 128 bits. DESIGN CHOICE, log entry 3. -/
  plen : Counter
  /-- `KIN` (10 R35): `none` while it holds no value. -/
  kin : Option Bits
  /-- `KOUT` (10 R35): `none` while it holds no value. -/
  kout : Option Bits
  /-- `CMD`: the words the host has appended and the engine has not removed, front first. -/
  cmd : List Word
  /-- `RSP`: the words the engine has appended and the host has not removed, front first. -/
  rsp : List Word
deriving DecidableEq, Repr

/-- What stops the machine with a fault. -/
inductive Fault where
  /-- A keyed finalize (GETHASH or GETHMAC with `KEYSET = 1`) finds no value in `KOUT`: the read of 42 R195
  has nothing to read (10 R35). No run reaches it (`EngineInv`). Raised by `keyedAnswer`; safe, log entry 5. -/
  | koutHasNoValue
deriving DecidableEq, Repr

/-- What the model gives no meaning. -/
inductive Refusal where
  /-- An instruction that has no meaning yet, by its mnemonic. Raised by no arm of `exec`; safe. -/
  | notModelled (mnemonic : String)
  /-- A finalize of an MD variant whose total length does not fit the length field: "a model must refuse it
  (give it no meaning)" (43 R214, 93 U1). Raised by `answer` and `initVariant` and `execSetKey`; safe, log entry 7. -/
  | mdLengthOverflow
deriving DecidableEq, Repr

/-- The state right after reset number `k` (70 R390): Idle, both streams empty, `KIN` and `KOUT` without a value,
every other register free. -/
def State.resetAt (k : Nat) : State where
  phase := .idle
  var := Config.resetVar k
  nr := Config.resetNr k
  upd := Config.resetUpd k
  keyset := Config.resetKeyset k
  csf := Config.resetCsf k
  is := Config.resetIs k
  rem := Config.resetRem k
  plen := some (Config.resetPlen k)
  kin := none
  kout := none
  cmd := []
  rsp := []

/-- The machine right after reset (10 R41, 70 R391). -/
def State.reset : State := State.resetAt 0

end Sys2Proof.Machine
end

