-- ==== Sys2Proof/Machine/Flags.lean ====
section
/-!
DEFINITION. The three flags `UPD`, `KEYSET`, `CSF` (spec/10_state.md R25 to R27): what each command writes to them,
and the delimiter byte `CSF` selects (spec/46_keccak_sponge.md R291). There are no arithmetic condition codes.
-/

namespace Sys2Proof.Machine

/-- `CSF` after a successful INIT: 1 for every KMAC session, 1 for a CSHAKE session whose function name or
customization string is non-empty, 0 otherwise (10 R27, 47 R324 to R326). -/
def csfAtInit (v : Variant) (o : InitOpts) : Bool :=
  match v.desc.kind with
  | .kmac => true
  | .cshake => !((o.fn.getD []).isEmpty && (o.cu.getD []).isEmpty)
  | .md => false
  | .sha3 => false
  | .shake => false

/-- The delimiter byte of a kind and the framing flag (46 R291, 10 R23 column `delim`); MD variants have none and
no rule asks for it. -/
def delimiter (k : Kind) (csf : Bool) : Byte :=
  match k with
  | .sha3 => 0x06
  | .shake => 0x1F
  | .cshake => if csf then 0x04 else 0x1F
  | .kmac => 0x04
  | .md => 0x00

/-- `UPD` and `PHASE` after a successful UPDATE (10 R25, 41 R159). -/
def State.markUpdated (s : State) : State := { s with upd := true, phase := .updating }

end Sys2Proof.Machine
end

