-- ==== Sys2Proof/Machine/Keccak.lean ====
section
/-!
DEFINITION. The permutation Keccak-f[1600] (spec/46_keccak_sponge.md R280 to R288, R296, R297) and the byte form
of the sponge state (R281).
-/

namespace Sys2Proof.Machine

/-- Entry `i` of five lanes. -/
def Row.get (r : Row) : Fin 5 → Lane
  | 0 => r.x0
  | 1 => r.x1
  | 2 => r.x2
  | 3 => r.x3
  | 4 => r.x4

/-- Five lanes from their entries. -/
def Row.of (f : Fin 5 → Lane) : Row := ⟨f 0, f 1, f 2, f 3, f 4⟩

/-- The row `y`. -/
def Lanes.row (A : Lanes) : Fin 5 → Row
  | 0 => A.y0
  | 1 => A.y1
  | 2 => A.y2
  | 3 => A.y3
  | 4 => A.y4

/-- The lane `A[x][y]`; `Fin 5` makes "all index arithmetic on `x` and `y` modulo 5" (46 R280). -/
def Lanes.get (A : Lanes) (x y : Fin 5) : Lane := (A.row y).get x

/-- The state whose lane `[x][y]` is `f x y`. -/
def Lanes.of (f : Fin 5 → Fin 5 → Lane) : Lanes :=
  ⟨Row.of (f · 0), Row.of (f · 1), Row.of (f · 2), Row.of (f · 3), Row.of (f · 4)⟩

/-- The initial state: all twenty-five lanes zero (46 R296). -/
def Lanes.zero : Lanes := Lanes.of fun _ _ => 0

/-- θ, column parity XOR (46 R282). -/
def theta (A : Lanes) : Lanes :=
  let C := Row.of fun x => A.get x 0 ^^^ A.get x 1 ^^^ A.get x 2 ^^^ A.get x 3 ^^^ A.get x 4
  let D := Row.of fun x => C.get (x - 1) ^^^ rotl (C.get (x + 1)) 1
  Lanes.of fun x y => A.get x y ^^^ D.get x

/-- The rotation offsets `r[x][y]`, one row of the table per `y` (46 R283). -/
def rhoOffsets : List (List Nat) :=
  [[0, 1, 62, 28, 27],
   [36, 44, 6, 55, 20],
   [3, 10, 43, 25, 39],
   [41, 45, 15, 21, 8],
   [18, 2, 61, 56, 14]]

/-- `r[x][y]` (46 R283). -/
def rhoOffset (x y : Fin 5) : Nat := (rhoOffsets.getD y []).getD x 0

/-- ρ, per-lane rotation (46 R283). -/
def rho (A : Lanes) : Lanes := Lanes.of fun x y => rotl (A.get x y) (rhoOffset x y)

/-- π, lane permutation by position, in the form `A'[x][y] = A[(x + 3y) mod 5][x]` (46 R284). -/
def pi (A : Lanes) : Lanes := Lanes.of fun x y => A.get (x + 3 * y) x

/-- χ, nonlinear mixing of rows (46 R285). -/
def chi (A : Lanes) : Lanes :=
  Lanes.of fun x y => A.get x y ^^^ (~~~A.get (x + 1) y &&& A.get (x + 2) y)

/-- The twenty-four constants `RC` (46 R286). -/
def roundConstants : List Lane :=
  [0x0000000000000001, 0x0000000000008082, 0x800000000000808a,
   0x8000000080008000, 0x000000000000808b, 0x0000000080000001,
   0x8000000080008081, 0x8000000000008009, 0x000000000000008a,
   0x0000000000000088, 0x0000000080008009, 0x000000008000000a,
   0x000000008000808b, 0x800000000000008b, 0x8000000000008089,
   0x8000000000008003, 0x8000000000008002, 0x8000000000000080,
   0x000000000000800a, 0x800000008000000a, 0x8000000080008081,
   0x8000000000008080, 0x0000000080000001, 0x8000000080008008]

/-- ι, round-constant XOR into lane `[0][0]` (46 R286). -/
def iota (RC : Lane) (A : Lanes) : Lanes :=
  Lanes.of fun x y => if x = 0 ∧ y = 0 then A.get 0 0 ^^^ RC else A.get x y

/-- One inner round: ι after χ after π after ρ after θ (46 R287). -/
def keccakRound (A : Lanes) (RC : Lane) : Lanes := iota RC (chi (pi (rho (theta A))))

/-- `KECCAK.F`: the inner rounds 0 to 23 (46 R288). -/
def keccakF (A : Lanes) : Lanes := roundConstants.foldl keccakRound A

/-- The five lanes of a row, `x = 0` first. -/
def Row.toList (r : Row) : List Lane := [r.x0, r.x1, r.x2, r.x3, r.x4]

/-- The twenty-five lanes in the order of their linear index `x + 5y` (46 R281). -/
def Lanes.toList (A : Lanes) : List Lane :=
  A.y0.toList ++ A.y1.toList ++ A.y2.toList ++ A.y3.toList ++ A.y4.toList

/-- A lane as eight bytes, least significant byte first (46 R281). -/
def laneBytes (v : Lane) : List Byte := (List.range 8).map fun j => v.extractLsb' (8 * j) 8

/-- `StateBytes(A)`: 200 bytes (46 R281). -/
def stateBytes (A : Lanes) : List Byte := A.toList.flatMap laneBytes

/-- `StateBits(A)` (46 R281). -/
def stateBits (A : Lanes) : Bits := bitsOfBytes (stateBytes A)

/-- XOR of the lane values `L[i]` into the lanes with linear index `i < |L|`; the other lanes stay (46 R290). -/
def xorLanes (A : Lanes) (L : List Lane) : Lanes :=
  Lanes.of fun x y => A.get x y ^^^ L.getD (x.val + 5 * y.val) 0

/-- `SPONGE.ABSORB`, `Round` of the KECCAK family (46 R290). -/
def spongeAbsorb (A : Lanes) (P : Bits) : Lanes := keccakF (xorLanes A (convLE P))

end Sys2Proof.Machine
end

