-- ==== Sys2Proof/Machine/Sponge.lean ====
section
/-!
DEFINITION. The sponge backend: pad, squeeze, finalize (spec/46_keccak_sponge.md R292 to R294) and the KMAC suffix
(spec/47_cshake_kmac.md R328).
-/

namespace Sys2Proof.Machine

/-- `SpongePad(R, r, delim)` (46 R292): exactly one block. -/
def spongePad (R : Bits) (r : Nat) (delim : Byte) : Bits :=
  let n := R.length / 8
  let m := r / 8
  let Q := bytes R ++ List.replicate (m - n) (0 : Byte)
  bitsOfBytes ((Q.modify n (· ^^^ delim)).modify (m - 1) (· ^^^ 0x80))

/-- The output of `n` further permutations, `r` bits after each (46 R294). -/
def squeezeMore (r : Nat) : Nat → Lanes → Bits
  | 0, _ => []
  | n + 1, S => (stateBits (keccakF S)).take r ++ squeezeMore r n (keccakF S)

/-- `Squeeze(S, r, L)` (46 R294): `ceil(L / r) − 1` further permutations, then the first `L` bits. -/
def squeeze (S : Lanes) (r L : Nat) : Bits :=
  ((stateBits S).take r ++ squeezeMore r (ceilDiv L r - 1) S).take L

/-- `KmacSuffix(d, S, R, L)` (47 R328). -/
def kmacSuffix (d : Desc) (S : Lanes) (R : Bits) (L : Nat) : Lanes × Bits :=
  let b := takeBlocks (append R (rightEncode L)) d.blockBits
  (b.1.foldl spongeAbsorb S, b.2)

/-- The state and remainder `SPONGE.FINAL` pads: after the KMAC suffix for KMAC, else as they are (46 R293). -/
def spongeTail (d : Desc) (S : Lanes) (R : Bits) (L : Nat) : Lanes × Bits :=
  match d.kind with
  | .kmac => kmacSuffix d S R L
  | .md => (S, R)
  | .sha3 => (S, R)
  | .shake => (S, R)
  | .cshake => (S, R)

/-- `SPONGE.FINAL` (46 R293). -/
def spongeFinal (d : Desc) (S : Lanes) (R : Bits) (L : Nat) (csf : Bool) : Bits :=
  let t := spongeTail d S R L
  squeeze (spongeAbsorb t.1 (spongePad t.2 d.blockBits (delimiter d.kind csf))) d.blockBits L

end Sys2Proof.Machine
end

