-- ==== Sys2Proof/Machine/Backend.lean ====
section
/-!
DEFINITION. The backend functions newState, round, finalize (spec/41_incremental_engine.md R152 to R155), the
Merkle–Damgård padding, finalize and digest (spec/43_md_sha1.md R211 to R214), the block scheduler `Absorb`
(41 R151) and `OneShot` (41 R161).
-/

namespace Sys2Proof.Machine

/-- `NewState(d)` (41 R153): by variant, not only by family. -/
def newState : Variant → IS
  | .sha1 => .sha1 sha1Initial
  | .sha224 => .sha256 sha224Initial
  | .sha256 => .sha256 sha256Initial
  | .sha384 => .sha512 sha384Initial
  | .sha512 => .sha512 sha512Initial
  | .sha3_224 => .keccak Lanes.zero
  | .sha3_256 => .keccak Lanes.zero
  | .sha3_384 => .keccak Lanes.zero
  | .sha3_512 => .keccak Lanes.zero
  | .shake128 => .keccak Lanes.zero
  | .shake256 => .keccak Lanes.zero
  | .cshake128 => .keccak Lanes.zero
  | .cshake256 => .keccak Lanes.zero
  | .kmac128 => .keccak Lanes.zero
  | .kmac256 => .keccak Lanes.zero

/-- `Round(d, S, blk)` (41 R154), dispatched on the view that `S` holds; in every state a run reaches that is the
view of `d.family` (`EngineInv`). DESIGN CHOICE, log entry 4. -/
def round (S : IS) (blk : Bits) : IS :=
  match S with
  | .sha1 H => .sha1 (sha1Blk H blk)
  | .sha256 H => .sha256 (sha256Blk H blk)
  | .sha512 H => .sha512 (sha512Blk H blk)
  | .keccak A => .keccak (spongeAbsorb A blk)

/-- The blocks consumed in order, each call's output state the next call's input state (41 R151). -/
def rounds (S : IS) (blocks : List Bits) : IS := blocks.foldl round S

/-- `Absorb(bits)`, the block scheduler, on the registers or on a scratch triple (41 R151). -/
def absorb (d : Desc) (t : Triple) (input : Bits) : Triple :=
  let b := takeBlocks (append t.rem input) d.blockBits
  { is := rounds t.is b.1
    rem := b.2
    plen := counterAdd t.plen (b.1.length * d.blockBits) }

/-- The fresh scratch triple of 41 R161 and 42 R195. -/
def freshTriple (v : Variant) : Triple := ⟨newState v, [], some 0⟩

/-- The words of a view laid in index order, each in its family's byte order (43 R213, 46 R281). -/
def viewBits : IS → Bits
  | .sha1 H => [H.h0, H.h1, H.h2, H.h3, H.h4].flatMap bitsBE
  | .sha256 H => H.toList.flatMap bitsBE
  | .sha512 H => H.toList.flatMap bitsBE
  | .keccak A => stateBits A

/-- `Digest(d, S)` (43 R213): the leftmost `d.outBits` bits. -/
def digest (d : Desc) (S : IS) : Bits := (viewBits S).take d.outBits

/-- The `k` of `MdPad`: the smallest `k ≥ 0` with `|R| + 1 + k + F ≡ 0 (mod B)` (43 R211). -/
def mdPadZeros (n B F : Nat) : Nat := (B - (n + 1 + F) % B) % B

/-- `MdPad(R, T, B, F)` (43 R211). -/
def mdPad (R : Bits) (T B F : Nat) : Bits :=
  R ++ [true] ++ zeros (mdPadZeros R.length B F) ++ bitsBE (BitVec.ofNat F T)

/-- The width `F` of the length field; MD descriptors have one (10 R23). -/
def Desc.fieldBits (d : Desc) : Nat := d.lenBits.getD 0

/-- `MD.FINAL` (43 R212); `none` where the total length does not fit the length field, which has no defined result
(43 R214). -/
def mdFinal (d : Desc) (t : Triple) : Option Bits :=
  if t.total < 2 ^ Desc.fieldBits d then
    some (digest d (rounds t.is (takeBlocks (mdPad t.rem t.total d.blockBits (Desc.fieldBits d)) d.blockBits).1))
  else none

/-- `Finalize(d, S, R, P, L, csf)` (41 R155), dispatched on the view that `S` holds as `round` is. It reads its
arguments only, which are copies, so nothing architectural changes. -/
def finalize (d : Desc) (t : Triple) (L : Nat) (csf : Bool) : Option Bits :=
  match t.is with
  | .sha1 _ => mdFinal d t
  | .sha256 _ => mdFinal d t
  | .sha512 _ => mdFinal d t
  | .keccak A => some (spongeFinal d A t.rem L csf)

/-- `OneShot(d, bits)` (41 R161): the hash of a complete message, on scratch. The spec defines it "for fixed-length
variants only"; of a variable-length variant, whose `outBits` is 0, it is the empty string here, which only a state that
no run reaches can ask for. DESIGN CHOICE, log entry 9. -/
def oneShot (v : Variant) (message : Bits) : Option Bits :=
  finalize v.desc (absorb v.desc (freshTriple v) message) v.desc.outBits false

/-- `n` further rounds of `numRounds` iteration: each hashes the previous output digest as a new message (41 R162). -/
def iterate (v : Variant) : Nat → Bits → Option Bits
  | 0, out => some out
  | n + 1, out => (oneShot v out).bind (iterate v n)

end Sys2Proof.Machine
end

