-- ==== Sys2Proof/WellFormed.lean ====
section
/-!
DEFINITION. Which terms of `Instr` are commands: "every bit string in a command has length below 2^32"
(spec/30_encoding.md R107), and `initUnknown` stands for the codes outside the table (R95).
-/

namespace Sys2Proof

/-- A payload section can carry the bit string: its length fits the length word (30 R93). -/
def payloadFits (b : Bits) : Bool := b.length < 2 ^ 32

/-- Every option that is present is one a packet can carry (30 R107). -/
def InitOpts.wellFormed (o : InitOpts) : Bool :=
  o.hk.all payloadFits && o.fn.all payloadFits && o.cu.all payloadFits && o.kk.all payloadFits

/-- The check a term passes when it is the abstract form of some packet. -/
def Instr.wellFormed : Instr → Bool
  | .initSha1 o => o.wellFormed
  | .initSha224 o => o.wellFormed
  | .initSha256 o => o.wellFormed
  | .initSha384 o => o.wellFormed
  | .initSha512 o => o.wellFormed
  | .initSha3_224 o => o.wellFormed
  | .initSha3_256 o => o.wellFormed
  | .initSha3_384 o => o.wellFormed
  | .initSha3_512 o => o.wellFormed
  | .initShake128 o => o.wellFormed
  | .initShake256 o => o.wellFormed
  | .initCshake128 o => o.wellFormed
  | .initCshake256 o => o.wellFormed
  | .initKmac128 o => o.wellFormed
  | .initKmac256 o => o.wellFormed
  | .initUnknown var o => (Variant.ofCode var).isNone && o.wellFormed
  | .update data => payloadFits data
  | .getHash _ => true
  | .getHmac _ => true
  | .setKey key => payloadFits key

end Sys2Proof
end

