-- ==== Sys2Proof/Decode.lean ====
section
/-!
DEFINITION. The decoder of spec/30_encoding.md R103, total on every finite word sequence, and after it the
encoder of R107. Field positions: R91; opcodes: R92; formats: R94, R96 to R99; illegal headers: R100, R101.
-/

namespace Sys2Proof

/-- Why a header word is illegal (30 R101). -/
inductive IllegalWhy where
  /-- An opcode outside 0x01 to 0x05 (30 R92). -/
  | unknownOpcode
  /-- A 1 in a bit the format says must be zero (30 R100). -/
  | reservedField
deriving DecidableEq, Repr

/-- The three results of `Decode(ws)` (30 R103). `rest` is what stands in `CMD` behind the packet,
so the packet occupies the first `|ws| − |rest|` words. -/
inductive Decoded where
  | cmd (c : Instr) (rest : List Word)
  | illegal (why : IllegalWhy) (rest : List Word)
  | wait
deriving DecidableEq, Repr

/-- Header bits 31:24 (30 R91). -/
def opOf (h : Word) : Byte := h.extractLsb' 24 8
/-- Header bits 23:16 (30 R91). -/
def optOf (h : Word) : Byte := h.extractLsb' 16 8
/-- Header bits 15:8 (30 R91). -/
def zOf (h : Word) : Byte := h.extractLsb' 8 8
/-- Header bits 7:0 (30 R91). -/
def varOf (h : Word) : Byte := h.extractLsb' 0 8

/-- The check on the header alone (30 R100, R101): `none` for a legal header. -/
def headerFault (h : Word) : Option IllegalWhy :=
  let opt := optOf h
  let z := zOf h
  let var := varOf h
  if opOf h = 0x01 then
    if z ≠ 0 ∨ opt >>> 5 ≠ 0 then some .reservedField else none
  else if opOf h = 0x02 ∨ opOf h = 0x05 then
    if opt ≠ 0 ∨ z ≠ 0 ∨ var ≠ 0 then some .reservedField else none
  else if opOf h = 0x03 ∨ opOf h = 0x04 then
    if opt >>> 1 ≠ 0 ∨ z ≠ 0 ∨ var ≠ 0 then some .reservedField else none
  else some .unknownOpcode

/-- `Section(i)` of 30 R103: one payload section at the front of the words, `none` while words are missing. -/
def payloadSection? : List Word → Option (Bits × List Word)
  | [] => none
  | n :: ws =>
    let k := ceilDiv n.toNat 32
    if ws.length < k then none
    else some ((wordsBits (ws.take k)).take n.toNat, ws.drop k)

/-- A payload section that is there only when its flag is 1 (30 R94). -/
def optSection? (flag : Bool) (ws : List Word) : Option (Option Bits × List Word) :=
  if flag then (payloadSection? ws).map fun x => (some x.1, x.2) else some (none, ws)

/-- A word that is there only when its flag is 1 (30 R94, R98). -/
def optWord? (flag : Bool) (ws : List Word) : Option (Option Word × List Word) :=
  if flag then
    match ws with
    | [] => none
    | w :: ws => some (some w, ws)
  else some (none, ws)

/-- The parts of an INIT packet in their fixed order NR, HK, FN, CU, KK (30 R94). -/
def initParts? (opt : Byte) (ws : List Word) : Option (InitOpts × List Word) :=
  (optWord? (opt.getLsbD 0) ws).bind fun nr =>
  (optSection? (opt.getLsbD 1) nr.2).bind fun hk =>
  (optSection? (opt.getLsbD 2) hk.2).bind fun fn =>
  (optSection? (opt.getLsbD 3) fn.2).bind fun cu =>
  (optSection? (opt.getLsbD 4) cu.2).map fun kk =>
    (⟨nr.1, hk.1, fn.1, cu.1, kk.1⟩, kk.2)

/-- The INIT command of a variant. -/
def initInstr : Variant → InitOpts → Instr
  | .sha1 => .initSha1
  | .sha224 => .initSha224
  | .sha256 => .initSha256
  | .sha384 => .initSha384
  | .sha512 => .initSha512
  | .sha3_224 => .initSha3_224
  | .sha3_256 => .initSha3_256
  | .sha3_384 => .initSha3_384
  | .sha3_512 => .initSha3_512
  | .shake128 => .initShake128
  | .shake256 => .initShake256
  | .cshake128 => .initCshake128
  | .cshake256 => .initCshake256
  | .kmac128 => .initKmac128
  | .kmac256 => .initKmac256

/-- The INIT command of a `var` byte (30 R95). -/
def initOf (var : Byte) (o : InitOpts) : Instr :=
  match Variant.ofCode var with
  | some v => initInstr v o
  | none => .initUnknown var o

/-- A command when its parts are all there, else `Wait`. -/
def Decoded.ofParts {α : Type} (mk : α → Instr) : Option (α × List Word) → Decoded
  | some (a, rest) => .cmd (mk a) rest
  | none => .wait

/-- What follows a legal header `h` (30 R103). -/
def decodeBody (h : Word) (ws : List Word) : Decoded :=
  if opOf h = 0x01 then .ofParts (initOf (varOf h)) (initParts? (optOf h) ws)
  else if opOf h = 0x02 then .ofParts .update (payloadSection? ws)
  else if opOf h = 0x03 then .ofParts .getHash (optWord? ((optOf h).getLsbD 0) ws)
  else if opOf h = 0x04 then .ofParts .getHmac (optWord? ((optOf h).getLsbD 0) ws)
  else .ofParts .setKey (payloadSection? ws)

/-- `Decode(ws)` (30 R103): the illegal header first, on the header alone. -/
def decode : List Word → Decoded
  | [] => .wait
  | h :: ws =>
    match headerFault h with
    | some why => .illegal why ws
    | none => decodeBody h ws

/-! ### The encoder (30 R107) -/

/-- A header word from its fields (30 R91), `z = 0`. -/
def header (op opt var : Byte) : Word := op ++ opt ++ (0 : Byte) ++ var

/-- A payload section (30 R93). -/
def encodeSection (p : Bits) : List Word := BitVec.ofNat 32 p.length :: payloadWords p

/-- The flag bits of an INIT header (30 R94). -/
def initFlags (o : InitOpts) : Byte :=
  (if o.nr.isSome then 0x01 else 0) ||| (if o.hk.isSome then 0x02 else 0) |||
  (if o.fn.isSome then 0x04 else 0) ||| (if o.cu.isSome then 0x08 else 0) |||
  (if o.kk.isSome then 0x10 else 0)

/-- An optional payload section; absent parts take no words (30 R94). -/
def encodeOptSection (p : Option Bits) : List Word := (p.map encodeSection).getD []

/-- The parts of an INIT packet (30 R94). -/
def encodeParts (o : InitOpts) : List Word :=
  o.nr.toList ++ encodeOptSection o.hk ++ encodeOptSection o.fn ++ encodeOptSection o.cu ++
    encodeOptSection o.kk

/-- An INIT packet with a given `var` byte (30 R94). -/
def encodeInit (var : Byte) (o : InitOpts) : List Word := header 0x01 (initFlags o) var :: encodeParts o

/-- A packet of format P (30 R96, R97). -/
def encodeP (op : Byte) (p : Bits) : List Word := header op 0 0 :: encodeSection p

/-- A packet of format G (30 R98, R99). -/
def encodeG (op : Byte) (len : Option Word) : List Word :=
  header op (if len.isSome then 0x01 else 0) 0 :: len.toList

/-- `Encode` (30 R107). -/
def encode : Instr → List Word
  | .initSha1 o => encodeInit 0x01 o
  | .initSha224 o => encodeInit 0x02 o
  | .initSha256 o => encodeInit 0x03 o
  | .initSha384 o => encodeInit 0x04 o
  | .initSha512 o => encodeInit 0x05 o
  | .initSha3_224 o => encodeInit 0x10 o
  | .initSha3_256 o => encodeInit 0x11 o
  | .initSha3_384 o => encodeInit 0x12 o
  | .initSha3_512 o => encodeInit 0x13 o
  | .initShake128 o => encodeInit 0x20 o
  | .initShake256 o => encodeInit 0x21 o
  | .initCshake128 o => encodeInit 0x30 o
  | .initCshake256 o => encodeInit 0x31 o
  | .initKmac128 o => encodeInit 0x40 o
  | .initKmac256 o => encodeInit 0x41 o
  | .initUnknown var o => encodeInit var o
  | .update data => encodeP 0x02 data
  | .getHash len => encodeG 0x03 len
  | .getHmac len => encodeG 0x04 len
  | .setKey key => encodeP 0x05 key

/-! ### Words numbered as spec/opcode_table.json numbers them -/

/-- The stream words of an instruction whose table bits are `w`: bit 0 is the least significant bit of the
first word. Five words of zeros follow, the most operand words that operand words of zeros can make. -/
def tableWords (nbits w : Nat) : List Word :=
  (List.range (ceilDiv nbits 32)).map (fun j => BitVec.ofNat 32 (w >>> (32 * j))) ++ List.replicate 5 0

/-- Exactly the words of the packet (or of the illegal header) at the front of `tableWords`. -/
def tablePacket (nbits w : Nat) : List Word :=
  let ws := tableWords nbits w
  match decode ws with
  | .cmd _ rest => ws.take (ws.length - rest.length)
  | .illegal _ rest => ws.take (ws.length - rest.length)
  | .wait => ws

/-- The instruction the decoder reads from an instruction whose table bits are `w`. -/
def decodeTableWord (nbits w : Nat) : Option Instr :=
  match decode (tableWords nbits w) with
  | .cmd c _ => some c
  | .illegal _ _ => none
  | .wait => none

end Sys2Proof
end

