-- ==== Sys2Proof/Machine/Ops.lean ====
section
/-!
DEFINITION. The shared operations over the streams and the registers: fetching a packet, responding
(spec/30_encoding.md R104), entering an error (spec/60_exceptions.md R361), and what the host can do from outside
(spec/20_memory.md R60, spec/70_reset_and_hazards.md R390).
-/

namespace Sys2Proof.Machine

/-- What a step answers. -/
abbrev Result := Host.Outcome State Fault Refusal

/-- The error codes (30 R105). -/
def Err.code : Err → Byte
  | .unsupportedVariant => 0x01
  | .unsupportedOption => 0x02
  | .missingRequiredOption => 0x03
  | .invalidState => 0x04
  | .unsupportedOutputLength => 0x05
  | .noKeySet => 0x06
  | .illegalCommand => 0x7F

/-- A response packet (30 R104): the three shapes. -/
def encodeResponse : Response → List Word
  | .ok => [0x00000000]
  | .okBits out => 0x00010000 :: encodeSection out
  | .error e => [0x80000000 ||| e.code.zeroExtend 32]

/-- Appends one response packet to the back of `RSP` (20 R60). -/
def respond (r : Response) (s : State) : State := { s with rsp := s.rsp ++ encodeResponse r }

/-- Error entry, the engine's one way of taking an exception (60 R361): the packet is already removed, no register
changes, one error word is appended to `RSP`. There is no return from it: "after the error response the engine is
in the same state as before the failed command and takes the next packet" (60 R362). -/
def raiseError (e : Err) (s : State) : State := respond (.error e) s

/-- A command that ends in an error: the next state is the error entry. -/
def failWith (e : Err) (s : State) : Result := .next (raiseError e s)

/-- A command that ends with the response Ok. -/
def succeed (s : State) : Result := .next (respond .ok s)

/-- A finalize command: the response carries the output; no output means 43 R214 applies. -/
def answer (out : Option Bits) (s : State) : Result :=
  match out with
  | some b => .next (respond (.okBits b) s)
  | none => .refused .mdLengthOverflow

/-- What stands at the front of `CMD` (30 R103). -/
def fetch (s : State) : Decoded := decode s.cmd

/-- The state once the packet at the front is removed and `rest` is what stays in `CMD` (60 R361, 20 R73). -/
def takePacket (rest : List Word) (s : State) : State := { s with cmd := rest }

/-- An illegal header (30 R101, 60 R358): one word consumed, `IllegalCommand`. -/
def illegalHeader (rest : List Word) (s : State) : Result := failWith .illegalCommand (takePacket rest s)

/-- While words are missing the engine waits: no state change and no response (30 R102). The step is then a step
that changes nothing. DESIGN CHOICE, log entry 2. -/
def waitForWords (s : State) : Result := .next s

/-- The scratch copy `StateClone` takes together with `REM` and `PLEN` (41 R152, 10 R38). -/
def State.triple (s : State) : Triple := ⟨s.is, s.rem, s.plen⟩

/-- Writes `IS`, `REM`, `PLEN`. -/
def State.setTriple (s : State) (t : Triple) : State := { s with is := t.is, rem := t.rem, plen := t.plen }

/-- The descriptor of the session (10 R23). -/
def State.desc (s : State) : Desc := s.var.desc

/-- The host appends words to `CMD` (20 R60). -/
def hostSend (ws : List Word) (s : State) : State := { s with cmd := s.cmd ++ ws }

/-- The host removes the first `n` words of `RSP` (20 R60). -/
def hostReceive (n : Nat) (s : State) : List Word × State := (s.rsp.take n, { s with rsp := s.rsp.drop n })

/-- The reset event (70 R390): whatever the state was, it is the state after reset; `k` numbers the event, so that
nothing ties the free values of one reset to those of another. -/
def resetEvent (k : Nat) (_ : State) : State := State.resetAt k

end Sys2Proof.Machine
end

