-- ==== Sys2Proof/Machine/Operands.lean ====
section
/-!
DEFINITION. The operand forms and their validation: the output length (spec/41_incremental_engine.md R156), the key
(spec/42_hmac.md R190), the options of INIT (41 R157) and the payload of UPDATE (spec/20_memory.md R69).
-/

namespace Sys2Proof.Machine

/-- `OutLen(d, len)` (41 R156); `none` is `raise UnsupportedOutputLength`. -/
def outLen (d : Desc) (len : Option Word) : Option Nat :=
  if d.outBits ≠ 0 then
    match len with
    | none => some d.outBits
    | some n => if n.toNat = d.outBits then some d.outBits else none
  else
    match len with
    | none => none
    | some n => if n.toNat = 0 ∨ n.toNat % 8 ≠ 0 then none else some n.toNat

/-- The bit string is a whole number of bytes (20 R69). -/
def wholeBytes (b : Bits) : Bool := b.length % 8 == 0

/-- A payload length the variant admits: every length for MD, whole bytes for the sponge (20 R69). -/
def lengthLegal (v : Variant) (b : Bits) : Bool := v.md || wholeBytes b

/-- `KeyAllowed(d, nr, key)` (42 R190). -/
def keyAllowed (v : Variant) (nr : Word) (key : Bits) : Bool :=
  v.desc.outBits != 0 && nr == 1 && lengthLegal v key

/-- "`nr` if present else 1" (41 R158, 10 R24). -/
def nrOrDefault (o : InitOpts) : Word := o.nr.getD 1

/-- Line 2 of 41 R157: an option that is not valid for the variant (60 R352, causes a to i). -/
def optionRefused (v : Variant) (o : InitOpts) : Bool :=
  (o.nr.isSome && (!v.md || o.nr == some 0)) ||
  (o.fn.isSome && v.desc.kind != .cshake) ||
  (o.cu.isSome && !(v.desc.kind == .cshake || v.desc.kind == .kmac)) ||
  (o.kk.isSome && v.desc.kind != .kmac) ||
  !(o.fn.all wholeBytes && o.cu.all wholeBytes && o.kk.all wholeBytes) ||
  !(o.hk.all (keyAllowed v (nrOrDefault o)))

/-- Line 3 of 41 R157: KMAC without a non-empty key (60 R353). -/
def kmacKeyMissing (v : Variant) (o : InitOpts) : Bool :=
  v.desc.kind == .kmac && (o.kk.getD []).isEmpty

/-- INIT, validation, for a known variant: the first check that fails (41 R157 lines 2 and 3, 60 R360). -/
def initCheck (v : Variant) (o : InitOpts) : Option Err :=
  if optionRefused v o then some .unsupportedOption
  else if kmacKeyMissing v o then some .missingRequiredOption
  else none

end Sys2Proof.Machine
end

