-- ==== Sys2Proof/Machine/Hmac.lean ====
section
/-!
DEFINITION. The HMAC layer (spec/42_hmac.md): key processing R191 to R193, `HmacFinal` R195, and the meanings of
SETKEY (R194) and GETHMAC (R196).
-/

namespace Sys2Proof.Machine

/-- `NormKey(d, key)` (42 R191): a key longer than a block is hashed, then zero-padded to one block. -/
def normKey (v : Variant) (key : Bits) : Option Bits :=
  if v.desc.blockBits < key.length then (oneShot v key).map fun k => padz k v.desc.blockBits
  else some (padz key v.desc.blockBits)

/-- Pad derivation (42 R192): the normalised key XOR a repeated byte. -/
def padKey (v : Variant) (c : Byte) (k0 : Bits) : Bits := xorbits k0 (rep c (v.desc.blockBits / 8))

/-- The effect of `InstallKey` once the normalised key is there (42 R193). -/
def installNormKey (k0 : Bits) (s : State) : State :=
  let inner := padKey s.var 0x36 k0
  { s.setTriple (absorb s.desc s.triple inner) with
    keyset := true
    kin := some inner
    kout := some (padKey s.var 0x5C k0) }

/-- `InstallKey(key)` (42 R193). -/
def installKey (key : Bits) (s : State) : Option State :=
  (normKey s.var key).map fun k0 => installNormKey k0 s

/-- `HmacFinal()` (42 R195) on a copy of `IS`, `REM`, `PLEN`, with the value of `KOUT`. -/
def hmacFinal (v : Variant) (t : Triple) (kout : Bits) : Option Bits :=
  (finalize v.desc t v.desc.outBits false).bind fun inner =>
    finalize v.desc (absorb v.desc (absorb v.desc (freshTriple v) kout) inner) v.desc.outBits false

/-- The response of a finalize command on a keyed session (42 R196, R197). -/
def keyedAnswer (s : State) : Result :=
  match s.kout with
  | some kout => answer (hmacFinal s.var s.triple kout) s
  | none => .fault .koutHasNoValue

/-- SETKEY (42 R194). -/
def execSetKey (key : Bits) (s : State) : Result :=
  if s.phase = .idle then failWith .invalidState s
  else if !keyAllowed s.var s.nr key then failWith .unsupportedOption s
  else if s.upd || s.keyset then failWith .invalidState s
  else
    match installKey key s with
    | some s' => succeed s'
    | none => .refused .mdLengthOverflow

/-- GETHMAC (42 R196): `NoKeySet` before the output length. -/
def execGetHmac (len : Option Word) (s : State) : Result :=
  if s.phase = .idle then failWith .invalidState s
  else if !s.keyset then failWith .noKeySet s
  else
    match outLen s.desc len with
    | none => failWith .unsupportedOutputLength s
    | some _ => keyedAnswer s

end Sys2Proof.Machine
end

