-- ==== Sys2Proof/Machine/Engine.lean ====
section
/-!
DEFINITION. UPDATE (spec/41_incremental_engine.md R159) and GETHASH (R160 to R162, spec/42_hmac.md R197).
-/

namespace Sys2Proof.Machine

/-- `Absorb(bits)` on the registers (41 R151). -/
def absorbRegs (input : Bits) (s : State) : State := s.setTriple (absorb s.desc s.triple input)

/-- UPDATE (41 R159). -/
def execUpdate (data : Bits) (s : State) : Result :=
  if s.phase = .idle then failWith .invalidState s
  else if !lengthLegal s.var data then failWith .invalidState s
  else succeed (absorbRegs data s).markUpdated

/-- The output of GETHASH on a session without a key: the finalize of a copy, then `NR − 1` further rounds
(41 R160, R162). -/
def plainOutput (s : State) (L : Nat) : Option Bits :=
  (finalize s.desc s.triple L s.csf).bind (iterate s.var (s.nr.toNat - 1))

/-- GETHASH (41 R160); with a key installed the value is that of GETHMAC (42 R197). -/
def execGetHash (len : Option Word) (s : State) : Result :=
  if s.phase = .idle then failWith .invalidState s
  else
    match outLen s.desc len with
    | none => failWith .unsupportedOutputLength s
    | some L => if s.keyset then keyedAnswer s else answer (plainOutput s L) s

end Sys2Proof.Machine
end

