-- ==== Sys2Proof/Machine/Init.lean ====
section
/-!
DEFINITION. INIT (spec/41_incremental_engine.md R157, R158), the CSHAKE and KMAC prefixes (spec/47_cshake_kmac.md
R324, R326), and one meaning per INIT row of the opcode table.
-/

namespace Sys2Proof.Machine

/-- The registers a successful INIT writes before any prefix or key (41 R158); `KIN` and `KOUT` then hold no value. -/
def startSession (v : Variant) (o : InitOpts) (s : State) : State :=
  { s with
    phase := .fresh
    var := v
    nr := nrOrDefault o
    upd := false
    keyset := false
    csf := csfAtInit v o
    is := newState v
    rem := []
    plen := some 0
    kin := none
    kout := none }

/-- What INIT absorbs before any user input, in order (47 R324, R326, R330); nothing where there is nothing to frame. -/
def prefixInputs (v : Variant) (o : InitOpts) : List Bits :=
  match v.desc.kind with
  | .cshake =>
    if csfAtInit v o then [cshakeFrame (o.fn.getD []) (o.cu.getD []) v.desc.blockBits] else []
  | .kmac =>
    [cshakeFrame kmacName (o.cu.getD []) v.desc.blockBits, kmacKeyFrame (o.kk.getD []) v.desc.blockBits]
  | .md => []
  | .sha3 => []
  | .shake => []

/-- `CSHAKE.PREFIX` and `KMAC.PREFIX`: the absorptions of `prefixInputs` (47 R324, R326). -/
def absorbPrefix (v : Variant) (o : InitOpts) (s : State) : State :=
  s.setTriple ((prefixInputs v o).foldl (absorb v.desc) s.triple)

/-- INIT, effect (41 R158); `none` only where a long key cannot be hashed (43 R214). -/
def initEffect (v : Variant) (o : InitOpts) (s : State) : Option State :=
  let s' := absorbPrefix v o (startSession v o s)
  match o.hk with
  | none => some s'
  | some key => installKey key s'

/-- INIT of a known variant: the checks, then the writes (41 R157, R158). -/
def initVariant (v : Variant) (o : InitOpts) (s : State) : Result :=
  match initCheck v o with
  | some e => failWith e s
  | none =>
    match initEffect v o s with
    | some s' => succeed s'
    | none => .refused .mdLengthOverflow

/-- INIT.SHA1 (41 R158). -/
def execInitSha1 (o : InitOpts) (s : State) : Result := initVariant .sha1 o s
/-- INIT.SHA224 (41 R158). -/
def execInitSha224 (o : InitOpts) (s : State) : Result := initVariant .sha224 o s
/-- INIT.SHA256 (41 R158). -/
def execInitSha256 (o : InitOpts) (s : State) : Result := initVariant .sha256 o s
/-- INIT.SHA384 (41 R158). -/
def execInitSha384 (o : InitOpts) (s : State) : Result := initVariant .sha384 o s
/-- INIT.SHA512 (41 R158). -/
def execInitSha512 (o : InitOpts) (s : State) : Result := initVariant .sha512 o s
/-- INIT.SHA3_224 (41 R158). -/
def execInitSha3_224 (o : InitOpts) (s : State) : Result := initVariant .sha3_224 o s
/-- INIT.SHA3_256 (41 R158). -/
def execInitSha3_256 (o : InitOpts) (s : State) : Result := initVariant .sha3_256 o s
/-- INIT.SHA3_384 (41 R158). -/
def execInitSha3_384 (o : InitOpts) (s : State) : Result := initVariant .sha3_384 o s
/-- INIT.SHA3_512 (41 R158). -/
def execInitSha3_512 (o : InitOpts) (s : State) : Result := initVariant .sha3_512 o s
/-- INIT.SHAKE128 (41 R158). -/
def execInitShake128 (o : InitOpts) (s : State) : Result := initVariant .shake128 o s
/-- INIT.SHAKE256 (41 R158). -/
def execInitShake256 (o : InitOpts) (s : State) : Result := initVariant .shake256 o s
/-- INIT.CSHAKE128 (41 R158, 47 R324). -/
def execInitCshake128 (o : InitOpts) (s : State) : Result := initVariant .cshake128 o s
/-- INIT.CSHAKE256 (41 R158, 47 R324). -/
def execInitCshake256 (o : InitOpts) (s : State) : Result := initVariant .cshake256 o s
/-- INIT.KMAC128 (41 R158, 47 R326). -/
def execInitKmac128 (o : InitOpts) (s : State) : Result := initVariant .kmac128 o s
/-- INIT.KMAC256 (41 R158, 47 R326). -/
def execInitKmac256 (o : InitOpts) (s : State) : Result := initVariant .kmac256 o s
/-- INIT.UNKNOWN (60 R351): the packet is consumed whole, `UnsupportedVariant`, whatever the options. -/
def execInitUnknown (_var : Byte) (_o : InitOpts) (s : State) : Result := failWith .unsupportedVariant s

end Sys2Proof.Machine
end

