-- ==== Sys2Proof/Machine/Dispatch.lean ====
section
/-!
DEFINITION. One arm per constructor of `Instr`.
-/

namespace Sys2Proof.Machine

-- INIT, one arm per row of the opcode table; then the four other commands.
def exec (i : Instr) (s : State) : Host.Outcome State Fault Refusal :=
  match i with
  | .initSha1 o => Sys2Proof.Machine.execInitSha1 o s
  | .initSha224 o => Sys2Proof.Machine.execInitSha224 o s
  | .initSha256 o => Sys2Proof.Machine.execInitSha256 o s
  | .initSha384 o => Sys2Proof.Machine.execInitSha384 o s
  | .initSha512 o => Sys2Proof.Machine.execInitSha512 o s
  | .initSha3_224 o => Sys2Proof.Machine.execInitSha3_224 o s
  | .initSha3_256 o => Sys2Proof.Machine.execInitSha3_256 o s
  | .initSha3_384 o => Sys2Proof.Machine.execInitSha3_384 o s
  | .initSha3_512 o => Sys2Proof.Machine.execInitSha3_512 o s
  | .initShake128 o => Sys2Proof.Machine.execInitShake128 o s
  | .initShake256 o => Sys2Proof.Machine.execInitShake256 o s
  | .initCshake128 o => Sys2Proof.Machine.execInitCshake128 o s
  | .initCshake256 o => Sys2Proof.Machine.execInitCshake256 o s
  | .initKmac128 o => Sys2Proof.Machine.execInitKmac128 o s
  | .initKmac256 o => Sys2Proof.Machine.execInitKmac256 o s
  | .initUnknown var o => Sys2Proof.Machine.execInitUnknown var o s
  | .update data => Sys2Proof.Machine.execUpdate data s
  | .getHash len => Sys2Proof.Machine.execGetHash len s
  | .getHmac len => Sys2Proof.Machine.execGetHmac len s
  | .setKey key => Sys2Proof.Machine.execSetKey key s

end Sys2Proof.Machine
end

