-- ==== Sys2Proof/Machine/Step.lean ====
section
/-!
DEFINITION. One step: take the next complete command packet, run it to completion, emit one response
(spec/00_scope.md R6, spec/20_memory.md R74, spec/30_encoding.md R101, R102).
-/

namespace Sys2Proof.Machine

/-- The engine's only step. -/
def step (s : State) : Host.Outcome State Fault Refusal :=
  match fetch s with
  | .cmd c rest => exec c (takePacket rest s)
  | .illegal _ rest => illegalHeader rest s
  | .wait => waitForWords s

/-- `s` with the packet of an instruction of the opcode table at the front of `CMD`, where `step` fetches. -/
def State.withFetchWord (s : State) (nbits w : Nat) : State :=
  { s with cmd := tablePacket nbits w ++ s.cmd }

end Sys2Proof.Machine
end

