-- ==== Sys2Proof/Machine/System.lean ====
section
/-!
DEFINITION. Several engines (spec/20_memory.md R77, spec/60_exceptions.md R365): `n = N_ENGINES` independent copies
of the engine, each with its own `CMD`, `RSP` and registers. `N_ENGINES` is OPEN (spec/92_eei_decisions.md D27) and
is the parameter of the type.
-/

namespace Sys2Proof.Machine

/-- `n` engines. -/
structure System (n : Nat) where
  engines : Vector State n
deriving DecidableEq, Repr

/-- Engine `k` takes one step; `none` where it has no next state. -/
def System.step {n : Nat} (sys : System n) (k : Fin n) : Option (System n) :=
  match Machine.step sys.engines[k] with
  | .next t => some ⟨sys.engines.set k t⟩
  | .fault _ => none
  | .refused _ => none

end Sys2Proof.Machine
end

