-- ==== Sys2Proof/Safety.lean ====
section
/-!
DEFINITION. The terms the claims use: the invariants of spec/10_state.md R39 with what R28 (the view of `IS`), R33 (`REM`
is empty while Fresh), R35 (`KIN`, `KOUT` hold one block each exactly when `KEYSET = 1`) and 42 R193 (a fixed-length
session that is Fresh and has no key stands where INIT put it) add; runs of several commands; the three response
shapes of spec/30_encoding.md R104 as literal words.
-/

namespace Sys2Proof.Machine

/-- The invariants of a session, `PHASE ≠ 0` (10 R39 (c), R28, R33, R35, 42 R193). -/
structure SessionInv (s : State) : Prop where
  view : s.is.family = s.desc.family
  nr_pos : 1 ≤ s.nr.toNat
  rem_short : s.rem.length < s.desc.blockBits
  plen_blocks : ∀ p ∈ s.plen, p.toNat % s.desc.blockBits = 0
  upd_phase : s.upd = true ↔ s.phase = .updating
  sponge_nr : s.var.md = false → s.nr = 1
  sponge_bytes : s.var.md = false → s.rem.length % 8 = 0
  key_variant : s.keyset = true → s.desc.hmac = true ∧ s.nr = 1 ∧ s.desc.blockBits ≤ counted s.plen
  key_kin : s.kin.map List.length = if s.keyset then some s.desc.blockBits else none
  key_kout : s.kout.map List.length = if s.keyset then some s.desc.blockBits else none
  csf_kind : s.csf = true → s.desc.kind = .cshake ∨ s.desc.kind = .kmac
  kmac_csf : s.desc.kind = .kmac → s.csf = true
  fresh_rem : s.phase = .fresh → s.rem = []
  fresh_start : s.phase = .fresh → s.keyset = false → s.desc.outBits ≠ 0 → s.is = newState s.var ∧ s.plen = some 0

/-- The invariant of the engine: a session is sound; Idle asks nothing of the registers (10 R39 (b)). -/
def EngineInv (s : State) : Prop := s.phase ≠ .idle → SessionInv s

/-- The total length of everything absorbed fits the length field of an MD variant (43 R214), which it does not where `PLEN`
holds no value (log entry 3); the sponge variants have no limit (70 R398). -/
def LengthFits (s : State) : Prop := s.var.md = true → s.triple.total < 2 ^ Desc.fieldBits s.desc

/-! ### Runs -/

/-- Commands executed one after another, each on the state the one before left (20 R74). -/
def runCommands : List Instr → State → Result
  | [], s => .next s
  | i :: is, s =>
    match exec i s with
    | .next t => runCommands is t
    | .fault f => .fault f
    | .refused r => .refused r

/-- A host that appends words and lets the engine step, over and over. -/
def hostRun : List (List Word) → State → Result
  | [], s => .next s
  | ws :: more, s =>
    match step (hostSend ws s) with
    | .next t => hostRun more t
    | .fault f => .fault f
    | .refused r => .refused r

/-- What a host can see of a result: the words of `RSP`, or that the machine stopped and why (10 R40). -/
def observed : Result → Host.Outcome (List Word) Fault Refusal
  | .next s => .next s.rsp
  | .fault f => .fault f
  | .refused r => .refused r

/-! ### The response shapes (30 R104) -/

/-- The state with the response `0x00000000` appended, nothing else changed. -/
def afterOk (s : State) : State := { s with rsp := s.rsp ++ [0x00000000] }

/-- The state with the response `0x00010000`, length word, data words appended, nothing else changed. -/
def afterBits (out : Bits) (s : State) : State :=
  { s with rsp := s.rsp ++ 0x00010000 :: BitVec.ofNat 32 out.length :: payloadWords out }

/-- The state with the response `0x800000cc` appended, nothing else changed. -/
def afterError (code : Byte) (s : State) : State := { s with rsp := s.rsp ++ [0x800000#24 ++ code] }

end Sys2Proof.Machine
end

