-- ==== Sys2Proof/Certificates/Slice0/Obligations.lean ====
section
/-!
DEFINITION. The statements for the provers. A reference `41 R151` means rule R151 of the file of spec/ whose number
is 41. `afterOk`, `afterBits`, `afterError` (Safety.lean) change `RSP` and nothing else, so a conclusion written
with them is also the frame of the instruction.
-/

open Sys2Proof Sys2Proof.Machine

/-! ### Reset and invariants -/

/-- 70 R390: after a reset the phase is Idle, both streams are empty and the two key registers hold no value. That
reset is an event between steps is the model's reading (log entry 10). -/
def Obligations.ResetLeavesIdleAndEmptyStreams : Prop :=
  ∀ (k : Nat) (s : State),
    (resetEvent k s).phase = .idle ∧ (resetEvent k s).cmd = [] ∧ (resetEvent k s).rsp = [] ∧
      (resetEvent k s).kin = none ∧ (resetEvent k s).kout = none ∧ State.reset = resetEvent 0 s

/-- 10 R39: the invariant holds after every reset, and what the host does to the streams keeps it. -/
def Obligations.InvariantHoldsAfterReset : Prop :=
  EngineInv State.reset ∧ (∀ k s, EngineInv (resetEvent k s)) ∧
    ∀ s, EngineInv s → (∀ ws, EngineInv (hostSend ws s)) ∧ ∀ n, EngineInv (hostReceive n s).2

/-- 10 R39: the invariant holds "after every command, successful or failed". -/
def Obligations.InvariantKeptByEveryStep : Prop :=
  ∀ s t : State, EngineInv s → step s = .next t → EngineInv t

/-- 10 R41: "in Idle the only command that succeeds is INIT", INIT reads no register and writes them all, so "no
observable result depends on" what the registers hold after reset (93 U2). Two engines that are Idle, with the same
words in their streams and anything in the registers, show the same words, or stop alike, whatever the host sends. -/
def Obligations.RegistersAfterResetAreNotObservable : Prop :=
  ∀ (s t : State) (script : List (List Word)), s.phase = .idle → t.phase = .idle → t.cmd = s.cmd → t.rsp = s.rsp →
    observed (hostRun script s) = observed (hostRun script t)

/-- 41 R167, 60 R371: every command terminates and nothing but an MD length overflow (43 R214) stops the engine: a
sound state whose total length fits always has a next state. While words of a packet are missing the engine "has no step"
(30 R102); that the model's step then answers the same state as its next state is the model's choice (log entry 2,
DESIGN CHOICE). -/
def Obligations.EverySoundStateHasANextState : Prop :=
  ∀ s : State, EngineInv s → (s.phase ≠ .idle → LengthFits s) → ∃ t, step s = .next t

/-- 20 R77: engines share nothing. A step of engine `k` is that engine's own step, it reads and writes no other
engine, and steps of two engines can be taken in either order. -/
def Obligations.EnginesShareNothing : Prop :=
  ∀ (n : Nat) (sys : System n) (k : Fin n),
    (∀ sys', sys.step k = some sys' →
      step sys.engines[k] = .next sys'.engines[k] ∧ ∀ j : Fin n, j ≠ k → sys'.engines[j] = sys.engines[j]) ∧
    (∀ other : System n, other.engines[k] = sys.engines[k] →
      (other.step k).map (fun t => t.engines[k]) = (sys.step k).map (fun t => t.engines[k])) ∧
    (∀ j : Fin n, j ≠ k → (sys.step k).bind (fun t => t.step j) = (sys.step j).bind (fun t => t.step k))

/-! ### Packets -/

/-- 30 R107: decoding the packet of a command gives the command back and leaves what stands behind it. -/
def Obligations.DecodeOfEncodeIsTheCommand : Prop :=
  ∀ (i : Instr) (rest : List Word), i.wellFormed = true → decode (encode i ++ rest) = .cmd i rest

/-- 30 R103, R107: every command the decoder reads is one that a packet can carry, and it occupies exactly as many
words as its own encoding, header word included. -/
def Obligations.DecodedCommandsAreWellFormed : Prop :=
  ∀ (ws rest : List Word) (i : Instr), decode ws = .cmd i rest →
    i.wellFormed = true ∧ ws.head? = (encode i).head? ∧
      ∃ packet, ws = packet ++ rest ∧ packet.length = (encode i).length

/-- 20 R62, R63, R64: where each bit of an outgoing payload stands, and that the bits beyond it are zero; an incoming
payload section is the first `n` bits of its data words, whatever the others are. -/
def Obligations.PayloadBitsStandMostSignificantFirst : Prop :=
  (∀ p : Bits, (payloadWords p).length = (p.length + 31) / 32 ∧
    ∀ i, i < 32 * (payloadWords p).length →
      ((payloadWords p).getD (i / 32) 0).getLsbD (31 - i % 32) = p.getD i false) ∧
  (∀ (n : Word) (data rest : List Word), data.length = (n.toNat + 31) / 32 →
    ∃ p : Bits, p.length = n.toNat ∧
      (∀ i, i < n.toNat → p.getD i false = (data.getD (i / 32) 0).getLsbD (31 - i % 32)) ∧
      payloadSection? (n :: (data ++ rest)) = some (p, rest) ∧
      decode (0x02000000 :: n :: (data ++ rest)) = .cmd (.update p) rest ∧
      decode (0x05000000 :: n :: (data ++ rest)) = .cmd (.setKey p) rest)

/-- 30 R109: the worked encodings. -/
def Obligations.WrittenOutWordsDecode : Prop :=
  decode [0x01000001] = .cmd (.initSha1 ⟨none, none, none, none, none⟩) [] ∧
  decode [0x02000000, 0x00000018, 0x61626300] = .cmd (.update (bitsOfBytes [0x61, 0x62, 0x63])) [] ∧
  decode [0x03000000] = .cmd (.getHash none) [] ∧
  decode [0x03010000, 0x00000100] = .cmd (.getHash (some 256)) [] ∧
  decode [0x01020003, 0x00000010, 0x0B0B0000] =
    .cmd (.initSha256 ⟨none, some (bitsOfBytes [0x0B, 0x0B]), none, none, none⟩) [] ∧
  decode [0x02000000, 0x00000005, 0x98000000] = .cmd (.update [true, false, false, true, true]) [] ∧
  decode [0x01180040, 0x00000000, 0x00000008, 0x40000000] =
    .cmd (.initKmac128 ⟨none, none, none, some [], some (bitsOfBytes [0x40])⟩) []

/-- 00 R6 (section 3), 20 R74: a step takes the next complete packet out of `CMD` and executes its command. -/
def Obligations.StepRunsTheDecodedCommand : Prop :=
  ∀ (s : State) (i : Instr) (rest : List Word), i.wellFormed = true → decode s.cmd = .cmd i rest →
    step s = exec i { s with cmd := rest }

/-- 30 R92, R100, R101, 60 R358: with a header word that has an unknown opcode or a 1 in a must-be-zero field at the
front, the step consumes that one word, changes no register and responds `0x8000007F`, in every phase; with any
other header it never does so. -/
def Obligations.IllegalHeaderConsumesOneWord : Prop :=
  ∀ (s : State) (h : Word) (ws : List Word), s.cmd = h :: ws →
    let op := h.toNat / 2 ^ 24
    let opt := h.toNat / 2 ^ 16 % 256
    let z := h.toNat / 2 ^ 8 % 256
    let var := h.toNat % 256
    let legal := (op = 1 ∧ z = 0 ∧ opt < 32) ∨ ((op = 2 ∨ op = 5) ∧ opt = 0 ∧ z = 0 ∧ var = 0) ∨
      ((op = 3 ∨ op = 4) ∧ opt < 2 ∧ z = 0 ∧ var = 0)
    (¬ legal → step s = .next (afterError 0x7F { s with cmd := ws })) ∧
      (legal → ∀ t, step s = .next t → t.rsp ≠ s.rsp ++ [0x8000007F])

/-- 30 R102: while words of its packet are missing the engine does not begin a command; nothing changes and no
response is made. That the step is then a step that changes nothing is the model's choice (log entry 2). -/
def Obligations.IncompletePacketWaits : Prop :=
  ∀ (s : State) (i : Instr) (missing : List Word), i.wellFormed = true → missing ≠ [] →
    s.cmd ++ missing = encode i → step s = .next s

/-- 20 R74: words that arrive behind a complete packet change nothing about the step that executes it. -/
def Obligations.LaterWordsDoNotDisturb : Prop :=
  ∀ (s : State) (more : List Word), decode s.cmd ≠ .wait →
    (∀ t, step s = .next t → step (hostSend more s) = .next (hostSend more t)) ∧
    (∀ f, step s = .fault f → step (hostSend more s) = .fault f) ∧
    (∀ r, step s = .refused r → step (hostSend more s) = .refused r)

/-! ### Responses and errors -/

/-- 30 R104, R105, 20 R60: "Exactly one response is appended per decoded command or illegal header", in one of the
three shapes; words leave `CMD` at the front only. -/
def Obligations.ExactlyOneResponsePerPacket : Prop :=
  ∀ s t : State, decode s.cmd ≠ .wait → step s = .next t →
    (∃ k, 0 < k ∧ t.cmd = s.cmd.drop k) ∧
    ∃ r, t.rsp = s.rsp ++ r ∧
      ((r = [0x00000000] ∧ ∀ rest len, decode s.cmd ≠ .cmd (.getHash len) rest ∧ decode s.cmd ≠ .cmd (.getHmac len) rest) ∨
        ((∃ out, r = 0x00010000 :: BitVec.ofNat 32 out.length :: payloadWords out) ∧
          ∃ rest len, decode s.cmd = .cmd (.getHash len) rest ∨ decode s.cmd = .cmd (.getHmac len) rest) ∨
        r ∈ [[0x80000001], [0x80000002], [0x80000003], [0x80000004], [0x80000005], [0x80000006], [0x8000007F]])

/-- 60 R361: when the response is an error word, the whole packet (of an illegal header: the one word) is gone from
`CMD`, that word is all that was appended to `RSP`, and no register has changed. -/
def Obligations.ErrorChangesNoRegister : Prop :=
  ∀ (s t : State) (w : Word) (r : List Word), step s = .next t → t.rsp = s.rsp ++ w :: r → w.msb = true →
    ∃ code ∈ ([0x01, 0x02, 0x03, 0x04, 0x05, 0x06, 0x7F] : List Byte), ∃ rest,
      ((∃ i, decode s.cmd = .cmd i rest) ∨ (code = 0x7F ∧ ∃ h, s.cmd = h :: rest)) ∧
        t = afterError code { s with cmd := rest }

/-- 60 R351: `UnsupportedVariant` is raised by INIT with a variant code outside the table and by nothing else; the
packet is consumed whole, options included. -/
def Obligations.UnsupportedVariantExactly : Prop :=
  (∀ (i : Instr) (s : State), exec i s = .next (afterError 0x01 s) ↔ ∃ var o, i = .initUnknown var o) ∧
  ∀ (s : State) (var : Byte) (o : InitOpts) (rest : List Word),
    var ∉ ([0x01, 0x02, 0x03, 0x04, 0x05, 0x10, 0x11, 0x12, 0x13, 0x20, 0x21, 0x30, 0x31, 0x40, 0x41] : List Byte) →
    o.wellFormed = true → s.cmd = encodeInit var o ++ rest → step s = .next (afterError 0x01 { s with cmd := rest })

/-- 60 R352: the causes a to i of `UnsupportedOption`, and that there is no other. -/
def Obligations.UnsupportedOptionExactly : Prop :=
  let md : List Variant := [.sha1, .sha224, .sha256, .sha384, .sha512]
  let sha3 : List Variant := [.sha3_224, .sha3_256, .sha3_384, .sha3_512]
  let cshake : List Variant := [.cshake128, .cshake256]
  let kmac : List Variant := [.kmac128, .kmac256]
  (∀ (v : Variant) (o : InitOpts) (s : State), exec (initInstr v o) s = .next (afterError 0x02 s) ↔
    (o.nr ≠ none ∧ v ∉ md) ∨ o.nr = some 0 ∨ (o.fn ≠ none ∧ v ∉ cshake) ∨ (o.cu ≠ none ∧ v ∉ cshake ++ kmac) ∨
      (o.kk ≠ none ∧ v ∉ kmac) ∨
      (∃ b, (o.fn = some b ∨ o.cu = some b ∨ o.kk = some b) ∧ b.length % 8 ≠ 0) ∨
      (∃ key, o.hk = some key ∧
        (v ∉ md ++ sha3 ∨ (o.nr ≠ none ∧ o.nr ≠ some 1) ∨ (v ∈ sha3 ∧ key.length % 8 ≠ 0)))) ∧
  (∀ (key : Bits) (s : State), exec (.setKey key) s = .next (afterError 0x02 s) ↔
    s.phase ≠ .idle ∧ (s.var ∉ md ++ sha3 ∨ s.nr ≠ 1 ∨ (s.var ∈ sha3 ∧ key.length % 8 ≠ 0))) ∧
  (∀ (i : Instr) (s : State), exec i s = .next (afterError 0x02 s) →
    (∃ v o, i = initInstr v o) ∨ ∃ key, i = .setKey key)

/-- 60 R353: `MissingRequiredOption` is raised by INIT of a KMAC variant without a non-empty key, where nothing asks for
`UnsupportedOption` (R360), and by nothing else. -/
def Obligations.MissingRequiredOptionExactly : Prop :=
  ∀ (i : Instr) (s : State), exec i s = .next (afterError 0x03 s) ↔
    ∃ o, (i = .initKmac128 o ∨ i = .initKmac256 o) ∧ (o.kk = none ∨ o.kk = some []) ∧
      o.nr = none ∧ o.hk = none ∧ o.fn = none ∧ ∀ b, o.cu = some b → b.length % 8 = 0

/-- 60 R354: the causes a to d of `InvalidState`, and that there is no other; SETKEY looks at the key first (R360). -/
def Obligations.InvalidStateExactly : Prop :=
  let md : List Variant := [.sha1, .sha224, .sha256, .sha384, .sha512]
  let sha3 : List Variant := [.sha3_224, .sha3_256, .sha3_384, .sha3_512]
  ∀ (i : Instr) (s : State), exec i s = .next (afterError 0x04 s) ↔
    (∃ data, i = .update data ∧ (s.phase = .idle ∨ (s.var ∉ md ∧ data.length % 8 ≠ 0))) ∨
    (∃ key, i = .setKey key ∧ (s.phase = .idle ∨
      ((s.upd = true ∨ s.keyset = true) ∧ s.nr = 1 ∧ (s.var ∈ md ∨ (s.var ∈ sha3 ∧ key.length % 8 = 0))))) ∨
    (∃ len, (i = .getHash len ∨ i = .getHmac len) ∧ s.phase = .idle)

/-- 60 R355: the causes a to d of `UnsupportedOutputLength`, and that there is no other. -/
def Obligations.UnsupportedOutputLengthExactly : Prop :=
  ∀ (i : Instr) (s : State), exec i s = .next (afterError 0x05 s) ↔
    ∃ len : Option Word, (i = .getHash len ∨ (i = .getHmac len ∧ s.keyset = true)) ∧ s.phase ≠ .idle ∧
      (if s.desc.outBits ≠ 0 then ∃ n, len = some n ∧ n.toNat ≠ s.desc.outBits
        else len = none ∨ ∃ n, len = some n ∧ (n = 0 ∨ n.toNat % 8 ≠ 0))

/-- 60 R356: `NoKeySet` is raised by GETHMAC in a session without an HMAC key and by nothing else. -/
def Obligations.NoKeySetExactly : Prop :=
  ∀ (i : Instr) (s : State), exec i s = .next (afterError 0x06 s) ↔
    (∃ len, i = .getHmac len) ∧ s.phase ≠ .idle ∧ s.keyset = false

/-! ### Phases and frames -/

/-- 41 R150: the transitions of `PHASE` are exactly those of the table. -/
def Obligations.PhaseTransitionsAreTheTable : Prop :=
  (∀ k s, (resetEvent k s).phase = .idle) ∧
  (∀ s t : State, (∀ i rest, decode s.cmd ≠ .cmd i rest) → step s = .next t → t.phase = s.phase) ∧
  ∀ (i : Instr) (s t : State), EngineInv s → exec i s = .next t →
    if t.rsp = s.rsp ++ [0x00000000] then
      ((∃ v o, i = initInstr v o) ∧ t.phase = .fresh) ∨
      ((∃ data, i = .update data) ∧ (s.phase = .fresh ∨ s.phase = .updating) ∧ t.phase = .updating) ∨
      ((∃ key, i = .setKey key) ∧ s.phase = .fresh ∧ t.phase = .fresh)
    else t.phase = s.phase

/-- 10 R40: the registers each command may write; every other register and `CMD` keep their values, and what was
in `RSP` stays in front. -/
def Obligations.EachCommandWritesOnlyItsRegisters : Prop :=
  ∀ s t : State,
    (∀ data, exec (.update data) s = .next t → t =
      { s with phase := t.phase, upd := t.upd, is := t.is, rem := t.rem, plen := t.plen, rsp := t.rsp }) ∧
    (∀ key, exec (.setKey key) s = .next t → t =
      { s with keyset := t.keyset, is := t.is, rem := t.rem, plen := t.plen, kin := t.kin, kout := t.kout,
               rsp := t.rsp }) ∧
    (∀ len, exec (.getHash len) s = .next t → t = { s with rsp := t.rsp }) ∧
    (∀ len, exec (.getHmac len) s = .next t → t = { s with rsp := t.rsp }) ∧
    (∀ var o, exec (.initUnknown var o) s = .next t → t = { s with rsp := t.rsp }) ∧
    (∀ v o, exec (initInstr v o) s = .next t → t.cmd = s.cmd ∧
      (t.rsp ≠ s.rsp ++ [0x00000000] → t = { s with rsp := t.rsp })) ∧
    (∀ i, exec i s = .next t → s.rsp <+: t.rsp)

/-- 41 R158: INIT "replaces the session entirely; nothing of the old session survives": a successful INIT leaves the
same registers whatever the registers were. -/
def Obligations.InitForgetsTheOldSession : Prop :=
  ∀ (v : Variant) (o : InitOpts) (s s' t : State), exec (initInstr v o) s = .next t →
    t.rsp = s.rsp ++ [0x00000000] →
    exec (initInstr v o) { s' with cmd := s.cmd, rsp := s.rsp } = .next t

/-! ### INIT -/

/-- 41 R158 with 43 R215, 44 R240, R241, 45 R260, R261: INIT of a Merkle–Damgård variant without a key. -/
def Obligations.InitOfMdVariantLoadsItsInitialState : Prop :=
  ∀ (o : InitOpts) (s : State), o.nr ≠ some 0 → o.hk = none → o.fn = none → o.cu = none → o.kk = none →
    let started := fun (v : Variant) (is : IS) => afterOk
      { s with phase := .fresh, var := v, nr := o.nr.getD 1, upd := false, keyset := false, csf := false, is := is,
               rem := [], plen := some 0, kin := none, kout := none }
    exec (.initSha1 o) s = .next (started .sha1
      (.sha1 ⟨0x67452301, 0xEFCDAB89, 0x98BADCFE, 0x10325476, 0xC3D2E1F0⟩)) ∧
    exec (.initSha224 o) s = .next (started .sha224
      (.sha256 ⟨0xC1059ED8, 0x367CD507, 0x3070DD17, 0xF70E5939, 0xFFC00B31, 0x68581511, 0x64F98FA7, 0xBEFA4FA4⟩)) ∧
    exec (.initSha256 o) s = .next (started .sha256
      (.sha256 ⟨0x6A09E667, 0xBB67AE85, 0x3C6EF372, 0xA54FF53A, 0x510E527F, 0x9B05688C, 0x1F83D9AB, 0x5BE0CD19⟩)) ∧
    exec (.initSha384 o) s = .next (started .sha384
      (.sha512 ⟨0xcbbb9d5dc1059ed8, 0x629a292a367cd507, 0x9159015a3070dd17, 0x152fecd8f70e5939,
        0x67332667ffc00b31, 0x8eb44a8768581511, 0xdb0c2e0d64f98fa7, 0x47b5481dbefa4fa4⟩)) ∧
    exec (.initSha512 o) s = .next (started .sha512
      (.sha512 ⟨0x6a09e667f3bcc908, 0xbb67ae8584caa73b, 0x3c6ef372fe94f82b, 0xa54ff53a5f1d36f1,
        0x510e527fade682d1, 0x9b05688c2b3e6c1f, 0x1f83d9abfb41bd6b, 0x5be0cd19137e2179⟩))

/-- 41 R158, R153 with 46 R296: INIT of a SHA3 or SHAKE variant without a key: all twenty-five lanes zero. -/
def Obligations.InitOfSha3OrShakeClearsTheLanes : Prop :=
  ∀ (o : InitOpts) (s : State), o.nr = none → o.hk = none → o.fn = none → o.cu = none → o.kk = none →
    let started := fun v : Variant => afterOk
      { s with phase := .fresh, var := v, nr := 1, upd := false, keyset := false, csf := false,
               is := .keccak (Lanes.of fun _ _ => 0), rem := [], plen := some 0, kin := none, kout := none }
    exec (.initSha3_224 o) s = .next (started .sha3_224) ∧ exec (.initSha3_256 o) s = .next (started .sha3_256) ∧
    exec (.initSha3_384 o) s = .next (started .sha3_384) ∧ exec (.initSha3_512 o) s = .next (started .sha3_512) ∧
    exec (.initShake128 o) s = .next (started .shake128) ∧ exec (.initShake256 o) s = .next (started .shake256)

/-- 47 R324: INIT of a CSHAKE variant. With both strings empty (absent or of zero length) nothing is absorbed and
`CSF` is 0; else (for strings a packet can carry, 70 R398) the framing string is absorbed, a whole number of blocks, `REM` is empty, `PLEN` is the number of
bits absorbed, `CSF` is 1; `UPD` stays 0. -/
def Obligations.InitOfCshakeAbsorbsTheFraming : Prop :=
  ∀ (o : InitOpts) (s : State), o.nr = none → o.hk = none → o.kk = none → (o.fn.getD []).length % 8 = 0 →
    (o.cu.getD []).length % 8 = 0 → (o.fn.getD []).length < 2 ^ 32 → (o.cu.getD []).length < 2 ^ 32 →
    let N := o.fn.getD []
    let S := o.cu.getD []
    let started := fun (v : Variant) (csf : Bool) (A : Lanes) (absorbed : Nat) => afterOk
      { s with phase := .fresh, var := v, nr := 1, upd := false, keyset := false, csf := csf, is := .keccak A,
               rem := [], plen := some (BitVec.ofNat 128 absorbed), kin := none, kout := none }
    let zero := Lanes.of fun _ _ => 0
    (N = [] ∧ S = [] → exec (.initCshake128 o) s = .next (started .cshake128 false zero 0) ∧
      exec (.initCshake256 o) s = .next (started .cshake256 false zero 0)) ∧
    (¬ (N = [] ∧ S = []) →
      (∃ blocks : List Bits, (∀ b ∈ blocks, b.length = 1344) ∧
        blocks.flatten = bytepad (encodeString N ++ encodeString S) 168 ∧
        exec (.initCshake128 o) s =
          .next (started .cshake128 true (blocks.foldl spongeAbsorb zero) (1344 * blocks.length))) ∧
      (∃ blocks : List Bits, (∀ b ∈ blocks, b.length = 1088) ∧
        blocks.flatten = bytepad (encodeString N ++ encodeString S) 136 ∧
        exec (.initCshake256 o) s =
          .next (started .cshake256 true (blocks.foldl spongeAbsorb zero) (1088 * blocks.length))))

/-- 47 R326, R327: INIT of a KMAC variant absorbs the framing string with the function name "KMAC" (`4B 4D 41 43`),
then the key string (strings a packet can carry, 70 R398); both are whole numbers of blocks; `CSF` is 1; the key is kept in no register. -/
def Obligations.InitOfKmacAbsorbsFramingAndKey : Prop :=
  ∀ (o : InitOpts) (K : Bits) (s : State), o.nr = none → o.hk = none → o.fn = none → o.kk = some K → K ≠ [] →
    K.length % 8 = 0 → (o.cu.getD []).length % 8 = 0 → K.length < 2 ^ 32 → (o.cu.getD []).length < 2 ^ 32 →
    let S := o.cu.getD []
    let name := bitsOfBytes [0x4B, 0x4D, 0x41, 0x43]
    let started := fun (v : Variant) (A : Lanes) (absorbed : Nat) => afterOk
      { s with phase := .fresh, var := v, nr := 1, upd := false, keyset := false, csf := true, is := .keccak A,
               rem := [], plen := some (BitVec.ofNat 128 absorbed), kin := none, kout := none }
    let zero := Lanes.of fun _ _ => 0
    (∃ frame key : List Bits, (∀ b ∈ frame ++ key, b.length = 1344) ∧
      frame.flatten = bytepad (encodeString name ++ encodeString S) 168 ∧
      key.flatten = bytepad (encodeString K) 168 ∧
      exec (.initKmac128 o) s =
        .next (started .kmac128 (key.foldl spongeAbsorb (frame.foldl spongeAbsorb zero))
          (1344 * (frame.length + key.length)))) ∧
    (∃ frame key : List Bits, (∀ b ∈ frame ++ key, b.length = 1088) ∧
      frame.flatten = bytepad (encodeString name ++ encodeString S) 136 ∧
      key.flatten = bytepad (encodeString K) 136 ∧
      exec (.initKmac256 o) s =
        .next (started .kmac256 (key.foldl spongeAbsorb (frame.foldl spongeAbsorb zero))
          (1088 * (frame.length + key.length))))

/-- 42 R194, Equivalence: "`init V; setkey K` leaves the same registers as `init V hmackey=K`", on the nine variants
that admit a key; the former answers two times Ok, the latter once. -/
def Obligations.InitWithHmacKeyIsInitThenSetKey : Prop :=
  ∀ (v : Variant) (o : InitOpts) (key : Bits) (s : State), v.desc.outBits ≠ 0 → o.nr = none ∨ (v.md = true ∧ o.nr = some 1) →
    o.hk = none → o.fn = none → o.cu = none → o.kk = none → (v.md = true ∨ key.length % 8 = 0) → key.length < 2 ^ 32 →
    ∃ t u : State, runCommands [initInstr v o, .setKey key] s = .next t ∧
      exec (initInstr v { o with hk := some key }) s = .next u ∧
      u.rsp = s.rsp ++ [0x00000000] ∧ t = { u with rsp := s.rsp ++ [0x00000000, 0x00000000] }

/-! ### SETKEY and UPDATE -/

/-- 42 R191, R192, R193: SETKEY in a Fresh session that admits a key and has none: the key is brought to one block (hashed
first if longer than a block), the two pads are derived from it, the inner one is absorbed as exactly one block. -/
def Obligations.SetKeyInstallsThePads : Prop :=
  ∀ (key : Bits) (s : State), EngineInv s → s.phase = .fresh → s.keyset = false → s.nr = 1 → s.desc.outBits ≠ 0 →
    (s.var.md = true ∨ key.length % 8 = 0) → key.length < 2 ^ 32 →
    let B := s.desc.blockBits
    ∃ k0 : Bits, k0.length = B ∧
      (key.length ≤ B → k0 = key ++ List.replicate (B - key.length) false) ∧
      (B < key.length → ∃ k, oneShot s.var key = some k ∧ k.length = s.desc.outBits ∧
        k0 = k ++ List.replicate (B - k.length) false) ∧
      exec (.setKey key) s = .next (afterOk
        { s with keyset := true
                 kin := some (xorbits k0 (rep 0x36 (B / 8)))
                 kout := some (xorbits k0 (rep 0x5C (B / 8)))
                 is := round (newState s.var) (xorbits k0 (rep 0x36 (B / 8)))
                 rem := []
                 plen := some (BitVec.ofNat 128 B) })

/-- 41 R159, R151: UPDATE in a session, with a payload of a length the variant admits: `REM` and the payload together
are cut into blocks, the blocks go through the round function in order, the rest stays in `REM`. What `counterAdd` does to
`PLEN` is the next statement. -/
def Obligations.UpdateAbsorbsThePayload : Prop :=
  ∀ (data : Bits) (s : State), s.phase ≠ .idle → (s.var.md = true ∨ data.length % 8 = 0) →
    let cut := takeBlocks (s.rem ++ data) s.desc.blockBits
    exec (.update data) s = .next (afterOk
      { s with phase := .updating, upd := true, is := cut.1.foldl round s.is, rem := cut.2,
               plen := counterAdd s.plen (cut.1.length * s.desc.blockBits) })

/-- 10 R34, R33, 41 R151: `PLEN + |REM|` is the total message length; `PLEN` grows by whole blocks; `REM` is shorter than a
block and the tail of what came in. 128 bits hold `PLEN` (00 R5, R11); that the counter holds no value once the sum does
not fit them, and that UPDATE answers Ok then too, is the model's choice (log entry 3). -/
def Obligations.UpdateCountsEveryBit : Prop :=
  ∀ (data : Bits) (s t : State), exec (.update data) s = .next t → t.rsp = s.rsp ++ [0x00000000] →
    ∃ n, n % t.desc.blockBits = 0 ∧ t.rem = (s.rem ++ data).drop n ∧ t.rem.length < t.desc.blockBits ∧
      (∀ p, s.plen = some p → p.toNat + n < 2 ^ 128 → ∃ q, t.plen = some q ∧ q.toNat = p.toNat + n ∧
        q.toNat + t.rem.length = p.toNat + s.rem.length + data.length) ∧
      (∀ p, s.plen = some p → 2 ^ 128 ≤ p.toNat + n → t.plen = none) ∧ (s.plen = none → t.plen = none)

/-- 41 R164, chunking invariance: the registers after UPDATE of the chunks are those after one UPDATE of their
concatenation, so every later response is the same; with no chunk at all, against UPDATE of the empty string, `IS`,
`REM`, `PLEN` agree and `UPD`, `PHASE` need not. -/
def Obligations.ChunkingDoesNotMatter : Prop :=
  (∀ (s : State) (cs : List Bits), cs ≠ [] → s.phase ≠ .idle → (∀ c ∈ cs, s.var.md = true ∨ c.length % 8 = 0) →
    ∃ t u : State, runCommands (cs.map .update) s = .next t ∧ exec (.update cs.flatten) s = .next u ∧
      t = { u with rsp := t.rsp } ∧
      ∀ (later : List Instr) (t' : State), runCommands later t = .next t' →
        ∃ (u' : State) (responses : List Word), runCommands later u = .next u' ∧ t'.rsp = t.rsp ++ responses ∧
          u'.rsp = u.rsp ++ responses) ∧
  (∀ s : State, EngineInv s → s.phase ≠ .idle → ∃ u, exec (.update []) s = .next u ∧
    u.is = s.is ∧ u.rem = s.rem ∧ u.plen = s.plen ∧ u.upd = true ∧ u.phase = .updating)

/-! ### GETHASH and GETHMAC -/

/-- 41 R163, R160, 42 R196: on a fixed-length variant, with the length absent or equal to the variant's own, GETHASH
answers exactly `d.outBits` bits, and so does GETHMAC when a key is installed; every other explicit length fails with
`UnsupportedOutputLength`. -/
def Obligations.FixedLengthOutputHasItsLength : Prop :=
  ∀ s : State, EngineInv s → s.phase ≠ .idle → s.desc.outBits ≠ 0 → LengthFits s →
    (∀ len : Option Word, len = none ∨ len = some (BitVec.ofNat 32 s.desc.outBits) →
      (∃ out : Bits, out.length = s.desc.outBits ∧ exec (.getHash len) s = .next (afterBits out s)) ∧
      (s.keyset = true →
        ∃ out : Bits, out.length = s.desc.outBits ∧ exec (.getHmac len) s = .next (afterBits out s))) ∧
    (∀ n : Word, n ≠ BitVec.ofNat 32 s.desc.outBits →
      exec (.getHash (some n)) s = .next (afterError 0x05 s) ∧
      (s.keyset = true → exec (.getHmac (some n)) s = .next (afterError 0x05 s)))

/-- 41 R160, R156: on a variable-length variant GETHASH with a positive multiple of 8 answers exactly that many bits. -/
def Obligations.VariableLengthOutputHasTheRequestedLength : Prop :=
  ∀ (s : State) (n : Word), EngineInv s → s.phase ≠ .idle → s.desc.outBits = 0 → n ≠ 0 → n.toNat % 8 = 0 →
    ∃ out : Bits, out.length = n.toNat ∧ exec (.getHash (some n)) s = .next (afterBits out s)

/-- 43 R211 to R213, 41 R160: the answer of a session INIT, UPDATE, ..., UPDATE, GETHASH of a Merkle–Damgård variant is the
digest of the initial state sent through all blocks of the padded message: the message, a 1, the fewest zeros, the
length in `F` bits. -/
def Obligations.MdSessionHashesThePaddedMessage : Prop :=
  ∀ (v : Variant) (o : InitOpts) (cs : List Bits) (s : State) (zeroBits : Nat), v.md = true →
    o.nr = none ∨ o.nr = some 1 → o.hk = none → o.fn = none → o.cu = none → o.kk = none →
    let m := cs.flatten
    let B := v.desc.blockBits
    let F := if v = .sha384 ∨ v = .sha512 then 128 else 64
    m.length < 2 ^ F → (m.length + 1 + zeroBits + F) % B = 0 → zeroBits < B →
    let padded := m ++ [true] ++ List.replicate zeroBits false ++ bitsBE (BitVec.ofNat F m.length)
    ∃ t, runCommands (initInstr v o :: cs.map .update) s = .next t ∧
      exec (.getHash none) t =
        .next (afterBits (digest v.desc ((takeBlocks padded B).1.foldl round (newState v))) t)

/-- 47 R330 with 46 R291 to R294: everything a sponge session absorbs, in order, from the zero state: the framing (CSHAKE
with something to frame, KMAC), the key string (KMAC), the user data, the output length (KMAC), the padding that fills
the last block: the delimiter byte, zero bytes, `0x80` in the last byte. The framing and the key string each end on a
block boundary. -/
def Obligations.SpongeSessionAbsorbsInOrder : Prop :=
  ∀ (v : Variant) (o : InitOpts) (cs : List Bits) (s : State) (len : Option Word) (L : Nat), v.md = false →
    o.nr = none → o.hk = none → (v.desc.kind ≠ .cshake → o.fn = none) →
    (v.desc.kind ≠ .cshake → v.desc.kind ≠ .kmac → o.cu = none) → (v.desc.kind ≠ .kmac → o.kk = none) →
    (v.desc.kind = .kmac → o.kk.getD [] ≠ []) →
    (∀ b ∈ [o.fn.getD [], o.cu.getD [], o.kk.getD []] ++ cs, b.length % 8 = 0) →
    (if v.desc.outBits ≠ 0 then len = none ∧ L = v.desc.outBits
      else ∃ n, len = some n ∧ n.toNat = L ∧ 0 < L ∧ L % 8 = 0) →
    let r := v.desc.blockBits
    let N := o.fn.getD []
    let S := o.cu.getD []
    let name := bitsOfBytes [0x4B, 0x4D, 0x41, 0x43]
    let framed := v.desc.kind = .kmac ∨ (v.desc.kind = .cshake ∧ ¬ (N = [] ∧ S = []))
    let front : List Bits :=
      if v.desc.kind = .kmac then
        [bytepad (encodeString name ++ encodeString S) (r / 8), bytepad (encodeString (o.kk.getD [])) (r / 8)]
      else if framed then [bytepad (encodeString N ++ encodeString S) (r / 8)] else []
    let whole := front.flatten ++ cs.flatten ++ (if v.desc.kind = .kmac then rightEncode L else [])
    let delim : Byte := if framed then 0x04 else if v.desc.kind = .sha3 then 0x06 else 0x1F
    let free := r / 8 - whole.length / 8 % (r / 8)
    let padBytes : List Byte :=
      if free = 1 then [delim ^^^ 0x80] else delim :: (List.replicate (free - 2) 0 ++ [0x80])
    (∀ b ∈ front, b.length % r = 0) ∧
    ∃ t, runCommands (initInstr v o :: cs.map .update) s = .next t ∧
      exec (.getHash len) t = .next (afterBits
        (squeeze ((takeBlocks (whole ++ bitsOfBytes padBytes) r).1.foldl spongeAbsorb (Lanes.of fun _ _ => 0)) r L) t)

/-- 41 R162: with `NR = n + 1` GETHASH answers the hash of what it answers with `NR = n`, taken as a complete new
message. -/
def Obligations.EachFurtherRoundRehashesTheDigest : Prop :=
  ∀ (s : State) (n : Word) (out : Bits), EngineInv s → s.phase ≠ .idle → s.var.md = true → s.keyset = false → 1 ≤ n.toNat →
    n.toNat + 1 < 2 ^ 32 → out.length = s.desc.outBits →
    exec (.getHash none) { s with nr := n } = .next (afterBits out { s with nr := n }) →
    ∃ out', oneShot s.var out = some out' ∧
      exec (.getHash none) { s with nr := n + 1 } = .next (afterBits out' { s with nr := n + 1 })

/-- 42 R198: on every variant that admits a key, GETHMAC answers `Hash((K0 ^ opad) ‖ Hash((K0 ^ ipad) ‖ m))`; under a key
longer than a block it answers what it answers under the hash of that key. -/
def Obligations.HmacIsTheTwoPassConstruction : Prop :=
  ∀ (v : Variant) (K m : Bits) (s : State), v.desc.outBits ≠ 0 →
    (v.md = true ∨ (K.length % 8 = 0 ∧ m.length % 8 = 0)) → K.length < 2 ^ 32 →
    (v.md = true → v.desc.blockBits + m.length < 2 ^ (if v = .sha384 ∨ v = .sha512 then 128 else 64)) →
    let B := v.desc.blockBits
    let plain : InitOpts := ⟨none, none, none, none, none⟩
    ∃ (k0 inner out : Bits) (t : State), k0.length = B ∧
      (K.length ≤ B → k0 = K ++ List.replicate (B - K.length) false) ∧
      (B < K.length → ∃ k, oneShot v K = some k ∧ k0 = k ++ List.replicate (B - k.length) false) ∧
      runCommands [initInstr v plain, .setKey K, .update m] s = .next t ∧
      oneShot v (xorbits k0 (rep 0x36 (B / 8)) ++ m) = some inner ∧
      oneShot v (xorbits k0 (rep 0x5C (B / 8)) ++ inner) = some out ∧
      exec (.getHmac none) t = .next (afterBits out t) ∧
      (B < K.length → ∃ (k : Bits) (t' : State), oneShot v K = some k ∧
        runCommands [initInstr v plain, .setKey k, .update m] s = .next t' ∧
        exec (.getHmac none) t' = .next (afterBits out t'))

/-- 42 R197: with a key installed GETHASH answers what GETHMAC answers. -/
def Obligations.GetHashWithAKeyIsGetHmac : Prop :=
  ∀ (s : State) (len : Option Word), s.phase ≠ .idle → s.keyset = true →
    exec (.getHash len) s = exec (.getHmac len) s

/-- 41 R165: a finalize, successful or not, writes no register; the same finalize again gives the same response; and no
later response is changed by it. -/
def Obligations.FinalizeIsNonDestructive : Prop :=
  ∀ (i : Instr) (s t : State), (∃ len, i = .getHash len ∨ i = .getHmac len) → exec i s = .next t →
    t = { s with rsp := t.rsp } ∧
    ∃ response, t.rsp = s.rsp ++ response ∧ exec i t = .next { t with rsp := t.rsp ++ response } ∧
      ∀ (later : List Instr) (s' : State), runCommands later s = .next s' →
        ∃ responses, s'.rsp = s.rsp ++ responses ∧
          runCommands later t = .next { s' with rsp := t.rsp ++ responses }

/-- 43 R214: a finalize of an MD variant whose total length `T` does not fit the length field is refused, whatever the
output length asked for that the variant has: in every sound session, by `PLEN + |REM|`, and after INIT (and SETKEY) and
any number of UPDATE commands, by the number of bits of the message itself, inner key block included. -/
def Obligations.LengthOverflowIsRefused : Prop :=
  let limit := fun v : Variant => if v = .sha384 ∨ v = .sha512 then 2 ^ 128 else 2 ^ 64
  (∀ (s : State) (p : BitVec 128) (len : Option Word), EngineInv s → s.phase ≠ .idle → s.var.md = true →
    s.plen = some p → limit s.var ≤ p.toNat + s.rem.length →
    len = none ∨ len = some (BitVec.ofNat 32 s.desc.outBits) →
    exec (.getHash len) s = .refused .mdLengthOverflow ∧
      (s.keyset = true → exec (.getHmac len) s = .refused .mdLengthOverflow)) ∧
  (∀ (v : Variant) (cs : List Bits) (s : State) (len : Option Word), v.md = true →
    len = none ∨ len = some (BitVec.ofNat 32 v.desc.outBits) →
    let plain : InitOpts := ⟨none, none, none, none, none⟩
    (limit v ≤ cs.flatten.length → ∃ t, runCommands (initInstr v plain :: cs.map .update) s = .next t ∧
      exec (.getHash len) t = .refused .mdLengthOverflow) ∧
    (∀ K : Bits, K.length < 2 ^ 32 → limit v ≤ v.desc.blockBits + cs.flatten.length →
      ∃ t, runCommands (initInstr v plain :: .setKey K :: cs.map .update) s = .next t ∧
        exec (.getHash len) t = .refused .mdLengthOverflow ∧ exec (.getHmac len) t = .refused .mdLengthOverflow))

/-- 46 R295, for SHAKE and CSHAKE: the output for a length is the front of the output for every longer length. -/
def Obligations.ShorterOutputIsAPrefix : Prop :=
  ∀ (s : State) (n n' : Word), EngineInv s → s.phase ≠ .idle →
    s.var ∈ ([.shake128, .shake256, .cshake128, .cshake256] : List Variant) →
    n ≠ 0 → n.toNat % 8 = 0 → n'.toNat % 8 = 0 → n.toNat < n'.toNat →
    ∃ out out' : Bits, exec (.getHash (some n)) s = .next (afterBits out s) ∧
      exec (.getHash (some n')) s = .next (afterBits out' s) ∧ out.length = n.toNat ∧ out'.length = n'.toNat ∧
      out = out'.take n.toNat

/-- 47 R325: a CSHAKE session whose two strings are empty answers every command as the SHAKE session of the same strength;
when either string is non-empty `CSF` is 1, which selects the delimiter `0x04`. -/
def Obligations.CshakeWithNothingToFrameIsShake : Prop :=
  (∀ (o : InitOpts) (s : State) (later : List Instr), o.nr = none → o.hk = none → o.kk = none →
    o.fn.getD [] = [] → o.cu.getD [] = [] →
    let plain : InitOpts := ⟨none, none, none, none, none⟩
    observed (runCommands (.initCshake128 o :: later) s) = observed (runCommands (.initShake128 plain :: later) s) ∧
    observed (runCommands (.initCshake256 o :: later) s) = observed (runCommands (.initShake256 plain :: later) s)) ∧
  (∀ (o : InitOpts) (s t : State), ¬ (o.fn.getD [] = [] ∧ o.cu.getD [] = []) →
    exec (.initCshake128 o) s = .next t ∨ exec (.initCshake256 o) s = .next t → t.rsp = s.rsp ++ [0x00000000] →
    t.csf = true ∧ delimiter t.desc.kind t.csf = 0x04)

/-! ### The units -/

/-- 40 R132: the postconditions of `takeBlocks`, which leave it no other result, and its corner cases. -/
def Obligations.TakeBlocksCutsWholeBlocks : Prop :=
  ∀ (buffer : Bits) (B : Nat), 0 < B →
    (∀ (blocks : List Bits) (rest : Bits), takeBlocks buffer B = (blocks, rest) ↔
      blocks.flatten ++ rest = buffer ∧ (∀ b ∈ blocks, b.length = B) ∧ rest.length < B) ∧
    (takeBlocks buffer B).1.length = buffer.length / B ∧ (takeBlocks buffer B).2.length = buffer.length % B ∧
    (buffer.length < B → takeBlocks buffer B = ([], buffer)) ∧
    (buffer.length % B = 0 → (takeBlocks buffer B).2 = [])

/-- 20 R65, R66, 40 R133, R134: bit by bit, the big-endian words of an MD block and the little-endian lanes of a sponge
block. -/
def Obligations.BlocksArePackedInTheirByteOrder : Prop :=
  (∀ (w : Nat) (M : Bits), M.length = 16 * w → (convBE w M).length = 16 ∧
    ∀ t j, t < 16 → j < w → ((convBE w M).getD t 0).getMsbD j = M.getD (w * t + j) false) ∧
  (∀ P : Bits, P.length % 64 = 0 → (convLE P).length = P.length / 64 ∧
    ∀ i j b, i < P.length / 64 → j < 8 → b < 8 →
      ((convLE P).getD i 0).getLsbD (8 * j + (7 - b)) = P.getD (64 * i + 8 * j + b) false)

/-- 00 R8: what each bit of a rotation is. -/
def Obligations.RotationsMoveEveryBit : Prop :=
  ∀ (w : Nat) (v : BitVec w) (n i : Nat), n < w → i < w →
    (rotl v n).getLsbD ((i + n) % w) = v.getLsbD i ∧ (rotr v n).getLsbD i = v.getLsbD ((i + n) % w)

/-- 43 R211: the padding is the remainder, a 1, the smallest number of zeros that fills the last block, the length; one
block when `|R| + 1 + F ≤ B`, two otherwise. -/
def Obligations.MdPaddingIsMinimal : Prop :=
  ∀ (R : Bits) (T B F : Nat), R.length < B → F < B →
    ∃ k, mdPad R T B F = R ++ [true] ++ List.replicate k false ++ bitsBE (BitVec.ofNat F T) ∧
      (R.length + 1 + k + F) % B = 0 ∧ (∀ j, j < k → (R.length + 1 + j + F) % B ≠ 0) ∧
      (mdPad R T B F).length = if R.length + 1 + F ≤ B then B else 2 * B

/-- 43 R213: which words the digest keeps. -/
def Obligations.DigestKeepsTheLeftmostWords : Prop :=
  (∀ h0 h1 h2 h3 h4 : Word, digest Variant.sha1.desc (.sha1 ⟨h0, h1, h2, h3, h4⟩) =
    bitsBE h0 ++ bitsBE h1 ++ bitsBE h2 ++ bitsBE h3 ++ bitsBE h4) ∧
  (∀ h0 h1 h2 h3 h4 h5 h6 h7 : BitVec 32,
    digest Variant.sha224.desc (.sha256 ⟨h0, h1, h2, h3, h4, h5, h6, h7⟩) =
      bitsBE h0 ++ bitsBE h1 ++ bitsBE h2 ++ bitsBE h3 ++ bitsBE h4 ++ bitsBE h5 ++ bitsBE h6 ∧
    digest Variant.sha256.desc (.sha256 ⟨h0, h1, h2, h3, h4, h5, h6, h7⟩) =
      bitsBE h0 ++ bitsBE h1 ++ bitsBE h2 ++ bitsBE h3 ++ bitsBE h4 ++ bitsBE h5 ++ bitsBE h6 ++ bitsBE h7) ∧
  (∀ h0 h1 h2 h3 h4 h5 h6 h7 : BitVec 64,
    digest Variant.sha384.desc (.sha512 ⟨h0, h1, h2, h3, h4, h5, h6, h7⟩) =
      bitsBE h0 ++ bitsBE h1 ++ bitsBE h2 ++ bitsBE h3 ++ bitsBE h4 ++ bitsBE h5 ∧
    digest Variant.sha512.desc (.sha512 ⟨h0, h1, h2, h3, h4, h5, h6, h7⟩) =
      bitsBE h0 ++ bitsBE h1 ++ bitsBE h2 ++ bitsBE h3 ++ bitsBE h4 ++ bitsBE h5 ++ bitsBE h6 ++ bitsBE h7)

/-- 43 R218, 44 R244, 45 R264: the three message schedules, by index. -/
def Obligations.SchedulesFollowTheirRecurrences : Prop :=
  (∀ M : List Word, M.length = 16 →
    let W := fun t => (sha1Schedule M).getD t 0
    (sha1Schedule M).length = 80 ∧ (∀ t, t < 16 → W t = M.getD t 0) ∧
      ∀ t, 16 ≤ t → t < 80 → W t = rotl (W (t - 3) ^^^ W (t - 8) ^^^ W (t - 14) ^^^ W (t - 16)) 1) ∧
  (∀ M : List (BitVec 32), M.length = 16 →
    let W := fun t => (sha256Schedule M).getD t 0
    (sha256Schedule M).length = 64 ∧ (∀ t, t < 16 → W t = M.getD t 0) ∧
      ∀ t, 16 ≤ t → t < 64 →
        W t = sha256SmallSigma1 (W (t - 2)) + W (t - 7) + sha256SmallSigma0 (W (t - 15)) + W (t - 16)) ∧
  (∀ M : List (BitVec 64), M.length = 16 →
    let W := fun t => (sha512Schedule M).getD t 0
    (sha512Schedule M).length = 80 ∧ (∀ t, t < 16 → W t = M.getD t 0) ∧
      ∀ t, 16 ≤ t → t < 80 →
        W t = sha512SmallSigma1 (W (t - 2)) + W (t - 7) + sha512SmallSigma0 (W (t - 15)) + W (t - 16))

/-- 46 R287: one inner round of the permutation written in one piece, with temporaries `C`, `D`, `B`, and with the lane
permutation in its other form (R284). -/
def Obligations.KeccakRoundInOnePiece : Prop :=
  ∀ (A : Lanes) (RC : Lane) (C D : Fin 5 → Lane) (B : Fin 5 → Fin 5 → Lane),
    (∀ x, C x = A.get x 0 ^^^ A.get x 1 ^^^ A.get x 2 ^^^ A.get x 3 ^^^ A.get x 4) →
    (∀ x, D x = C (x - 1) ^^^ rotl (C (x + 1)) 1) →
    (∀ x y, B y (2 * x + 3 * y) = rotl (A.get x y ^^^ D x) (rhoOffset x y)) →
    ∀ x y, (keccakRound A RC).get x y =
      (B x y ^^^ (~~~B (x + 1) y &&& B (x + 2) y)) ^^^ (if x = 0 ∧ y = 0 then RC else 0)

/-- 46 R283, R286: the two tables of the permutation follow their generating rules: the walk `(x, y) ← (y, 2x + 3y)` with
`(t+1)(t+2)/2 mod 64`, and the linear feedback shift register `x^8 + x^6 + x^5 + x^4 + 1` started at 1. -/
def Obligations.KeccakTablesFollowTheirGeneratingRules : Prop :=
  let walk := fun t : Nat => (fun p : Fin 5 × Fin 5 => (p.2, 2 * p.1 + 3 * p.2))^[t] (1, 0)
  let lfsr := fun t : Nat =>
    (fun s : BitVec 9 => if (s <<< 1).getLsbD 8 then (s <<< 1) ^^^ 0x171 else s <<< 1)^[t] 1
  rhoOffset 0 0 = 0 ∧
  (∀ t, t < 24 → rhoOffset (walk t).1 (walk t).2 = (t + 1) * (t + 2) / 2 % 64) ∧
  roundConstants.length = 24 ∧
  ∀ ir b, ir < 24 → b < 64 → (roundConstants.getD ir 0).getLsbD b =
    ((List.range 7).any fun j => b == 2 ^ j - 1 && (lfsr (j + 7 * ir)).getLsbD 0)

/-- 46 R288: the permutation "is a bijection on 1600-bit states", and the all-zero state does not stay zero. -/
def Obligations.KeccakFIsABijection : Prop :=
  Function.Bijective keccakF ∧ keccakF (Lanes.of fun _ _ => 0) ≠ Lanes.of fun _ _ => 0

/-- 46 R290, R281, 40 R134: absorbing a block of `r` bits is XOR of the block into the first `r` bits of the byte form of the
state, then the permutation; the capacity is not touched by the XOR. -/
def Obligations.AbsorbXorsTheBlockIntoTheRate : Prop :=
  ∀ (A : Lanes) (P : Bits), P.length % 64 = 0 → P.length ≤ 1600 →
    ∃ X : Lanes, spongeAbsorb A P = keccakF X ∧
      stateBits X = xorbits ((stateBits A).take P.length) P ++ (stateBits A).drop P.length ∧
      ∀ x y : Fin 5, P.length / 64 ≤ x.val + 5 * y.val → X.get x y = A.get x y

/-- 46 R292: the sponge padding fills exactly one block: the remainder, the delimiter byte, zero bytes, `0x80` in the
last byte, the two in one byte where only one is free. -/
def Obligations.SpongePaddingFillsOneBlock : Prop :=
  ∀ (R : Bits) (r : Nat) (delim : Byte), R.length % 8 = 0 → r % 8 = 0 → R.length < r →
    (spongePad R r delim).length = r ∧
    (R.length + 8 = r → spongePad R r delim = R ++ bitsBE (delim ^^^ 0x80)) ∧
    (R.length + 8 < r → spongePad R r delim =
      R ++ bitsBE delim ++ List.replicate (r - R.length - 16) false ++ bitsBE (0x80 : Byte))

/-- 46 R294: the squeeze, block by block: the first `L` bits of the rate parts of the state, of its permutation, of the
permutation of that, and so on. -/
def Obligations.SqueezeEmitsRatePartsInTurn : Prop :=
  ∀ (S : Lanes) (r L : Nat), 0 < r → r ≤ 1600 →
    (squeeze S r L).length = L ∧
    ∀ i, i < L → (squeeze S r L).getD i false = (stateBits (keccakF^[i / r] S)).getD (i % r) false

/-- 47 R320, R321: `left_encode` and `right_encode`: the smallest number `n ≥ 1` of bytes that hold `x`, those bytes most
significant first, the count byte in front or behind. -/
def Obligations.LengthEncodingsAreMinimal : Prop :=
  ∀ x : Nat, x < 2 ^ 2040 →
    ∃ (n : Nat) (value : List Byte), 1 ≤ n ∧ x < 2 ^ (8 * n) ∧ (∀ k, 1 ≤ k → x < 2 ^ (8 * k) → n ≤ k) ∧
      value.length = n ∧ intBE (bitsOfBytes value) = x ∧ n < 256 ∧
      leftEncode x = bitsOfBytes (BitVec.ofNat 8 n :: value) ∧
      rightEncode x = bitsOfBytes (value ++ [BitVec.ofNat 8 n])

/-- 00 R12, 47 R322: `encode_string` makes framing unambiguous: what follows a string cannot be taken for a part of it. -/
def Obligations.EncodedStringsAreUnambiguous : Prop :=
  ∀ a b x y : Bits, a.length < 2 ^ 2040 → b.length < 2 ^ 2040 →
    encodeString a ++ x = encodeString b ++ y → a = b ∧ x = y

/-- 47 R323: `bytepad` is `left_encode(w) ‖ X` and the fewest zero bytes that make the length a multiple of `w` bytes. -/
def Obligations.BytepadAddsTheFewestZeroBytes : Prop :=
  ∀ (X : Bits) (w : Nat), 0 < w → X.length % 8 = 0 →
    ∃ n, bytepad X w = leftEncode w ++ X ++ List.replicate (8 * n) false ∧
      (bytepad X w).length % (8 * w) = 0 ∧
      ∀ j, j < n → ((leftEncode w ++ X).length + 8 * j) % (8 * w) ≠ 0
end

