-- ==== Sys2Proof/Laws/BitBuffer.lean ====
section
/-!
SUPPORT. What the conversions between words, bytes and bit strings and the Bit Buffer unit do
(spec/00_scope.md R7 to R9, spec/40_bit_buffer.md).
-/

namespace Sys2Proof

/-! ### Lengths -/

@[simp] theorem length_bitsBE {w : Nat} (v : BitVec w) : (bitsBE v).length = w := by simp [bitsBE]

@[simp] theorem length_zeros (k : Nat) : (zeros k).length = k := by simp [zeros]

theorem length_padz (b : Bits) (n : Nat) : (padz b n).length = max b.length n := by
  simp [padz]; omega

theorem length_xorbits (a b : Bits) : (xorbits a b).length = min a.length b.length := by simp [xorbits]

theorem length_flatMap_bitsBE {w : Nat} (l : List (BitVec w)) : (l.flatMap bitsBE).length = w * l.length := by
  induction l with
  | nil => simp
  | cons a l ih => simp [ih, Nat.mul_add, Nat.add_comm]

@[simp] theorem length_bitsOfBytes (B : List Byte) : (bitsOfBytes B).length = 8 * B.length :=
  length_flatMap_bitsBE B

@[simp] theorem length_wordsBits (ws : List Word) : (wordsBits ws).length = 32 * ws.length :=
  length_flatMap_bitsBE ws

@[simp] theorem length_rep (c : Byte) (n : Nat) : (rep c n).length = 8 * n := by simp [rep]

theorem le_mul_ceilDiv (n k : Nat) (hk : 0 < k) : n ≤ k * ceilDiv n k := by
  unfold ceilDiv
  have := Nat.div_add_mod (n + (k - 1)) k
  have := Nat.mod_lt (n + (k - 1)) hk
  omega

theorem ceilDiv_mul_lt (n k : Nat) (hk : 0 < k) : k * ceilDiv n k < n + k := by
  unfold ceilDiv
  have := Nat.div_mul_le_self (n + (k - 1)) k
  rw [Nat.mul_comm]; omega

@[simp] theorem length_payloadWords (p : Bits) : (payloadWords p).length = ceilDiv p.length 32 := by
  simp [payloadWords]

/-! ### Bits and integers -/

theorem intBE_append_singleton (b : Bits) (x : Bool) : intBE (b ++ [x]) = 2 * intBE b + x.toNat := by
  simp [intBE]

theorem intBE_lt (b : Bits) : intBE b < 2 ^ b.length := by
  induction b using List.reverseRecOn with
  | nil => simp [intBE]
  | append_singleton b x ih =>
    rw [intBE_append_singleton, List.length_append, List.length_singleton, Nat.pow_succ]
    cases x <;> simp <;> omega

/-- Bit `i` from the front of a string is bit `|b| − 1 − i` of its integer. -/
theorem testBit_intBE (b : Bits) (i : Nat) (h : i < b.length) :
    (intBE b).testBit (b.length - 1 - i) = b[i] := by
  induction b using List.reverseRecOn with
  | nil => simp at h
  | append_singleton b x ih =>
    rw [intBE_append_singleton]
    simp only [List.length_append, List.length_singleton] at h ⊢
    by_cases hi : i < b.length
    · have e : b.length + 1 - 1 - i = (b.length - 1 - i) + 1 := by omega
      rw [e, Nat.testBit_succ, List.getElem_append_left hi, ← ih hi]
      congr 1
      cases x <;> simp
      omega
    · have hi' : i = b.length := by omega
      subst hi'
      simp
      cases x <;> simp

theorem getElem_bitsBE {w : Nat} (v : BitVec w) (i : Nat) (h : i < (bitsBE v).length) :
    (bitsBE v)[i] = v.getMsbD i := by simp [bitsBE]

/-- A bit string of `w` bits survives the way through a `w`-bit word. -/
theorem bitsBE_ofNat_intBE (w : Nat) (b : Bits) (h : b.length = w) :
    bitsBE (BitVec.ofNat w (intBE b)) = b := by
  apply List.ext_getElem (by simp [h])
  intro i h1 h2
  rw [getElem_bitsBE, BitVec.getMsbD_eq_getLsbD, BitVec.getLsbD_ofNat]
  have hw : i < w := h ▸ h2
  have hw' : w - 1 - i < w := by omega
  rw [decide_eq_true hw, decide_eq_true hw', Bool.true_and, Bool.true_and, ← testBit_intBE b i h2, h]

/-- A word survives the way through its bit string. -/
theorem ofNat_intBE_bitsBE {w : Nat} (v : BitVec w) : BitVec.ofNat w (intBE (bitsBE v)) = v := by
  apply BitVec.eq_of_getMsbD_eq
  intro i hi
  have h := bitsBE_ofNat_intBE w (bitsBE v) (length_bitsBE v)
  have hl : i < (bitsBE (BitVec.ofNat w (intBE (bitsBE v)))).length := by simpa using hi
  have hr : i < (bitsBE v).length := by simpa using hi
  rw [← getElem_bitsBE _ i hl, ← getElem_bitsBE v i hr]
  exact List.getElem_of_eq h hl

theorem intBE_bitsBE {w : Nat} (v : BitVec w) : intBE (bitsBE v) = v.toNat := by
  have h := congrArg BitVec.toNat (ofNat_intBE_bitsBE v)
  rw [BitVec.toNat_ofNat, Nat.mod_eq_of_lt] at h
  · exact h
  · simpa using intBE_lt (bitsBE v)

theorem bitsBE_injective {w : Nat} {u v : BitVec w} (h : bitsBE u = bitsBE v) : u = v := by
  rw [← ofNat_intBE_bitsBE u, h, ofNat_intBE_bitsBE]

/-! ### `BUF.TAKE` (40 R132) -/

theorem takeBlocks_short {b : Bits} {B : Nat} (h : b.length < B) : takeBlocks b B = ([], b) := by
  simp [takeBlocks, Nat.div_eq_of_lt h]

theorem takeBlocks_cons {blk buf : Bits} {B : Nat} (hB : 0 < B) (h : blk.length = B) :
    takeBlocks (blk ++ buf) B = (blk :: (takeBlocks buf B).1, (takeBlocks buf B).2) := by
  have hn : (blk ++ buf).length / B = buf.length / B + 1 := by
    rw [List.length_append, h, Nat.add_comm, Nat.add_div_right _ hB]
  have hd (i : Nat) : (blk ++ buf).drop ((i + 1) * B) = buf.drop (i * B) := by
    rw [List.drop_append, List.drop_eq_nil_of_le, List.nil_append, h]
    · congr 1; rw [Nat.add_mul]; omega
    · rw [h, Nat.add_mul]; omega
  simp only [takeBlocks, hn, List.range_succ_eq_map, List.map_cons, List.map_map, Nat.zero_mul, List.drop_zero, hd,
    Prod.mk.injEq, List.cons.injEq, and_true]
  refine ⟨?_, List.map_congr_left fun i _ => ?_⟩
  · rw [List.take_append_of_le_length (le_of_eq h.symm), List.take_of_length_le (le_of_eq h)]
  · simp only [Function.comp_apply, Nat.succ_eq_add_one, hd]

/-- `takeBlocks` is the one way to cut a buffer into whole blocks and a shorter rest. -/
theorem takeBlocks_eq {blocks : List Bits} {rest : Bits} {B : Nat} (hB : 0 < B)
    (hb : ∀ blk ∈ blocks, blk.length = B) (hr : rest.length < B) :
    takeBlocks (blocks.flatten ++ rest) B = (blocks, rest) := by
  induction blocks with
  | nil => simpa using takeBlocks_short hr
  | cons blk blocks ih =>
    have hblk := hb blk List.mem_cons_self
    have ih := ih fun x hx => hb x (List.mem_cons_of_mem _ hx)
    rw [List.flatten_cons, List.append_assoc, takeBlocks_cons hB hblk, ih]

theorem takeBlocks_spec (b : Bits) {B : Nat} (hB : 0 < B) :
    (takeBlocks b B).1.flatten ++ (takeBlocks b B).2 = b ∧
      (∀ blk ∈ (takeBlocks b B).1, blk.length = B) ∧ (takeBlocks b B).2.length < B := by
  induction hn : b.length using Nat.strongRecOn generalizing b with
  | ind n ih =>
    by_cases h : b.length < B
    · simp [takeBlocks_short h, h]
    · have hs : b = b.take B ++ b.drop B := (List.take_append_drop B b).symm
      have hl : (b.take B).length = B := by rw [List.length_take]; omega
      obtain ⟨h1, h2, h3⟩ := ih (b.drop B).length (by rw [List.length_drop]; omega) (b.drop B) rfl
      rw [hs, takeBlocks_cons hB hl]
      refine ⟨by rw [List.flatten_cons, List.append_assoc, h1], ?_, h3⟩
      intro blk hm
      rcases List.mem_cons.mp hm with rfl | hm
      · exact hl
      · exact h2 blk hm

theorem length_takeBlocks_fst (b : Bits) (B : Nat) : (takeBlocks b B).1.length = b.length / B := by
  simp [takeBlocks]

theorem length_takeBlocks_snd (b : Bits) (B : Nat) : (takeBlocks b B).2.length = b.length % B := by
  have h := Nat.div_add_mod b.length B
  rw [Nat.mul_comm] at h
  simp only [takeBlocks, List.length_drop]
  omega

/-- Cutting after an append is cutting what was there, then the rest with what was added. -/
theorem takeBlocks_append (a b : Bits) {B : Nat} (hB : 0 < B) :
    takeBlocks (a ++ b) B =
      ((takeBlocks a B).1 ++ (takeBlocks ((takeBlocks a B).2 ++ b) B).1, (takeBlocks ((takeBlocks a B).2 ++ b) B).2) := by
  obtain ⟨h1, h2, -⟩ := takeBlocks_spec a hB
  obtain ⟨g1, g2, g3⟩ := takeBlocks_spec ((takeBlocks a B).2 ++ b) hB
  have e : a ++ b = ((takeBlocks a B).1 ++ (takeBlocks ((takeBlocks a B).2 ++ b) B).1).flatten ++
      (takeBlocks ((takeBlocks a B).2 ++ b) B).2 := by
    rw [List.flatten_append, List.append_assoc, g1, ← List.append_assoc, h1]
  conv_lhs => rw [e]
  refine takeBlocks_eq hB ?_ g3
  intro blk hm
  rcases List.mem_append.mp hm with hm | hm
  · exact h2 blk hm
  · exact g2 blk hm

/-! ### Bytes -/

theorem takeBlocks_flatMap_bitsBE {w : Nat} (hw : 0 < w) (l : List (BitVec w)) (rest : Bits) (hr : rest.length < w) :
    takeBlocks (l.flatMap bitsBE ++ rest) w = (l.map bitsBE, rest) := by
  rw [List.flatMap_def]
  refine takeBlocks_eq hw ?_ hr
  intro blk hm
  obtain ⟨v, -, rfl⟩ := List.mem_map.mp hm
  exact length_bitsBE v

theorem bytes_bitsOfBytes (B : List Byte) : bytes (bitsOfBytes B) = B := by
  have h := takeBlocks_flatMap_bitsBE (w := 8) (by decide) B [] (by decide)
  rw [List.append_nil] at h
  simp only [bytes, bitsOfBytes, h, List.map_map]
  exact List.map_id'' (fun v => ofNat_intBE_bitsBE v) B

theorem bitsOfBytes_bytes (b : Bits) (h : b.length % 8 = 0) : bitsOfBytes (bytes b) = b := by
  obtain ⟨h1, h2, -⟩ := takeBlocks_spec b (B := 8) (by decide)
  have h3 : (takeBlocks b 8).2 = [] := List.eq_nil_of_length_eq_zero (by rw [length_takeBlocks_snd, h])
  rw [h3, List.append_nil] at h1
  conv_rhs => rw [← h1]
  rw [bitsOfBytes, bytes, List.flatMap_def, List.map_map]
  congr 1
  conv_rhs => rw [← List.map_id (takeBlocks b 8).1]
  exact List.map_congr_left fun x hx => bitsBE_ofNat_intBE 8 x (h2 x hx)

@[simp] theorem length_bytes (b : Bits) : (bytes b).length = b.length / 8 := by
  simp [bytes, length_takeBlocks_fst]

/-! ### Payload words (20 R62, R64) -/

theorem payloadWords_eq (p : Bits) :
    payloadWords p =
      (takeBlocks (padz p (32 * ceilDiv p.length 32)) 32).1.map fun x => BitVec.ofNat 32 (intBE x) := by
  have hle := le_mul_ceilDiv p.length 32 (by decide)
  have hq : (padz p (32 * ceilDiv p.length 32)).length / 32 = ceilDiv p.length 32 := by
    rw [length_padz, max_eq_right hle, Nat.mul_div_cancel_left _ (by decide)]
  simp only [payloadWords, takeBlocks, hq, List.map_map]
  exact List.map_congr_left fun j _ => by simp [Nat.mul_comm]

/-- The bits of the data words of a payload are the payload and then zeros. -/
theorem wordsBits_payloadWords (p : Bits) :
    wordsBits (payloadWords p) = padz p (32 * ceilDiv p.length 32) := by
  have hle := le_mul_ceilDiv p.length 32 (by decide)
  have hq : (padz p (32 * ceilDiv p.length 32)).length = 32 * ceilDiv p.length 32 := by
    rw [length_padz]; omega
  rw [payloadWords_eq]
  generalize padz p (32 * ceilDiv p.length 32) = q at hq
  obtain ⟨h1, h2, -⟩ := takeBlocks_spec q (B := 32) (by decide)
  have h3 : (takeBlocks q 32).2 = [] := List.eq_nil_of_length_eq_zero (by rw [length_takeBlocks_snd, hq]; omega)
  rw [h3, List.append_nil] at h1
  rw [wordsBits, List.flatMap_def, List.map_map]
  conv_rhs => rw [← h1, ← List.map_id (takeBlocks q 32).1]
  congr 1
  exact List.map_congr_left fun x hx => bitsBE_ofNat_intBE 32 x (h2 x hx)

theorem take_wordsBits_payloadWords (p : Bits) : (wordsBits (payloadWords p)).take p.length = p := by
  rw [wordsBits_payloadWords, padz, List.take_left']
  rfl

end Sys2Proof
end

