-- ==== Sys2Proof/Laws/Backend.lean ====
section
/-!
SUPPORT. What the block scheduler, the padding, the squeeze and the finalize do
(spec/41_incremental_engine.md R151 to R155, spec/43_md_sha1.md R211 to R214, spec/46_keccak_sponge.md R290 to R294).
-/

namespace Sys2Proof.Machine

/-! ### The descriptor table (10 R23) -/

theorem blockBits_pos (v : Variant) : 0 < v.desc.blockBits := by cases v <;> decide
theorem blockBits_mod8 (v : Variant) : v.desc.blockBits % 8 = 0 := by cases v <;> rfl
theorem blockBits_le (v : Variant) : v.desc.blockBits ≤ 1344 := by cases v <;> decide
theorem outBits_lt_blockBits (v : Variant) : v.desc.outBits < v.desc.blockBits := by cases v <;> decide
theorem outBits_mod8 (v : Variant) : v.desc.outBits % 8 = 0 := by cases v <;> rfl
theorem hmac_iff (v : Variant) : v.desc.hmac = true ↔ v.desc.outBits ≠ 0 := by cases v <;> decide
theorem md_iff (v : Variant) : v.md = true ↔ v.desc.kind = .md := by cases v <;> decide

/-! ### The counter (10 R34) -/

theorem counterOf_eq_some {n : Nat} (h : n < 2 ^ 128) : counterOf n = some (BitVec.ofNat 128 n) := if_pos h

@[simp] theorem counted_some (p : BitVec 128) : counted (some p) = p.toNat := rfl
@[simp] theorem counted_none : counted none = 2 ^ 128 := rfl

@[simp] theorem counterOf_zero : counterOf 0 = some 0 := rfl

theorem counterAdd_some (p : BitVec 128) (n : Nat) : counterAdd (some p) n = counterOf (p.toNat + n) := rfl
/-- Counting from the start of a session. -/
@[simp] theorem counterAdd_some_zero (n : Nat) : counterAdd (some 0) n = counterOf n :=
  congrArg counterOf (Nat.zero_add n)

@[simp] theorem counterAdd_none (n : Nat) : counterAdd none n = none := rfl

theorem counted_counterOf (n : Nat) : counted (counterOf n) = min n (2 ^ 128) := by
  unfold counterOf
  split
  · rw [counted_some, BitVec.toNat_ofNat]; omega
  · rw [counted_none]; omega

/-- The counter counts until 128 bits are full, and stays full: it does not wrap. -/
theorem counted_counterAdd (c : Counter) (n : Nat) : counted (counterAdd c n) = min (counted c + n) (2 ^ 128) := by
  cases c with
  | none => rw [counterAdd_none, counted_none]; omega
  | some p => exact counted_counterOf _

@[simp] theorem counterAdd_zero (c : Counter) : counterAdd c 0 = c := by
  cases c with
  | none => rfl
  | some p => rw [counterAdd_some, Nat.add_zero, counterOf_eq_some p.isLt, BitVec.ofNat_toNat, BitVec.setWidth_eq]

theorem counterAdd_counterOf (n m : Nat) : counterAdd (counterOf n) m = counterOf (n + m) := by
  by_cases h : n < 2 ^ 128
  · rw [counterOf_eq_some h, counterAdd_some, BitVec.toNat_ofNat, Nat.mod_eq_of_lt h]
  · rw [counterOf, if_neg h, counterOf, if_neg (by omega)]; rfl

theorem counterAdd_counterAdd (c : Counter) (n m : Nat) : counterAdd (counterAdd c n) m = counterAdd c (n + m) := by
  cases c with
  | none => rfl
  | some p => rw [counterAdd_some, counterAdd_counterOf, counterAdd_some, Nat.add_assoc]

theorem counted_le (c : Counter) : counted c ≤ 2 ^ 128 := by
  cases c with
  | none => exact le_rfl
  | some p => exact p.isLt.le

theorem counted_le_counterAdd (c : Counter) (n : Nat) : counted c ≤ counted (counterAdd c n) := by
  rw [counted_counterAdd]
  exact le_min (Nat.le_add_right _ _) (counted_le c)

/-- What the counter holds after an addition, if it holds a value. -/
theorem counterAdd_eq_some {c : Counter} {n : Nat} {q : BitVec 128} (h : counterAdd c n = some q) :
    ∃ p, c = some p ∧ q.toNat = p.toNat + n := by
  obtain ⟨p, rfl, hp⟩ := Option.bind_eq_some_iff.mp h
  refine ⟨p, rfl, ?_⟩
  unfold counterOf at hp
  split at hp
  · rw [← Option.some.inj hp, BitVec.toNat_ofNat]; omega
  · cases hp

/-! ### `Absorb` (41 R151) -/

theorem rounds_append (S : IS) (a b : List Bits) : rounds S (a ++ b) = rounds (rounds S a) b := by
  simp [rounds]

theorem family_round (S : IS) (blk : Bits) : (round S blk).family = S.family := by
  cases S <;> simp only [round, IS.family]

theorem family_rounds (S : IS) (blocks : List Bits) : (rounds S blocks).family = S.family := by
  induction blocks generalizing S with
  | nil => rfl
  | cons b bs ih => exact (ih (round S b)).trans (family_round S b)

theorem family_absorb (d : Desc) (t : Triple) (b : Bits) : (absorb d t b).is.family = t.is.family :=
  family_rounds _ _

theorem family_newState (v : Variant) : (newState v).family = v.desc.family := by cases v <;> rfl

/-- Absorbing two strings one after the other is absorbing them together (41 R164). -/
theorem absorb_append {d : Desc} (hB : 0 < d.blockBits) (t : Triple) (a b : Bits) :
    absorb d (absorb d t a) b = absorb d t (a ++ b) := by
  have h := takeBlocks_append (t.rem ++ a) b hB
  simp only [absorb, append, ← List.append_assoc, h, rounds_append, List.length_append, Nat.add_mul,
    counterAdd_counterAdd]

theorem absorb_nil {d : Desc} {t : Triple} (h : t.rem.length < d.blockBits) : absorb d t [] = t := by
  simp [absorb, append, takeBlocks_short h, rounds]

theorem absorb_foldl {d : Desc} (hB : 0 < d.blockBits) (t : Triple) (h : t.rem.length < d.blockBits)
    (cs : List Bits) : cs.foldl (absorb d) t = absorb d t cs.flatten := by
  induction cs generalizing t with
  | nil => simp [absorb_nil h]
  | cons c cs ih =>
    rw [List.foldl_cons, ih _ (by simpa [absorb, length_takeBlocks_snd] using Nat.mod_lt _ hB), absorb_append hB,
      List.flatten_cons]

theorem absorb_rem_length (d : Desc) (t : Triple) (b : Bits) :
    (absorb d t b).rem.length = (t.rem.length + b.length) % d.blockBits := by
  simp [absorb, append, length_takeBlocks_snd]

theorem absorb_rem_lt {d : Desc} (hB : 0 < d.blockBits) (t : Triple) (b : Bits) :
    (absorb d t b).rem.length < d.blockBits := by
  rw [absorb_rem_length]; exact Nat.mod_lt _ hB

theorem absorb_plen (d : Desc) (t : Triple) (b : Bits) :
    (absorb d t b).plen = counterAdd t.plen ((t.rem.length + b.length) / d.blockBits * d.blockBits) := by
  simp [absorb, append, length_takeBlocks_fst]

/-- The total below the capacity of the counter grows by what is absorbed, and does not fall below it. -/
theorem absorb_total_lt (d : Desc) (t : Triple) (b : Bits) {n : Nat} (hn : n ≤ 2 ^ 128) :
    (absorb d t b).total < n ↔ t.total + b.length < n := by
  have := Nat.div_add_mod (t.rem.length + b.length) d.blockBits
  rw [Nat.mul_comm] at this
  simp only [Triple.total, absorb_plen, absorb_rem_length, counted_counterAdd]
  omega

theorem absorb_total {d : Desc} {t : Triple} {b : Bits} (h : t.total + b.length < 2 ^ 128) :
    (absorb d t b).total = t.total + b.length := by
  have := Nat.div_add_mod (t.rem.length + b.length) d.blockBits
  rw [Nat.mul_comm] at this
  simp only [Triple.total, absorb_plen, absorb_rem_length, counted_counterAdd] at *
  omega

theorem absorb_plen_mod {d : Desc} (t : Triple) (b : Bits) (h : ∀ p ∈ t.plen, p.toNat % d.blockBits = 0) :
    ∀ p ∈ (absorb d t b).plen, p.toNat % d.blockBits = 0 := by
  intro q hq
  rw [absorb_plen, Option.mem_def] at hq
  obtain ⟨p, hp, hv⟩ := counterAdd_eq_some hq
  rw [hv, Nat.add_mod, h p hp, Nat.mul_mod_left, Nat.zero_mod]

/-- A string of whole blocks, absorbed when nothing waits, leaves nothing waiting. -/
theorem absorb_whole {d : Desc} {t : Triple} {b : Bits} (hr : t.rem = []) (h : b.length % d.blockBits = 0) :
    absorb d t b = ⟨rounds t.is (takeBlocks b d.blockBits).1, [], counterAdd t.plen b.length⟩ := by
  have h2 : (takeBlocks b d.blockBits).2 = [] :=
    List.eq_nil_of_length_eq_zero (by rw [length_takeBlocks_snd, h])
  have h3 := Nat.div_add_mod b.length d.blockBits
  rw [h, Nat.add_zero, Nat.mul_comm] at h3
  simp [absorb, append, hr, h2, length_takeBlocks_fst, h3]

theorem absorb_one_block {d : Desc} {t : Triple} {b : Bits} (hB : 0 < d.blockBits) (hr : t.rem = [])
    (h : b.length = d.blockBits) : absorb d t b = ⟨round t.is b, [], counterAdd t.plen d.blockBits⟩ := by
  have h1 := takeBlocks_cons (buf := []) hB h
  have h2 : takeBlocks [] d.blockBits = ([], []) := takeBlocks_short hB
  rw [List.append_nil, h2] at h1
  rw [absorb_whole hr (by rw [h, Nat.mod_self]), h1, h]
  rfl

theorem absorb_short {d : Desc} {t : Triple} {b : Bits} (hr : t.rem = []) (h : b.length < d.blockBits) :
    absorb d t b = ⟨t.is, b, t.plen⟩ := by
  simp [absorb, append, hr, takeBlocks_short h, rounds]

/-! ### The Merkle–Damgård finalize -/

theorem length_viewBits (S : IS) :
    (viewBits S).length = match S.family with | .sha1 => 160 | .sha256 => 256 | .sha512 => 512 | .keccak => 1600 := by
  cases S with
  | sha1 H => simp [viewBits, IS.family]
  | sha256 H => simp [viewBits, IS.family, Eight.toList]
  | sha512 H => simp [viewBits, IS.family, Eight.toList]
  | keccak A => simp [viewBits, IS.family, stateBits, stateBytes, Lanes.toList, Row.toList, laneBytes]

theorem length_digest {v : Variant} {S : IS} (h : S.family = v.desc.family) :
    (digest v.desc S).length = v.desc.outBits := by
  rw [digest, List.length_take, length_viewBits, h]
  cases v <;> rfl

theorem mdFinal_eq_some {d : Desc} {t : Triple} (h : t.total < 2 ^ Desc.fieldBits d) :
    mdFinal d t =
      some (digest d (rounds t.is (takeBlocks (mdPad t.rem t.total d.blockBits (Desc.fieldBits d)) d.blockBits).1)) :=
  if_pos h

theorem mdFinal_eq_none {d : Desc} {t : Triple} (h : 2 ^ Desc.fieldBits d ≤ t.total) : mdFinal d t = none :=
  if_neg (Nat.not_lt.mpr h)

theorem length_mdFinal {v : Variant} {t : Triple} {out : Bits} (hf : t.is.family = v.desc.family)
    (h : mdFinal v.desc t = some out) : out.length = v.desc.outBits := by
  simp only [mdFinal] at h
  split at h
  · rw [← Option.some.inj h]
    exact length_digest ((family_rounds _ _).trans hf)
  · simp at h

theorem length_mdPad_mod (R : Bits) (T : Nat) {B F : Nat} (hB : 0 < B) : (mdPad R T B F).length % B = 0 := by
  simp only [mdPad, mdPadZeros, List.length_append, length_zeros, length_bitsBE, List.length_singleton]
  have h1 := Nat.mod_lt (R.length + 1 + F) hB
  have h2 := Nat.div_add_mod (R.length + 1 + F) B
  generalize (R.length + 1 + F) % B = x at *
  generalize (R.length + 1 + F) / B = q at *
  by_cases hx : x = 0
  · subst hx
    rw [Nat.sub_zero, Nat.mod_self]
    rw [show R.length + 1 + 0 + F = B * q by omega, Nat.mul_mod_right]
  · rw [Nat.mod_eq_of_lt (show B - x < B by omega), show R.length + 1 + (B - x) + F = B * (q + 1) by
      rw [Nat.mul_add]; omega, Nat.mul_mod_right]

/-! ### The sponge -/

@[simp] theorem length_stateBits (A : Lanes) : (stateBits A).length = 1600 := length_viewBits (.keccak A)

theorem length_squeezeMore {r : Nat} (hr : r ≤ 1600) (n : Nat) (S : Lanes) : (squeezeMore r n S).length = n * r := by
  induction n generalizing S with
  | zero => simp [squeezeMore]
  | succ n ih =>
    simp only [squeezeMore, List.length_append, List.length_take, length_stateBits, ih]
    rw [Nat.min_eq_left hr, Nat.add_mul]; omega

theorem length_squeeze {r : Nat} (hr0 : 0 < r) (hr : r ≤ 1600) (S : Lanes) (L : Nat) : (squeeze S r L).length = L := by
  have h := le_mul_ceilDiv L r hr0
  simp only [squeeze, List.length_take, List.length_append, length_stateBits, length_squeezeMore hr]
  rw [Nat.min_eq_left hr]
  rcases Nat.eq_zero_or_pos (ceilDiv L r) with h0 | h0
  · rw [h0, Nat.mul_zero] at h; omega
  · have : r + (ceilDiv L r - 1) * r = r * ceilDiv L r := by
      conv_rhs => rw [show ceilDiv L r = ceilDiv L r - 1 + 1 by omega]
      rw [Nat.mul_add, Nat.mul_comm r]; omega
    omega

theorem length_spongeFinal (v : Variant) (S : Lanes) (R : Bits) (L : Nat) (csf : Bool) :
    (spongeFinal v.desc S R L csf).length = L :=
  length_squeeze (blockBits_pos v) ((blockBits_le v).trans (by decide)) _ L

theorem length_spongePad {R : Bits} {r : Nat} {delim : Byte} (hr : r % 8 = 0) (h : R.length ≤ r) :
    (spongePad R r delim).length = r := by
  simp [spongePad]; omega

/-! ### `Finalize` (41 R155) -/

theorem finalize_md {v : Variant} {t : Triple} (hf : t.is.family = v.desc.family) (hm : v.md = true) (L : Nat)
    (csf : Bool) : finalize v.desc t L csf = mdFinal v.desc t := by
  obtain ⟨S, R, P⟩ := t
  cases S with
  | sha1 H => rfl
  | sha256 H => rfl
  | sha512 H => rfl
  | keccak A => cases v <;> first | cases hf; done | exact absurd hm (by decide)

theorem finalize_sponge {v : Variant} {t : Triple} (hf : t.is.family = v.desc.family) (hm : v.md = false) (L : Nat)
    (csf : Bool) : ∃ A, t.is = .keccak A ∧ finalize v.desc t L csf = some (spongeFinal v.desc A t.rem L csf) := by
  obtain ⟨S, R, P⟩ := t
  cases S with
  | sha1 H => cases v <;> first | cases hf; done | exact absurd hm (by decide)
  | sha256 H => cases v <;> first | cases hf; done | exact absurd hm (by decide)
  | sha512 H => cases v <;> first | cases hf; done | exact absurd hm (by decide)
  | keccak A => exact ⟨A, rfl, rfl⟩

/-- The length field of an MD variant holds the length, or the variant has none. -/
def fits (v : Variant) (n : Nat) : Prop := v.md = true → n < 2 ^ Desc.fieldBits v.desc

theorem fits_of_lt {v : Variant} {n : Nat} (h : n < 2 ^ 33) : fits v n := by
  cases v <;> intro hm <;> first | exact absurd hm (by decide) | exact h.trans_le (by decide)

theorem fieldBits_le (v : Variant) : 2 ^ Desc.fieldBits v.desc ≤ 2 ^ 128 := by cases v <;> decide

/-- What is absorbed fits together with what was there, or the total does not fit. -/
theorem fits_absorb (v : Variant) (t : Triple) (b : Bits) :
    fits v (absorb v.desc t b).total ↔ fits v (t.total + b.length) :=
  forall_congr' fun _ => absorb_total_lt v.desc t b (fieldBits_le v)

theorem finalize_isSome {v : Variant} {t : Triple} (hf : t.is.family = v.desc.family)
    (h : fits v t.total) (L : Nat) (csf : Bool) :
    ∃ out, finalize v.desc t L csf = some out := by
  cases hm : v.md with
  | true => exact ⟨_, (finalize_md hf hm L csf).trans (mdFinal_eq_some (h hm))⟩
  | false =>
    obtain ⟨A, -, hA⟩ := finalize_sponge hf hm L csf
    exact ⟨_, hA⟩

theorem fits_of_finalize {v : Variant} {t : Triple} {L : Nat} {csf : Bool} {out : Bits}
    (hf : t.is.family = v.desc.family) (h : finalize v.desc t L csf = some out) : fits v t.total := by
  intro hm
  rw [finalize_md hf hm] at h
  by_contra hn
  rw [mdFinal_eq_none (Nat.not_lt.mp hn)] at h
  simp at h

theorem length_finalize_fixed {v : Variant} {t : Triple} {csf : Bool} {out : Bits}
    (hf : t.is.family = v.desc.family) (h : finalize v.desc t v.desc.outBits csf = some out) :
    out.length = v.desc.outBits := by
  cases hm : v.md with
  | true => rw [finalize_md hf hm] at h; exact length_mdFinal hf h
  | false =>
    obtain ⟨A, -, hA⟩ := finalize_sponge hf hm v.desc.outBits csf
    rw [hA] at h
    rw [← Option.some.inj h, length_spongeFinal]

theorem length_finalize_sponge {v : Variant} {t : Triple} {L : Nat} {csf : Bool} {out : Bits}
    (hf : t.is.family = v.desc.family) (hm : v.md = false) (h : finalize v.desc t L csf = some out) :
    out.length = L := by
  obtain ⟨A, -, hA⟩ := finalize_sponge hf hm L csf
  rw [hA] at h
  rw [← Option.some.inj h, length_spongeFinal]

/-! ### `OneShot` and the iteration (41 R161, R162) -/

theorem family_absorb_fresh (v : Variant) (m : Bits) : (absorb v.desc (freshTriple v) m).is.family = v.desc.family :=
  (family_absorb _ _ _).trans (family_newState v)

@[simp] theorem total_freshTriple (v : Variant) : (freshTriple v).total = 0 := rfl

theorem fits_absorb_fresh (v : Variant) (m : Bits) :
    fits v (absorb v.desc (freshTriple v) m).total ↔ fits v m.length := by
  rw [fits_absorb, total_freshTriple, Nat.zero_add]

theorem total_absorb_fresh {v : Variant} {m : Bits} (h : m.length < 2 ^ 128) :
    (absorb v.desc (freshTriple v) m).total = m.length := by
  rw [absorb_total (by rwa [total_freshTriple, Nat.zero_add]), total_freshTriple, Nat.zero_add]

theorem oneShot_isSome {v : Variant} {m : Bits} (h : fits v m.length) : ∃ out, oneShot v m = some out :=
  finalize_isSome (family_absorb_fresh v m) ((fits_absorb_fresh v m).mpr h) _ _

theorem length_oneShot {v : Variant} {m out : Bits} (h : oneShot v m = some out) : out.length = v.desc.outBits :=
  length_finalize_fixed (family_absorb_fresh v m) h

theorem fits_outBits (v : Variant) : fits v v.desc.outBits :=
  fits_of_lt (((outBits_lt_blockBits v).trans_le (blockBits_le v)).trans (by decide))

theorem iterate_isSome {v : Variant} (n : Nat) {out : Bits} (h : out.length = v.desc.outBits) :
    ∃ out', iterate v n out = some out' ∧ out'.length = v.desc.outBits := by
  induction n generalizing out with
  | zero => exact ⟨out, rfl, h⟩
  | succ n ih =>
    obtain ⟨o, ho⟩ := oneShot_isSome (v := v) (m := out) (h ▸ fits_outBits v)
    obtain ⟨o', h1, h2⟩ := ih (length_oneShot ho)
    exact ⟨o', by rw [iterate, ho, Option.bind_some, h1], h2⟩

/-- The last further round is a one-shot hash of what the rounds before it gave. -/
theorem iterate_succ (v : Variant) (n : Nat) (out : Bits) :
    iterate v (n + 1) out = (iterate v n out).bind (oneShot v) := by
  induction n generalizing out with
  | zero => simp [iterate]
  | succ n ih =>
    rw [iterate]
    conv_rhs => rw [iterate]
    cases oneShot v out with
    | none => rfl
    | some o => simpa using ih o

/-! ### The encodings (47 R320 to R323) -/

theorem length_leftEncode (x : Nat) : (leftEncode x).length = 8 * (byteCount x + 1) := by
  simp [leftEncode, valueBytes]

theorem length_rightEncode (x : Nat) : (rightEncode x).length = 8 * (byteCount x + 1) := by
  simp [rightEncode, valueBytes]

theorem length_bytepad_mod (X : Bits) {w : Nat} (hw : 0 < w) : (bytepad X w).length % (8 * w) = 0 := by
  simp only [bytepad, List.length_append, length_zeros]
  generalize (leftEncode w).length + X.length = n
  have h0 : 0 < 8 * w := by omega
  generalize 8 * w = B at *
  have h1 := Nat.mod_lt n h0
  have h2 := Nat.div_add_mod n B
  generalize n % B = x at *
  generalize n / B = q at *
  by_cases hx : x = 0
  · subst hx
    rw [Nat.sub_zero, Nat.mod_self, ← h2]; simp
  · rw [Nat.mod_eq_of_lt (show B - x < B by omega), show n + (B - x) = B * (q + 1) by
      rw [Nat.mul_add]; omega, Nat.mul_mod_right]

theorem length_bytepad_rate (v : Variant) (X : Bits) : (bytepad X (v.desc.blockBits / 8)).length % v.desc.blockBits = 0 := by
  have h := length_bytepad_mod X (w := v.desc.blockBits / 8) (by cases v <;> decide)
  rwa [show 8 * (v.desc.blockBits / 8) = v.desc.blockBits by cases v <;> rfl] at h

end Sys2Proof.Machine
end

