-- ==== Sys2Proof/Laws/Decode.lean ====
section
/-!
SUPPORT. What the parts of the decoder and of the encoder do (spec/30_encoding.md R91 to R107).
-/

namespace Sys2Proof

/-! ### Header fields (30 R91) -/

theorem opOf_header (op opt var : Byte) : opOf (header op opt var) = op := by
  apply BitVec.eq_of_getLsbD_eq
  intro i hi
  simp only [opOf, header, BitVec.getLsbD_extractLsb', BitVec.getLsbD_append]
  have h1 : 24 + i - 8 - 8 - 8 = i := by omega
  simp [hi, h1, show ¬ 24 + i < 8 by omega, show ¬ 24 + i - 8 < 8 by omega, show ¬ 24 + i - 8 - 8 < 8 by omega]

theorem optOf_header (op opt var : Byte) : optOf (header op opt var) = opt := by
  apply BitVec.eq_of_getLsbD_eq
  intro i hi
  simp only [optOf, header, BitVec.getLsbD_extractLsb', BitVec.getLsbD_append]
  have h1 : 16 + i - 8 - 8 = i := by omega
  simp [hi, h1, show ¬ 16 + i < 8 by omega, show ¬ 16 + i - 8 < 8 by omega]

theorem zOf_header (op opt var : Byte) : zOf (header op opt var) = 0 := by
  apply BitVec.eq_of_getLsbD_eq
  intro i hi
  simp only [zOf, header, BitVec.getLsbD_extractLsb', BitVec.getLsbD_append]
  simp [show ¬ 8 + i < 8 by omega]
  omega

theorem varOf_header (op opt var : Byte) : varOf (header op opt var) = var := by
  apply BitVec.eq_of_getLsbD_eq
  intro i hi
  simp only [varOf, header, BitVec.getLsbD_extractLsb', BitVec.getLsbD_append]
  simp [hi]

/-- The header that has given fields, `z = 0`. -/
theorem header_of_fields (h : Word) (hz : zOf h = 0) : header (opOf h) (optOf h) (varOf h) = h := by
  apply BitVec.eq_of_getLsbD_eq
  intro i hi
  have hz' : ∀ j, j < 8 → h.getLsbD (8 + j) = false := fun j hj => by
    have := congrArg (fun v => v.getLsbD j) hz
    simpa [zOf, BitVec.getLsbD_extractLsb', hj] using this
  simp only [header, opOf, optOf, varOf, BitVec.getLsbD_append, BitVec.getLsbD_extractLsb']
  by_cases h0 : i < 8
  · simp [h0]
  · by_cases h1 : i - 8 < 8
    · simp [h0, h1]
      have := hz' (i - 8) h1
      rw [show 8 + (i - 8) = i by omega] at this
      exact this
    · by_cases h2 : i - 8 - 8 < 8
      · simp [h0, h1, h2, show 16 + (i - 8 - 8) = i by omega]
      · simp [h0, h1, h2, show 24 + (i - 8 - 8 - 8) = i by omega, show i - 8 - 8 - 8 < 8 by omega]

/-! ### Variant codes (30 R95) -/

theorem ofCode_code (v : Variant) : Variant.ofCode v.code = some v := by cases v <;> rfl

theorem code_of_ofCode {c : Byte} {v : Variant} (h : Variant.ofCode c = some v) : v.code = c := by
  have := List.find?_some h
  simpa using this

theorem code_injective {u v : Variant} (h : u.code = v.code) : u = v := by
  have := ofCode_code u
  rw [h, ofCode_code] at this
  exact (Option.some.inj this).symm

theorem initOf_code (v : Variant) (o : InitOpts) : initOf v.code o = initInstr v o := by
  simp [initOf, ofCode_code]

theorem encode_initInstr (v : Variant) (o : InitOpts) : encode (initInstr v o) = encodeInit v.code o := by
  cases v <;> rfl

theorem wellFormed_initInstr (v : Variant) (o : InitOpts) : (initInstr v o).wellFormed = o.wellFormed := by
  cases v <;> rfl

/-- Every command is an INIT of a variant or one of the five others. -/
theorem instr_cases (i : Instr) :
    (∃ v o, i = initInstr v o) ∨ (∃ c o, i = .initUnknown c o) ∨ (∃ d, i = .update d) ∨
      (∃ l, i = .getHash l) ∨ (∃ l, i = .getHmac l) ∨ (∃ k, i = .setKey k) := by
  cases i with
  | initSha1 o => exact .inl ⟨.sha1, o, rfl⟩
  | initSha224 o => exact .inl ⟨.sha224, o, rfl⟩
  | initSha256 o => exact .inl ⟨.sha256, o, rfl⟩
  | initSha384 o => exact .inl ⟨.sha384, o, rfl⟩
  | initSha512 o => exact .inl ⟨.sha512, o, rfl⟩
  | initSha3_224 o => exact .inl ⟨.sha3_224, o, rfl⟩
  | initSha3_256 o => exact .inl ⟨.sha3_256, o, rfl⟩
  | initSha3_384 o => exact .inl ⟨.sha3_384, o, rfl⟩
  | initSha3_512 o => exact .inl ⟨.sha3_512, o, rfl⟩
  | initShake128 o => exact .inl ⟨.shake128, o, rfl⟩
  | initShake256 o => exact .inl ⟨.shake256, o, rfl⟩
  | initCshake128 o => exact .inl ⟨.cshake128, o, rfl⟩
  | initCshake256 o => exact .inl ⟨.cshake256, o, rfl⟩
  | initKmac128 o => exact .inl ⟨.kmac128, o, rfl⟩
  | initKmac256 o => exact .inl ⟨.kmac256, o, rfl⟩
  | initUnknown c o => exact .inr (.inl ⟨c, o, rfl⟩)
  | update d => exact .inr (.inr (.inl ⟨d, rfl⟩))
  | getHash l => exact .inr (.inr (.inr (.inl ⟨l, rfl⟩)))
  | getHmac l => exact .inr (.inr (.inr (.inr (.inl ⟨l, rfl⟩))))
  | setKey k => exact .inr (.inr (.inr (.inr (.inr ⟨k, rfl⟩))))

/-! ### Payload sections (30 R93) -/

theorem length_encodeSection (p : Bits) : (encodeSection p).length = 1 + ceilDiv p.length 32 := by
  simp [encodeSection]; omega

/-- A section is read back whole. -/
theorem payloadSection?_encodeSection (p : Bits) (rest : List Word) (h : payloadFits p = true) :
    payloadSection? (encodeSection p ++ rest) = some (p, rest) := by
  have hn : (BitVec.ofNat 32 p.length).toNat = p.length := by
    rw [BitVec.toNat_ofNat, Nat.mod_eq_of_lt]
    simpa [payloadFits] using h
  simp only [encodeSection, List.cons_append, payloadSection?, hn, List.length_append, length_payloadWords]
  rw [if_neg (by omega), List.take_left' (length_payloadWords p), List.drop_left' (length_payloadWords p),
    take_wordsBits_payloadWords]

/-- What `payloadSection?` reads: a length word, exactly `ceil(n / 32)` data words, and the first `n` bits of them. -/
theorem payloadSection?_eq_some {ws rest : List Word} {b : Bits} (h : payloadSection? ws = some (b, rest)) :
    ∃ n data, ws = n :: (data ++ rest) ∧ data.length = ceilDiv n.toNat 32 ∧ b = (wordsBits data).take n.toNat ∧
      b.length = n.toNat := by
  cases ws with
  | nil => simp [payloadSection?] at h
  | cons n ws =>
    simp only [payloadSection?] at h
    split at h
    · simp at h
    · rename_i hk
      simp only [Option.some.injEq, Prod.mk.injEq] at h
      have hl : (ws.take (ceilDiv n.toNat 32)).length = ceilDiv n.toNat 32 := by
        rw [List.length_take]; omega
      refine ⟨n, ws.take (ceilDiv n.toNat 32), ?_, hl, h.1.symm, ?_⟩
      · rw [← h.2, List.take_append_drop]
      · have := le_mul_ceilDiv n.toNat 32 (by decide)
        rw [← h.1, List.length_take, length_wordsBits, hl]; omega

theorem payloadSection?_cons (n : Word) (data rest : List Word) (h : data.length = ceilDiv n.toNat 32) :
    payloadSection? (n :: (data ++ rest)) = some ((wordsBits data).take n.toNat, rest) := by
  simp only [payloadSection?, List.length_append]
  rw [if_neg (by omega), List.take_left' h, List.drop_left' h]

theorem payloadFits_of_section? {ws rest : List Word} {b : Bits} (h : payloadSection? ws = some (b, rest)) :
    payloadFits b = true := by
  obtain ⟨n, data, -, -, -, hb⟩ := payloadSection?_eq_some h
  simp only [payloadFits, hb, decide_eq_true_eq]
  exact n.isLt

/-- Words behind a section do not change it. -/
theorem payloadSection?_append {ws rest : List Word} {b : Bits} (h : payloadSection? ws = some (b, rest)) (more : List Word) :
    payloadSection? (ws ++ more) = some (b, rest ++ more) := by
  obtain ⟨n, data, rfl, hd, rfl, -⟩ := payloadSection?_eq_some h
  rw [List.cons_append, List.append_assoc, payloadSection?_cons n data _ hd]

/-! ### Optional parts (30 R94) -/

theorem optWord?_encode (w : Option Word) (rest : List Word) :
    optWord? w.isSome (w.toList ++ rest) = some (w, rest) := by
  cases w <;> simp [optWord?]

theorem optSection?_encode (p : Option Bits) (rest : List Word) (h : p.all payloadFits = true) :
    optSection? p.isSome (encodeOptSection p ++ rest) = some (p, rest) := by
  cases p with
  | none => simp [optSection?, encodeOptSection]
  | some p => simp [optSection?, encodeOptSection, payloadSection?_encodeSection p rest (by simpa using h)]

theorem optWord?_append {f : Bool} {ws rest : List Word} {w : Option Word} (h : optWord? f ws = some (w, rest))
    (more : List Word) : optWord? f (ws ++ more) = some (w, rest ++ more) := by
  cases f <;> cases ws <;> simp_all [optWord?]

theorem optSection?_append {f : Bool} {ws rest : List Word} {p : Option Bits}
    (h : optSection? f ws = some (p, rest)) (more : List Word) :
    optSection? f (ws ++ more) = some (p, rest ++ more) := by
  cases f with
  | false => simp_all [optSection?]
  | true =>
    simp only [optSection?, if_true, Option.map_eq_some_iff, Prod.mk.injEq] at h ⊢
    obtain ⟨⟨b, r⟩, h, rfl, rfl⟩ := h
    exact ⟨(b, r ++ more), payloadSection?_append h more, rfl, rfl⟩

theorem initParts?_append {opt : Byte} {ws rest : List Word} {o : InitOpts}
    (h : initParts? opt ws = some (o, rest)) (more : List Word) :
    initParts? opt (ws ++ more) = some (o, rest ++ more) := by
  simp only [initParts?, Option.bind_eq_some_iff, Option.map_eq_some_iff, Prod.mk.injEq] at h ⊢
  obtain ⟨⟨a1, r1⟩, h1, ⟨a2, r2⟩, h2, ⟨a3, r3⟩, h3, ⟨a4, r4⟩, h4, ⟨a5, r5⟩, h5, rfl, rfl⟩ := h
  exact ⟨_, optWord?_append h1 more, _, optSection?_append h2 more, _, optSection?_append h3 more,
    _, optSection?_append h4 more, _, optSection?_append h5 more, rfl, rfl⟩

theorem initFlags_bits (o : InitOpts) :
    (initFlags o).getLsbD 0 = o.nr.isSome ∧ (initFlags o).getLsbD 1 = o.hk.isSome ∧
      (initFlags o).getLsbD 2 = o.fn.isSome ∧ (initFlags o).getLsbD 3 = o.cu.isSome ∧
      (initFlags o).getLsbD 4 = o.kk.isSome ∧ initFlags o >>> 5 = 0 := by
  unfold initFlags
  generalize o.nr.isSome = a
  generalize o.hk.isSome = b
  generalize o.fn.isSome = c
  generalize o.cu.isSome = d
  generalize o.kk.isSome = e
  revert a b c d e
  decide

/-- The parts of an INIT packet are read back whole. -/
theorem initParts?_encodeParts (o : InitOpts) (rest : List Word) (h : o.wellFormed = true) :
    initParts? (initFlags o) (encodeParts o ++ rest) = some (o, rest) := by
  obtain ⟨h0, h1, h2, h3, h4, -⟩ := initFlags_bits o
  simp only [InitOpts.wellFormed, Bool.and_eq_true] at h
  obtain ⟨⟨⟨hhk, hfn⟩, hcu⟩, hkk⟩ := h
  simp only [initParts?, encodeParts, List.append_assoc, h0, h1, h2, h3, h4, optWord?_encode,
    optSection?_encode _ _ hhk, optSection?_encode _ _ hfn, optSection?_encode _ _ hcu, optSection?_encode _ _ hkk,
    Option.bind_some, Option.map_some]

/-! ### The decoder -/

/-- What `decode` does with a legal header. -/
theorem decode_of_legal {h : Word} (hf : headerFault h = none) (ws : List Word) :
    decode (h :: ws) = decodeBody h ws := by simp [decode, hf]

theorem decode_of_fault {h : Word} {why : IllegalWhy} (hf : headerFault h = some why) (ws : List Word) :
    decode (h :: ws) = .illegal why ws := by simp [decode, hf]

/-- Which header words are legal (30 R92, R100). -/
theorem headerFault_eq_none_iff (h : Word) :
    headerFault h = none ↔ (opOf h = 0x01 ∧ zOf h = 0 ∧ optOf h >>> 5 = 0) ∨
      ((opOf h = 0x02 ∨ opOf h = 0x05) ∧ zOf h = 0 ∧ optOf h = 0 ∧ varOf h = 0) ∨
      ((opOf h = 0x03 ∨ opOf h = 0x04) ∧ zOf h = 0 ∧ optOf h >>> 1 = 0 ∧ varOf h = 0) := by
  unfold headerFault
  generalize opOf h = op
  generalize optOf h = opt
  generalize zOf h = z
  generalize varOf h = var
  by_cases h1 : op = 0x01
  · subst h1; simp [and_comm]
  · by_cases h2 : op = 0x02 ∨ op = 0x05
    · rcases h2 with rfl | rfl <;> simp [and_left_comm]
    · by_cases h3 : op = 0x03 ∨ op = 0x04
      · rcases h3 with rfl | rfl <;> simp [and_left_comm]
      · simp only [h1, h2, h3, if_false, false_and, or_self, reduceCtorEq]

theorem headerFault_init (o : InitOpts) (var : Byte) : headerFault (header 0x01 (initFlags o) var) = none := by
  simp [headerFault, opOf_header, zOf_header, optOf_header, (initFlags_bits o).2.2.2.2.2]

theorem headerFault_P (op : Byte) (h : op = 0x02 ∨ op = 0x05) : headerFault (header op 0 0) = none := by
  rcases h with rfl | rfl <;> decide

theorem headerFault_G (op : Byte) (f : Bool) (h : op = 0x03 ∨ op = 0x04) :
    headerFault (header op (if f then 0x01 else 0) 0) = none := by
  rcases h with rfl | rfl <;> cases f <;> decide

/-- A result that is no `wait` stays when words are added behind. -/
theorem ofParts_append {α : Type} {mk : α → Instr} {x : List Word → Option (α × List Word)}
    (hx : ∀ {ws rest a}, x ws = some (a, rest) → ∀ more, x (ws ++ more) = some (a, rest ++ more))
    {ws rest : List Word} {c : Instr} (h : Decoded.ofParts mk (x ws) = .cmd c rest) (more : List Word) :
    Decoded.ofParts mk (x (ws ++ more)) = .cmd c (rest ++ more) := by
  cases hp : x ws with
  | none => simp [hp, Decoded.ofParts] at h
  | some p =>
    obtain ⟨a, r⟩ := p
    simp only [hp, Decoded.ofParts, Decoded.cmd.injEq] at h
    obtain ⟨rfl, rfl⟩ := h
    simp [hx hp more, Decoded.ofParts]

theorem decode_cmd_append {ws rest : List Word} {c : Instr} (h : decode ws = .cmd c rest) (more : List Word) :
    decode (ws ++ more) = .cmd c (rest ++ more) := by
  cases ws with
  | nil => simp [decode] at h
  | cons w ws =>
    cases hf : headerFault w with
    | some why => simp [decode, hf] at h
    | none =>
      rw [List.cons_append, decode_of_legal hf]
      rw [decode_of_legal hf] at h
      unfold decodeBody at h ⊢
      split_ifs at h ⊢
      · exact ofParts_append (x := initParts? (optOf w)) initParts?_append h more
      · exact ofParts_append (x := payloadSection?) payloadSection?_append h more
      · exact ofParts_append (x := optWord? _) optWord?_append h more
      · exact ofParts_append (x := optWord? _) optWord?_append h more
      · exact ofParts_append (x := payloadSection?) payloadSection?_append h more

theorem decode_illegal_append {ws rest : List Word} {why : IllegalWhy} (h : decode ws = .illegal why rest)
    (more : List Word) : decode (ws ++ more) = .illegal why (rest ++ more) := by
  cases ws with
  | nil => simp [decode] at h
  | cons w ws =>
    cases hf : headerFault w with
    | some why' =>
      rw [decode_of_fault hf] at h
      obtain ⟨rfl, rfl⟩ := Decoded.illegal.inj h
      rw [List.cons_append, decode_of_fault hf]
    | none =>
      rw [decode_of_legal hf] at h
      unfold decodeBody Decoded.ofParts at h
      split_ifs at h <;> split at h <;> simp at h

end Sys2Proof
end

