-- ==== Sys2Proof/Laws/State.lean ====
section
/-!
SUPPORT. One lemma per field per update of `State`, true by rfl, so that no later proof unfolds a record update.
-/

namespace Sys2Proof.Machine

/-! ### `respond` -/

@[simp] theorem respond_phase (r : Response) (s : State) : (respond r s).phase = s.phase := rfl
@[simp] theorem respond_var (r : Response) (s : State) : (respond r s).var = s.var := rfl
@[simp] theorem respond_nr (r : Response) (s : State) : (respond r s).nr = s.nr := rfl
@[simp] theorem respond_upd (r : Response) (s : State) : (respond r s).upd = s.upd := rfl
@[simp] theorem respond_keyset (r : Response) (s : State) : (respond r s).keyset = s.keyset := rfl
@[simp] theorem respond_csf (r : Response) (s : State) : (respond r s).csf = s.csf := rfl
@[simp] theorem respond_is (r : Response) (s : State) : (respond r s).is = s.is := rfl
@[simp] theorem respond_rem (r : Response) (s : State) : (respond r s).rem = s.rem := rfl
@[simp] theorem respond_plen (r : Response) (s : State) : (respond r s).plen = s.plen := rfl
@[simp] theorem respond_kin (r : Response) (s : State) : (respond r s).kin = s.kin := rfl
@[simp] theorem respond_kout (r : Response) (s : State) : (respond r s).kout = s.kout := rfl
@[simp] theorem respond_cmd (r : Response) (s : State) : (respond r s).cmd = s.cmd := rfl
@[simp] theorem respond_rsp (r : Response) (s : State) : (respond r s).rsp = s.rsp ++ encodeResponse r := rfl

/-! ### `raiseError` -/

@[simp] theorem raiseError_phase (e : Err) (s : State) : (raiseError e s).phase = s.phase := rfl
@[simp] theorem raiseError_var (e : Err) (s : State) : (raiseError e s).var = s.var := rfl
@[simp] theorem raiseError_nr (e : Err) (s : State) : (raiseError e s).nr = s.nr := rfl
@[simp] theorem raiseError_upd (e : Err) (s : State) : (raiseError e s).upd = s.upd := rfl
@[simp] theorem raiseError_keyset (e : Err) (s : State) : (raiseError e s).keyset = s.keyset := rfl
@[simp] theorem raiseError_csf (e : Err) (s : State) : (raiseError e s).csf = s.csf := rfl
@[simp] theorem raiseError_is (e : Err) (s : State) : (raiseError e s).is = s.is := rfl
@[simp] theorem raiseError_rem (e : Err) (s : State) : (raiseError e s).rem = s.rem := rfl
@[simp] theorem raiseError_plen (e : Err) (s : State) : (raiseError e s).plen = s.plen := rfl
@[simp] theorem raiseError_kin (e : Err) (s : State) : (raiseError e s).kin = s.kin := rfl
@[simp] theorem raiseError_kout (e : Err) (s : State) : (raiseError e s).kout = s.kout := rfl
@[simp] theorem raiseError_cmd (e : Err) (s : State) : (raiseError e s).cmd = s.cmd := rfl
@[simp] theorem raiseError_rsp (e : Err) (s : State) : (raiseError e s).rsp = s.rsp ++ encodeResponse (.error e) := rfl

/-! ### `takePacket` -/

@[simp] theorem takePacket_phase (rest : List Word) (s : State) : (takePacket rest s).phase = s.phase := rfl
@[simp] theorem takePacket_var (rest : List Word) (s : State) : (takePacket rest s).var = s.var := rfl
@[simp] theorem takePacket_nr (rest : List Word) (s : State) : (takePacket rest s).nr = s.nr := rfl
@[simp] theorem takePacket_upd (rest : List Word) (s : State) : (takePacket rest s).upd = s.upd := rfl
@[simp] theorem takePacket_keyset (rest : List Word) (s : State) : (takePacket rest s).keyset = s.keyset := rfl
@[simp] theorem takePacket_csf (rest : List Word) (s : State) : (takePacket rest s).csf = s.csf := rfl
@[simp] theorem takePacket_is (rest : List Word) (s : State) : (takePacket rest s).is = s.is := rfl
@[simp] theorem takePacket_rem (rest : List Word) (s : State) : (takePacket rest s).rem = s.rem := rfl
@[simp] theorem takePacket_plen (rest : List Word) (s : State) : (takePacket rest s).plen = s.plen := rfl
@[simp] theorem takePacket_kin (rest : List Word) (s : State) : (takePacket rest s).kin = s.kin := rfl
@[simp] theorem takePacket_kout (rest : List Word) (s : State) : (takePacket rest s).kout = s.kout := rfl
@[simp] theorem takePacket_cmd (rest : List Word) (s : State) : (takePacket rest s).cmd = rest := rfl
@[simp] theorem takePacket_rsp (rest : List Word) (s : State) : (takePacket rest s).rsp = s.rsp := rfl

/-! ### `hostSend` -/

@[simp] theorem hostSend_phase (ws : List Word) (s : State) : (hostSend ws s).phase = s.phase := rfl
@[simp] theorem hostSend_var (ws : List Word) (s : State) : (hostSend ws s).var = s.var := rfl
@[simp] theorem hostSend_nr (ws : List Word) (s : State) : (hostSend ws s).nr = s.nr := rfl
@[simp] theorem hostSend_upd (ws : List Word) (s : State) : (hostSend ws s).upd = s.upd := rfl
@[simp] theorem hostSend_keyset (ws : List Word) (s : State) : (hostSend ws s).keyset = s.keyset := rfl
@[simp] theorem hostSend_csf (ws : List Word) (s : State) : (hostSend ws s).csf = s.csf := rfl
@[simp] theorem hostSend_is (ws : List Word) (s : State) : (hostSend ws s).is = s.is := rfl
@[simp] theorem hostSend_rem (ws : List Word) (s : State) : (hostSend ws s).rem = s.rem := rfl
@[simp] theorem hostSend_plen (ws : List Word) (s : State) : (hostSend ws s).plen = s.plen := rfl
@[simp] theorem hostSend_kin (ws : List Word) (s : State) : (hostSend ws s).kin = s.kin := rfl
@[simp] theorem hostSend_kout (ws : List Word) (s : State) : (hostSend ws s).kout = s.kout := rfl
@[simp] theorem hostSend_cmd (ws : List Word) (s : State) : (hostSend ws s).cmd = s.cmd ++ ws := rfl
@[simp] theorem hostSend_rsp (ws : List Word) (s : State) : (hostSend ws s).rsp = s.rsp := rfl

/-! ### `State.setTriple` -/

@[simp] theorem setTriple_phase (t : Triple) (s : State) : (s.setTriple t).phase = s.phase := rfl
@[simp] theorem setTriple_var (t : Triple) (s : State) : (s.setTriple t).var = s.var := rfl
@[simp] theorem setTriple_nr (t : Triple) (s : State) : (s.setTriple t).nr = s.nr := rfl
@[simp] theorem setTriple_upd (t : Triple) (s : State) : (s.setTriple t).upd = s.upd := rfl
@[simp] theorem setTriple_keyset (t : Triple) (s : State) : (s.setTriple t).keyset = s.keyset := rfl
@[simp] theorem setTriple_csf (t : Triple) (s : State) : (s.setTriple t).csf = s.csf := rfl
@[simp] theorem setTriple_is (t : Triple) (s : State) : (s.setTriple t).is = t.is := rfl
@[simp] theorem setTriple_rem (t : Triple) (s : State) : (s.setTriple t).rem = t.rem := rfl
@[simp] theorem setTriple_plen (t : Triple) (s : State) : (s.setTriple t).plen = t.plen := rfl
@[simp] theorem setTriple_kin (t : Triple) (s : State) : (s.setTriple t).kin = s.kin := rfl
@[simp] theorem setTriple_kout (t : Triple) (s : State) : (s.setTriple t).kout = s.kout := rfl
@[simp] theorem setTriple_cmd (t : Triple) (s : State) : (s.setTriple t).cmd = s.cmd := rfl
@[simp] theorem setTriple_rsp (t : Triple) (s : State) : (s.setTriple t).rsp = s.rsp := rfl

/-! ### `State.markUpdated` -/

@[simp] theorem markUpdated_phase (s : State) : (s.markUpdated).phase = .updating := rfl
@[simp] theorem markUpdated_var (s : State) : (s.markUpdated).var = s.var := rfl
@[simp] theorem markUpdated_nr (s : State) : (s.markUpdated).nr = s.nr := rfl
@[simp] theorem markUpdated_upd (s : State) : (s.markUpdated).upd = true := rfl
@[simp] theorem markUpdated_keyset (s : State) : (s.markUpdated).keyset = s.keyset := rfl
@[simp] theorem markUpdated_csf (s : State) : (s.markUpdated).csf = s.csf := rfl
@[simp] theorem markUpdated_is (s : State) : (s.markUpdated).is = s.is := rfl
@[simp] theorem markUpdated_rem (s : State) : (s.markUpdated).rem = s.rem := rfl
@[simp] theorem markUpdated_plen (s : State) : (s.markUpdated).plen = s.plen := rfl
@[simp] theorem markUpdated_kin (s : State) : (s.markUpdated).kin = s.kin := rfl
@[simp] theorem markUpdated_kout (s : State) : (s.markUpdated).kout = s.kout := rfl
@[simp] theorem markUpdated_cmd (s : State) : (s.markUpdated).cmd = s.cmd := rfl
@[simp] theorem markUpdated_rsp (s : State) : (s.markUpdated).rsp = s.rsp := rfl

/-! ### `startSession` -/

@[simp] theorem startSession_phase (v : Variant) (o : InitOpts) (s : State) : (startSession v o s).phase = .fresh := rfl
@[simp] theorem startSession_var (v : Variant) (o : InitOpts) (s : State) : (startSession v o s).var = v := rfl
@[simp] theorem startSession_nr (v : Variant) (o : InitOpts) (s : State) : (startSession v o s).nr = nrOrDefault o := rfl
@[simp] theorem startSession_upd (v : Variant) (o : InitOpts) (s : State) : (startSession v o s).upd = false := rfl
@[simp] theorem startSession_keyset (v : Variant) (o : InitOpts) (s : State) : (startSession v o s).keyset = false := rfl
@[simp] theorem startSession_csf (v : Variant) (o : InitOpts) (s : State) : (startSession v o s).csf = csfAtInit v o := rfl
@[simp] theorem startSession_is (v : Variant) (o : InitOpts) (s : State) : (startSession v o s).is = newState v := rfl
@[simp] theorem startSession_rem (v : Variant) (o : InitOpts) (s : State) : (startSession v o s).rem = [] := rfl
@[simp] theorem startSession_plen (v : Variant) (o : InitOpts) (s : State) : (startSession v o s).plen = some 0 := rfl
@[simp] theorem startSession_kin (v : Variant) (o : InitOpts) (s : State) : (startSession v o s).kin = none := rfl
@[simp] theorem startSession_kout (v : Variant) (o : InitOpts) (s : State) : (startSession v o s).kout = none := rfl
@[simp] theorem startSession_cmd (v : Variant) (o : InitOpts) (s : State) : (startSession v o s).cmd = s.cmd := rfl
@[simp] theorem startSession_rsp (v : Variant) (o : InitOpts) (s : State) : (startSession v o s).rsp = s.rsp := rfl

/-! ### `absorbRegs` -/

@[simp] theorem absorbRegs_phase (b : Bits) (s : State) : (absorbRegs b s).phase = s.phase := rfl
@[simp] theorem absorbRegs_var (b : Bits) (s : State) : (absorbRegs b s).var = s.var := rfl
@[simp] theorem absorbRegs_nr (b : Bits) (s : State) : (absorbRegs b s).nr = s.nr := rfl
@[simp] theorem absorbRegs_upd (b : Bits) (s : State) : (absorbRegs b s).upd = s.upd := rfl
@[simp] theorem absorbRegs_keyset (b : Bits) (s : State) : (absorbRegs b s).keyset = s.keyset := rfl
@[simp] theorem absorbRegs_csf (b : Bits) (s : State) : (absorbRegs b s).csf = s.csf := rfl
@[simp] theorem absorbRegs_is (b : Bits) (s : State) : (absorbRegs b s).is = (absorb s.desc s.triple b).is := rfl
@[simp] theorem absorbRegs_rem (b : Bits) (s : State) : (absorbRegs b s).rem = (absorb s.desc s.triple b).rem := rfl
@[simp] theorem absorbRegs_plen (b : Bits) (s : State) : (absorbRegs b s).plen = (absorb s.desc s.triple b).plen := rfl
@[simp] theorem absorbRegs_kin (b : Bits) (s : State) : (absorbRegs b s).kin = s.kin := rfl
@[simp] theorem absorbRegs_kout (b : Bits) (s : State) : (absorbRegs b s).kout = s.kout := rfl
@[simp] theorem absorbRegs_cmd (b : Bits) (s : State) : (absorbRegs b s).cmd = s.cmd := rfl
@[simp] theorem absorbRegs_rsp (b : Bits) (s : State) : (absorbRegs b s).rsp = s.rsp := rfl

/-! ### `absorbPrefix` -/

@[simp] theorem absorbPrefix_phase (v : Variant) (o : InitOpts) (s : State) : (absorbPrefix v o s).phase = s.phase := rfl
@[simp] theorem absorbPrefix_var (v : Variant) (o : InitOpts) (s : State) : (absorbPrefix v o s).var = s.var := rfl
@[simp] theorem absorbPrefix_nr (v : Variant) (o : InitOpts) (s : State) : (absorbPrefix v o s).nr = s.nr := rfl
@[simp] theorem absorbPrefix_upd (v : Variant) (o : InitOpts) (s : State) : (absorbPrefix v o s).upd = s.upd := rfl
@[simp] theorem absorbPrefix_keyset (v : Variant) (o : InitOpts) (s : State) : (absorbPrefix v o s).keyset = s.keyset := rfl
@[simp] theorem absorbPrefix_csf (v : Variant) (o : InitOpts) (s : State) : (absorbPrefix v o s).csf = s.csf := rfl
@[simp] theorem absorbPrefix_is (v : Variant) (o : InitOpts) (s : State) : (absorbPrefix v o s).is = ((prefixInputs v o).foldl (absorb v.desc) s.triple).is := rfl
@[simp] theorem absorbPrefix_rem (v : Variant) (o : InitOpts) (s : State) : (absorbPrefix v o s).rem = ((prefixInputs v o).foldl (absorb v.desc) s.triple).rem := rfl
@[simp] theorem absorbPrefix_plen (v : Variant) (o : InitOpts) (s : State) : (absorbPrefix v o s).plen = ((prefixInputs v o).foldl (absorb v.desc) s.triple).plen := rfl
@[simp] theorem absorbPrefix_kin (v : Variant) (o : InitOpts) (s : State) : (absorbPrefix v o s).kin = s.kin := rfl
@[simp] theorem absorbPrefix_kout (v : Variant) (o : InitOpts) (s : State) : (absorbPrefix v o s).kout = s.kout := rfl
@[simp] theorem absorbPrefix_cmd (v : Variant) (o : InitOpts) (s : State) : (absorbPrefix v o s).cmd = s.cmd := rfl
@[simp] theorem absorbPrefix_rsp (v : Variant) (o : InitOpts) (s : State) : (absorbPrefix v o s).rsp = s.rsp := rfl

/-! ### `installNormKey` -/

@[simp] theorem installNormKey_phase (k0 : Bits) (s : State) : (installNormKey k0 s).phase = s.phase := rfl
@[simp] theorem installNormKey_var (k0 : Bits) (s : State) : (installNormKey k0 s).var = s.var := rfl
@[simp] theorem installNormKey_nr (k0 : Bits) (s : State) : (installNormKey k0 s).nr = s.nr := rfl
@[simp] theorem installNormKey_upd (k0 : Bits) (s : State) : (installNormKey k0 s).upd = s.upd := rfl
@[simp] theorem installNormKey_keyset (k0 : Bits) (s : State) : (installNormKey k0 s).keyset = true := rfl
@[simp] theorem installNormKey_csf (k0 : Bits) (s : State) : (installNormKey k0 s).csf = s.csf := rfl
@[simp] theorem installNormKey_is (k0 : Bits) (s : State) : (installNormKey k0 s).is = (absorb s.desc s.triple (padKey s.var 0x36 k0)).is := rfl
@[simp] theorem installNormKey_rem (k0 : Bits) (s : State) : (installNormKey k0 s).rem = (absorb s.desc s.triple (padKey s.var 0x36 k0)).rem := rfl
@[simp] theorem installNormKey_plen (k0 : Bits) (s : State) : (installNormKey k0 s).plen = (absorb s.desc s.triple (padKey s.var 0x36 k0)).plen := rfl
@[simp] theorem installNormKey_kin (k0 : Bits) (s : State) : (installNormKey k0 s).kin = some (padKey s.var 0x36 k0) := rfl
@[simp] theorem installNormKey_kout (k0 : Bits) (s : State) : (installNormKey k0 s).kout = some (padKey s.var 0x5C k0) := rfl
@[simp] theorem installNormKey_cmd (k0 : Bits) (s : State) : (installNormKey k0 s).cmd = s.cmd := rfl
@[simp] theorem installNormKey_rsp (k0 : Bits) (s : State) : (installNormKey k0 s).rsp = s.rsp := rfl

/-! ### `State.resetAt`, the fields the spec gives a value -/

@[simp] theorem resetAt_phase (k : Nat) : (State.resetAt k).phase = .idle := rfl
@[simp] theorem resetAt_kin (k : Nat) : (State.resetAt k).kin = none := rfl
@[simp] theorem resetAt_kout (k : Nat) : (State.resetAt k).kout = none := rfl
@[simp] theorem resetAt_cmd (k : Nat) : (State.resetAt k).cmd = [] := rfl
@[simp] theorem resetAt_rsp (k : Nat) : (State.resetAt k).rsp = [] := rfl

/-! ### The scratch triple and the descriptor -/

@[simp] theorem triple_is (s : State) : s.triple.is = s.is := rfl
@[simp] theorem triple_rem (s : State) : s.triple.rem = s.rem := rfl
@[simp] theorem triple_plen (s : State) : s.triple.plen = s.plen := rfl
@[simp] theorem triple_setTriple (s : State) (t : Triple) : (s.setTriple t).triple = t := rfl
@[simp] theorem triple_respond (r : Response) (s : State) : (respond r s).triple = s.triple := rfl
@[simp] theorem triple_takePacket (rest : List Word) (s : State) : (takePacket rest s).triple = s.triple := rfl
@[simp] theorem triple_markUpdated (s : State) : s.markUpdated.triple = s.triple := rfl
@[simp] theorem triple_startSession (v : Variant) (o : InitOpts) (s : State) :
    (startSession v o s).triple = freshTriple v := rfl
@[simp] theorem desc_setTriple (s : State) (t : Triple) : (s.setTriple t).desc = s.desc := rfl
@[simp] theorem desc_respond (r : Response) (s : State) : (respond r s).desc = s.desc := rfl
@[simp] theorem desc_takePacket (rest : List Word) (s : State) : (takePacket rest s).desc = s.desc := rfl
@[simp] theorem desc_markUpdated (s : State) : s.markUpdated.desc = s.desc := rfl
@[simp] theorem desc_startSession (v : Variant) (o : InitOpts) (s : State) : (startSession v o s).desc = v.desc := rfl
@[simp] theorem desc_absorbRegs (b : Bits) (s : State) : (absorbRegs b s).desc = s.desc := rfl
@[simp] theorem desc_absorbPrefix (v : Variant) (o : InitOpts) (s : State) :
    (absorbPrefix v o s).desc = s.desc := rfl
@[simp] theorem desc_installNormKey (k0 : Bits) (s : State) : (installNormKey k0 s).desc = s.desc := rfl

end Sys2Proof.Machine
end

