-- ==== Sys2Proof/Laws/Exec.lean ====
section
/-!
SUPPORT. What each meaning and the step can answer: one inversion lemma each, cited instead of unfolding.
-/

namespace Sys2Proof.Machine

/-! ### Keys (42 R190 to R193) -/

theorem keyAllowed_iff (v : Variant) (nr : Word) (key : Bits) :
    keyAllowed v nr key = true ↔ v.desc.outBits ≠ 0 ∧ nr = 1 ∧ (v.md = true ∨ key.length % 8 = 0) := by
  simp [keyAllowed, lengthLegal, wholeBytes, and_assoc]

theorem length_normKey {v : Variant} {key k0 : Bits} (h : normKey v key = some k0) : k0.length = v.desc.blockBits := by
  unfold normKey at h
  split at h
  · obtain ⟨k, hk, rfl⟩ := Option.map_eq_some_iff.mp h
    rw [length_padz, length_oneShot hk]
    exact max_eq_right (outBits_lt_blockBits v).le
  · rw [← Option.some.inj h, length_padz]
    exact max_eq_right (by omega)

theorem normKey_isSome {v : Variant} {key : Bits} (h : fits v key.length) : ∃ k0, normKey v key = some k0 := by
  unfold normKey
  split
  · obtain ⟨k, hk⟩ := oneShot_isSome h
    exact ⟨_, by rw [hk]; rfl⟩
  · exact ⟨_, rfl⟩

theorem length_padKey {v : Variant} {k0 : Bits} (c : Byte) (h : k0.length = v.desc.blockBits) :
    (padKey v c k0).length = v.desc.blockBits := by
  have := blockBits_mod8 v
  rw [padKey, length_xorbits, h, length_rep]
  omega

theorem installKey_eq_some {key : Bits} {s s' : State} :
    installKey key s = some s' ↔ ∃ k0, normKey s.var key = some k0 ∧ s' = installNormKey k0 s := by
  simp [installKey, eq_comm]

/-! ### INIT (41 R157, R158) -/

theorem exec_initInstr (v : Variant) (o : InitOpts) (s : State) : exec (initInstr v o) s = initVariant v o s := by
  cases v <;> rfl

/-- A run of INIT that goes on to a next state: an error, a session without a key, or a session with one. -/
theorem initVariant_next {v : Variant} {o : InitOpts} {s t : State} (h : initVariant v o s = .next t) :
    (∃ e, initCheck v o = some e ∧ t = raiseError e s) ∨
      (initCheck v o = none ∧ ∃ s', initEffect v o s = some s' ∧ t = respond .ok s') := by
  unfold initVariant at h
  split at h
  · rename_i e he
    exact .inl ⟨e, he, (Host.Outcome.next.inj h).symm⟩
  · rename_i hn
    refine .inr ⟨hn, ?_⟩
    split at h
    · rename_i s' hs'
      exact ⟨s', hs', (Host.Outcome.next.inj h).symm⟩
    · cases h

theorem initEffect_eq_some {v : Variant} {o : InitOpts} {s s' : State} (h : initEffect v o s = some s') :
    (o.hk = none ∧ s' = absorbPrefix v o (startSession v o s)) ∨
      (∃ key k0, o.hk = some key ∧ normKey v key = some k0 ∧
        s' = installNormKey k0 (absorbPrefix v o (startSession v o s))) := by
  unfold initEffect at h
  split at h
  · rename_i hk
    exact .inl ⟨hk, (Option.some.inj h).symm⟩
  · rename_i key hk
    obtain ⟨k0, h0, rfl⟩ := installKey_eq_some.mp h
    exact .inr ⟨key, k0, hk, h0, rfl⟩

theorem initCheck_eq {v : Variant} {o : InitOpts} {e : Err} (h : initCheck v o = some e) :
    e = .unsupportedOption ∨ e = .missingRequiredOption := by
  unfold initCheck at h
  split_ifs at h
  all_goals simp_all

/-- What an accepted option set looks like (41 R157). -/
theorem initCheck_none {v : Variant} {o : InitOpts} (h : initCheck v o = none) :
    optionRefused v o = false ∧ kmacKeyMissing v o = false := by
  unfold initCheck at h
  split_ifs at h
  simp_all

theorem hk_allowed {v : Variant} {o : InitOpts} (h : initCheck v o = none) {key : Bits} (hk : o.hk = some key) :
    keyAllowed v (nrOrDefault o) key = true := by
  have := (initCheck_none h).1
  simp only [optionRefused, Bool.or_eq_false_iff, hk, Option.all_some, Bool.not_eq_false'] at this
  exact this.2

theorem nr_of_initCheck {v : Variant} {o : InitOpts} (h : initCheck v o = none) :
    1 ≤ (nrOrDefault o).toNat ∧ (v.md = false → nrOrDefault o = 1) := by
  have := (initCheck_none h).1
  simp only [optionRefused, Bool.or_eq_false_iff, Bool.and_eq_false_iff] at this
  obtain ⟨⟨⟨⟨⟨h1, -⟩, -⟩, -⟩, -⟩, -⟩ := this
  unfold nrOrDefault
  cases hn : o.nr with
  | none => simp
  | some n =>
    simp only [hn, Option.isSome_some, Bool.true_eq_false, false_or] at h1
    simp only [Bool.not_eq_false', beq_eq_false_iff_ne, ne_eq, Option.some.injEq] at h1
    refine ⟨?_, fun hm => by simp [hm] at h1⟩
    have : n.toNat ≠ 0 := fun h0 => h1.2 (by apply BitVec.eq_of_toNat_eq; simpa using h0)
    simp only [Option.getD_some]; omega

/-- Every input of the prefix is a whole number of blocks (47 R324, R326). -/
theorem length_prefixInputs {v : Variant} {o : InitOpts} : ∀ b ∈ prefixInputs v o, b.length % v.desc.blockBits = 0 := by
  intro b hb
  unfold prefixInputs at hb
  split at hb
  · split at hb
    · rw [List.mem_singleton.mp hb]; exact length_bytepad_rate v _
    · simp at hb
  · rcases List.mem_cons.mp hb with rfl | hb
    · exact length_bytepad_rate v _
    · rw [List.mem_singleton.mp hb]; exact length_bytepad_rate v _
  all_goals simp at hb

theorem prefixInputs_eq_nil {v : Variant} (o : InitOpts) (h : v.desc.outBits ≠ 0) : prefixInputs v o = [] := by
  cases v <;> first | rfl | exact absurd rfl h

theorem foldl_absorb_whole {v : Variant} {t : Triple} (hr : t.rem = []) {bs : List Bits}
    (h : ∀ b ∈ bs, b.length % v.desc.blockBits = 0) :
    bs.foldl (absorb v.desc) t =
      ⟨rounds t.is (takeBlocks bs.flatten v.desc.blockBits).1, [], counterAdd t.plen bs.flatten.length⟩ := by
  have hB := blockBits_pos v
  rw [absorb_foldl hB t (by simpa [hr] using hB)]
  refine absorb_whole hr ?_
  induction bs with
  | nil => simp
  | cons b bs ih =>
    rw [List.flatten_cons, List.length_append, Nat.add_mod, h b List.mem_cons_self,
      ih fun x hx => h x (List.mem_cons_of_mem _ hx)]
    simp

/-- The state of a session after its prefix, before any key. -/
theorem absorbPrefix_startSession (v : Variant) (o : InitOpts) (s : State) :
    absorbPrefix v o (startSession v o s) =
      { startSession v o s with
        is := rounds (newState v) (takeBlocks (prefixInputs v o).flatten v.desc.blockBits).1
        rem := []
        plen := counterOf (prefixInputs v o).flatten.length } := by
  have h := foldl_absorb_whole (v := v) (t := freshTriple v) rfl (bs := prefixInputs v o) length_prefixInputs
  rw [absorbPrefix, triple_startSession, h]
  simp only [freshTriple, State.setTriple, counterAdd_some_zero]

/-! ### The finalize commands -/

theorem answer_next {out : Option Bits} {s t : State} (h : answer out s = .next t) :
    ∃ b, out = some b ∧ t = respond (.okBits b) s := by
  cases out with
  | none => cases h
  | some b => exact ⟨b, rfl, (Host.Outcome.next.inj h).symm⟩

theorem keyedAnswer_next {s t : State} (h : keyedAnswer s = .next t) :
    ∃ kout b, s.kout = some kout ∧ hmacFinal s.var s.triple kout = some b ∧ t = respond (.okBits b) s := by
  unfold keyedAnswer at h
  split at h
  · rename_i kout hk
    obtain ⟨b, hb, rfl⟩ := answer_next h
    exact ⟨kout, b, hk, hb, rfl⟩
  · cases h

/-- The two passes of HMAC complete when the inner length fits (42 R195). -/
theorem hmacFinal_isSome {v : Variant} {t : Triple} {kout : Bits} (hf : t.is.family = v.desc.family)
    (ht : fits v t.total) (hk : kout.length = v.desc.blockBits) :
    ∃ b, hmacFinal v t kout = some b ∧ b.length = v.desc.outBits := by
  obtain ⟨inner, hin⟩ := finalize_isSome hf ht v.desc.outBits false
  have hli := length_finalize_fixed hf hin
  have hfam : (absorb v.desc (absorb v.desc (freshTriple v) kout) inner).is.family = v.desc.family := by
    rw [family_absorb]; exact family_absorb_fresh _ _
  have hfits : fits v (v.desc.blockBits + v.desc.outBits) :=
    fits_of_lt (by have := blockBits_le v; have := outBits_lt_blockBits v; omega)
  obtain ⟨b, hb⟩ := finalize_isSome hfam (by rwa [fits_absorb, total_absorb_fresh (by have := blockBits_le v; omega), hk, hli]) v.desc.outBits false
  exact ⟨b, by rw [hmacFinal, hin, Option.bind_some, hb], length_finalize_fixed hfam hb⟩

theorem execSetKey_next {key : Bits} {s t : State} (h : execSetKey key s = .next t) :
    (s.phase = .idle ∧ t = raiseError .invalidState s) ∨
      (s.phase ≠ .idle ∧ keyAllowed s.var s.nr key = false ∧ t = raiseError .unsupportedOption s) ∨
      (s.phase ≠ .idle ∧ keyAllowed s.var s.nr key = true ∧ (s.upd = true ∨ s.keyset = true) ∧
        t = raiseError .invalidState s) ∨
      (s.phase ≠ .idle ∧ keyAllowed s.var s.nr key = true ∧ s.upd = false ∧ s.keyset = false ∧
        ∃ k0, normKey s.var key = some k0 ∧ t = respond .ok (installNormKey k0 s)) := by
  unfold execSetKey at h
  split_ifs at h with h1 h2 h3
  · exact .inl ⟨h1, (Host.Outcome.next.inj h).symm⟩
  · exact .inr (.inl ⟨h1, by simpa using h2, (Host.Outcome.next.inj h).symm⟩)
  · exact .inr (.inr (.inl ⟨h1, by simpa using h2, by simpa using h3, (Host.Outcome.next.inj h).symm⟩))
  · simp only [Bool.or_eq_true, not_or, Bool.not_eq_true] at h3
    refine .inr (.inr (.inr ⟨h1, by simpa using h2, h3.1, h3.2, ?_⟩))
    split at h
    · rename_i s' hs'
      obtain ⟨k0, hk, rfl⟩ := installKey_eq_some.mp hs'
      exact ⟨k0, hk, (Host.Outcome.next.inj h).symm⟩
    · cases h

theorem execUpdate_next {data : Bits} {s t : State} (h : execUpdate data s = .next t) :
    ((s.phase = .idle ∨ lengthLegal s.var data = false) ∧ t = raiseError .invalidState s) ∨
      (s.phase ≠ .idle ∧ lengthLegal s.var data = true ∧ t = respond .ok (absorbRegs data s).markUpdated) := by
  unfold execUpdate at h
  split_ifs at h with h1 h2
  · exact .inl ⟨.inl h1, (Host.Outcome.next.inj h).symm⟩
  · exact .inl ⟨.inr (by simpa using h2), (Host.Outcome.next.inj h).symm⟩
  · exact .inr ⟨h1, by simpa using h2, (Host.Outcome.next.inj h).symm⟩

theorem execGetHash_next {len : Option Word} {s t : State} (h : execGetHash len s = .next t) :
    (s.phase = .idle ∧ t = raiseError .invalidState s) ∨
      (s.phase ≠ .idle ∧ outLen s.desc len = none ∧ t = raiseError .unsupportedOutputLength s) ∨
      (s.phase ≠ .idle ∧ ∃ L b, outLen s.desc len = some L ∧ t = respond (.okBits b) s ∧
        ((s.keyset = true ∧ ∃ kout, s.kout = some kout ∧ hmacFinal s.var s.triple kout = some b) ∨
          (s.keyset = false ∧ plainOutput s L = some b))) := by
  unfold execGetHash at h
  split at h
  · rename_i h1; exact .inl ⟨h1, (Host.Outcome.next.inj h).symm⟩
  · rename_i h1
    split at h
    · rename_i hl; exact .inr (.inl ⟨h1, hl, (Host.Outcome.next.inj h).symm⟩)
    · rename_i L hl
      refine .inr (.inr ⟨h1, L, ?_⟩)
      split at h
      · rename_i hk
        obtain ⟨kout, b, h2, h3, rfl⟩ := keyedAnswer_next h
        exact ⟨b, hl, rfl, .inl ⟨hk, kout, h2, h3⟩⟩
      · rename_i hk
        obtain ⟨b, h3, rfl⟩ := answer_next h
        exact ⟨b, hl, rfl, .inr ⟨by simpa using hk, h3⟩⟩

theorem execGetHmac_next {len : Option Word} {s t : State} (h : execGetHmac len s = .next t) :
    (s.phase = .idle ∧ t = raiseError .invalidState s) ∨
      (s.phase ≠ .idle ∧ s.keyset = false ∧ t = raiseError .noKeySet s) ∨
      (s.phase ≠ .idle ∧ s.keyset = true ∧ outLen s.desc len = none ∧ t = raiseError .unsupportedOutputLength s) ∨
      (s.phase ≠ .idle ∧ s.keyset = true ∧ ∃ L kout b, outLen s.desc len = some L ∧ s.kout = some kout ∧
        hmacFinal s.var s.triple kout = some b ∧ t = respond (.okBits b) s) := by
  unfold execGetHmac at h
  split_ifs at h with h1 h2
  · exact .inl ⟨h1, (Host.Outcome.next.inj h).symm⟩
  · exact .inr (.inl ⟨h1, by simpa using h2, (Host.Outcome.next.inj h).symm⟩)
  · split at h
    · rename_i hl; exact .inr (.inr (.inl ⟨h1, by simpa using h2, hl, (Host.Outcome.next.inj h).symm⟩))
    · rename_i L hl
      obtain ⟨kout, b, h3, h4, rfl⟩ := keyedAnswer_next h
      exact .inr (.inr (.inr ⟨h1, by simpa using h2, L, kout, b, hl, h3, h4, rfl⟩))

/-- What `OutLen` answers (41 R156). -/
theorem outLen_eq_some {d : Desc} {len : Option Word} {L : Nat} (h : outLen d len = some L) :
    (d.outBits ≠ 0 ∧ L = d.outBits ∧ (len = none ∨ ∃ n, len = some n ∧ n.toNat = L)) ∨
      (d.outBits = 0 ∧ ∃ n, len = some n ∧ n.toNat = L ∧ 0 < L ∧ L % 8 = 0) := by
  unfold outLen at h
  split at h
  · rename_i h0
    refine .inl ⟨h0, ?_⟩
    split at h
    · exact ⟨(Option.some.inj h).symm, .inl rfl⟩
    · rename_i n
      split at h
      · rename_i hn
        have := Option.some.inj h
        exact ⟨this.symm, .inr ⟨n, rfl, by omega⟩⟩
      · cases h
  · rename_i h0
    refine .inr ⟨by omega, ?_⟩
    split at h
    · cases h
    · rename_i n
      split_ifs at h with h1
      have := Option.some.inj h
      exact ⟨n, rfl, by omega⟩

/-! ### The streams -/

/-- Swaps the streams under a result: `CMD` becomes `c`, what was in front of the new response becomes `r`. -/
def onStreams (s : State) (c r : List Word) : Result → Result
  | .next t => .next { t with cmd := c, rsp := r ++ t.rsp.drop s.rsp.length }
  | .fault f => .fault f
  | .refused f => .refused f

theorem onStreams_respond (x : Response) {s s' : State} (c r : List Word) (hr : s'.rsp = s.rsp) :
    onStreams s c r (.next (respond x s')) = .next (respond x { s' with cmd := c, rsp := r }) := by
  simp [onStreams, respond, hr]

theorem onStreams_answer (out : Option Bits) (s : State) (c r : List Word) :
    answer out { s with cmd := c, rsp := r } = onStreams s c r (answer out s) := by
  cases out with
  | none => rfl
  | some b => exact (onStreams_respond (.okBits b) c r rfl).symm

theorem keyedAnswer_streams (s : State) (c r : List Word) :
    keyedAnswer { s with cmd := c, rsp := r } = onStreams s c r (keyedAnswer s) := by
  obtain ⟨ph, v, n, u, k, f, is, rem, plen, kin, kout, cmd, rsp⟩ := s
  cases kout with
  | none => rfl
  | some kout =>
    exact onStreams_answer (hmacFinal v ⟨is, rem, plen⟩ kout)
      ⟨ph, v, n, u, k, f, is, rem, plen, kin, some kout, cmd, rsp⟩ c r

/-- No command reads the streams: with other words in them it does the same and appends the same response. -/
theorem exec_streams (i : Instr) (s : State) (c r : List Word) :
    exec i { s with cmd := c, rsp := r } = onStreams s c r (exec i s) := by
  have hf : ∀ e, failWith e { s with cmd := c, rsp := r } = onStreams s c r (failWith e s) := fun e =>
    (onStreams_respond (.error e) c r rfl).symm
  have hs : ∀ s' : State, s'.rsp = s.rsp → succeed { s' with cmd := c, rsp := r } = onStreams s c r (succeed s') :=
    fun s' h => (onStreams_respond .ok c r h).symm
  rcases instr_cases i with ⟨v, o, rfl⟩ | ⟨_, o, rfl⟩ | ⟨d, rfl⟩ | ⟨l, rfl⟩ | ⟨l, rfl⟩ | ⟨k, rfl⟩
  · rw [exec_initInstr, exec_initInstr]
    unfold initVariant
    cases initCheck v o with
    | some e => exact hf e
    | none =>
      simp only [initEffect, installKey]
      cases o.hk with
      | none => exact hs (absorbPrefix v o (startSession v o s)) rfl
      | some key =>
        simp only [absorbPrefix_var, startSession_var]
        cases normKey v key with
        | none => rfl
        | some k0 => exact hs (installNormKey k0 (absorbPrefix v o (startSession v o s))) rfl
  · exact hf _
  · show execUpdate d _ = onStreams s c r (execUpdate d s)
    unfold execUpdate
    split_ifs
    exacts [hf _, hf _, hs (absorbRegs d s).markUpdated rfl]
  · show execGetHash l _ = onStreams s c r (execGetHash l s)
    unfold execGetHash
    show (if s.phase = .idle then _ else match outLen s.desc l with | none => _ | some L => if s.keyset = true then _ else _) = _
    split
    · exact hf _
    · cases outLen s.desc l with
      | none => exact hf _
      | some L =>
        simp only
        split
        · exact keyedAnswer_streams s c r
        · exact onStreams_answer _ s c r
  · show execGetHmac l _ = onStreams s c r (execGetHmac l s)
    unfold execGetHmac
    show (if s.phase = .idle then _ else if (!s.keyset) = true then _ else match outLen s.desc l with | none => _ | some L => _) = _
    split_ifs
    · exact hf _
    · exact hf _
    · cases outLen s.desc l with
      | none => exact hf _
      | some L => exact keyedAnswer_streams s c r
  · show execSetKey k _ = onStreams s c r (execSetKey k s)
    unfold execSetKey
    split_ifs
    · exact hf _
    · exact hf _
    · exact hf _
    · simp only [installKey]
      cases normKey s.var k with
      | none => rfl
      | some k0 => exact hs (installNormKey k0 s) rfl

/-! ### The step -/

theorem step_of_cmd {s : State} {i : Instr} {rest : List Word} (h : decode s.cmd = .cmd i rest) :
    step s = exec i (takePacket rest s) := by simp [step, fetch, h]

theorem step_of_illegal {s : State} {why : IllegalWhy} {rest : List Word} (h : decode s.cmd = .illegal why rest) :
    step s = .next (raiseError .illegalCommand (takePacket rest s)) := by
  simp [step, fetch, h, illegalHeader, failWith]

theorem step_of_wait {s : State} (h : decode s.cmd = .wait) : step s = .next s := by
  simp [step, fetch, h, waitForWords]

theorem step_next {s t : State} (h : step s = .next t) :
    (∃ i rest, decode s.cmd = .cmd i rest ∧ exec i (takePacket rest s) = .next t) ∨
      (∃ why rest, decode s.cmd = .illegal why rest ∧ t = raiseError .illegalCommand (takePacket rest s)) ∨
      (decode s.cmd = .wait ∧ t = s) := by
  cases hd : decode s.cmd with
  | cmd i rest => exact .inl ⟨i, rest, rfl, by rw [← step_of_cmd hd, h]⟩
  | illegal why rest =>
    rw [step_of_illegal hd] at h
    exact .inr (.inl ⟨why, rest, rfl, (Host.Outcome.next.inj h).symm⟩)
  | wait =>
    rw [step_of_wait hd] at h
    exact .inr (.inr ⟨rfl, (Host.Outcome.next.inj h).symm⟩)

end Sys2Proof.Machine
end

