-- ==== Sys2Proof/Laws/PerInstr.lean ====
section
/-!
SUPPORT. Laws of every command as syntax, one lemma per constructor of `Instr`.
-/

namespace Sys2Proof.Laws.HeaderLegal

/-- The packet of the command begins with a header word that is not illegal (spec/30_encoding.md R92, R100), whatever
the operands. -/
def Statement (i : Instr) : Prop := ∃ h rest, encode i = h :: rest ∧ headerFault h = none

theorem initSha1 (o : InitOpts) : Statement (.initSha1 o) := ⟨_, _, rfl, headerFault_init o _⟩
theorem initSha224 (o : InitOpts) : Statement (.initSha224 o) := ⟨_, _, rfl, headerFault_init o _⟩
theorem initSha256 (o : InitOpts) : Statement (.initSha256 o) := ⟨_, _, rfl, headerFault_init o _⟩
theorem initSha384 (o : InitOpts) : Statement (.initSha384 o) := ⟨_, _, rfl, headerFault_init o _⟩
theorem initSha512 (o : InitOpts) : Statement (.initSha512 o) := ⟨_, _, rfl, headerFault_init o _⟩
theorem initSha3_224 (o : InitOpts) : Statement (.initSha3_224 o) := ⟨_, _, rfl, headerFault_init o _⟩
theorem initSha3_256 (o : InitOpts) : Statement (.initSha3_256 o) := ⟨_, _, rfl, headerFault_init o _⟩
theorem initSha3_384 (o : InitOpts) : Statement (.initSha3_384 o) := ⟨_, _, rfl, headerFault_init o _⟩
theorem initSha3_512 (o : InitOpts) : Statement (.initSha3_512 o) := ⟨_, _, rfl, headerFault_init o _⟩
theorem initShake128 (o : InitOpts) : Statement (.initShake128 o) := ⟨_, _, rfl, headerFault_init o _⟩
theorem initShake256 (o : InitOpts) : Statement (.initShake256 o) := ⟨_, _, rfl, headerFault_init o _⟩
theorem initCshake128 (o : InitOpts) : Statement (.initCshake128 o) := ⟨_, _, rfl, headerFault_init o _⟩
theorem initCshake256 (o : InitOpts) : Statement (.initCshake256 o) := ⟨_, _, rfl, headerFault_init o _⟩
theorem initKmac128 (o : InitOpts) : Statement (.initKmac128 o) := ⟨_, _, rfl, headerFault_init o _⟩
theorem initKmac256 (o : InitOpts) : Statement (.initKmac256 o) := ⟨_, _, rfl, headerFault_init o _⟩
theorem initUnknown (var : Byte) (o : InitOpts) : Statement (.initUnknown var o) :=
  ⟨_, _, rfl, headerFault_init o _⟩
theorem update (data : Bits) : Statement (.update data) := ⟨_, _, rfl, headerFault_P _ (.inl rfl)⟩
theorem getHash (len : Option Word) : Statement (.getHash len) := ⟨_, _, rfl, headerFault_G _ _ (.inl rfl)⟩
theorem getHmac (len : Option Word) : Statement (.getHmac len) := ⟨_, _, rfl, headerFault_G _ _ (.inr rfl)⟩
theorem setKey (key : Bits) : Statement (.setKey key) := ⟨_, _, rfl, headerFault_P _ (.inr rfl)⟩

end Sys2Proof.Laws.HeaderLegal
end

