-- ==== Sys2Proof/Laws/Session.lean ====
section
/-!
SUPPORT. What the commands answer when they succeed, and what runs of them leave behind
(spec/41_incremental_engine.md R158 to R164, spec/42_hmac.md R191 to R194).
-/

namespace Sys2Proof.Machine

/-! ### One command -/

/-- INIT whose checks pass, without an HMAC key. -/
theorem exec_init_of_check {v : Variant} {o : InitOpts} {s : State} (hc : initCheck v o = none) (hk : o.hk = none) :
    exec (initInstr v o) s = .next (respond .ok (absorbPrefix v o (startSession v o s))) := by
  rw [exec_initInstr]
  unfold initVariant
  rw [hc]
  simp only [initEffect, hk, succeed]

theorem absorbPrefix_of_nil {v : Variant} {o : InitOpts} {s : State} (h : prefixInputs v o = []) :
    absorbPrefix v o (startSession v o s) = startSession v o s := by
  rw [absorbPrefix_startSession, h]
  simp [takeBlocks_short (b := []) (B := v.desc.blockBits) (by simpa using blockBits_pos v), rounds, startSession]

theorem exec_update_of_legal {d : Bits} {s : State} (hp : s.phase ≠ .idle) (h : s.var.md = true ∨ d.length % 8 = 0) :
    exec (.update d) s = .next (respond .ok (absorbRegs d s).markUpdated) := by
  have hl : lengthLegal s.var d = true := by simp [lengthLegal, wholeBytes, h]
  show execUpdate d s = _
  simp [execUpdate, hp, hl, succeed]

theorem exec_setKey_of_allowed {k k0 : Bits} {s : State} (hp : s.phase ≠ .idle) (ha : keyAllowed s.var s.nr k = true)
    (hu : s.upd = false) (hk : s.keyset = false) (h : normKey s.var k = some k0) :
    exec (.setKey k) s = .next (respond .ok (installNormKey k0 s)) := by
  show execSetKey k s = _
  simp [execSetKey, hp, ha, hu, hk, installKey, h, succeed]

/-- GETHASH of a session with one round and no key. -/
theorem exec_getHash_plain {s : State} {len : Option Word} {L : Nat} (hp : s.phase ≠ .idle) (hn : s.nr = 1)
    (hk : s.keyset = false) (hL : outLen s.desc len = some L) :
    exec (.getHash len) s = answer (finalize s.desc s.triple L s.csf) s := by
  show execGetHash len s = _
  unfold execGetHash
  rw [if_neg hp, hL]
  simp only [hk, plainOutput, hn, Bool.false_eq_true, if_false]
  cases finalize s.desc s.triple L s.csf <;> rfl

/-! ### Sound sessions -/

theorem hmacFinal_of_sound {s : State} (h : SessionInv s) (hk : s.keyset = true) (hf : LengthFits s) :
    ∃ kout b, s.kout = some kout ∧ hmacFinal s.var s.triple kout = some b ∧ b.length = s.desc.outBits := by
  have hko := h.key_kout
  rw [hk, if_pos rfl] at hko
  obtain ⟨kout, hkout, hlen⟩ := Option.map_eq_some_iff.mp hko
  obtain ⟨b, hb, hl⟩ := hmacFinal_isSome (v := s.var) (t := s.triple) h.view hf hlen
  exact ⟨kout, b, hkout, hb, hl⟩

theorem plainOutput_of_sound {s : State} (h : SessionInv s) (hf : LengthFits s) (L : Nat)
    (hL : s.desc.outBits ≠ 0 → L = s.desc.outBits) : ∃ b, plainOutput s L = some b ∧ b.length = L := by
  obtain ⟨o, ho⟩ := finalize_isSome (v := s.var) (t := s.triple) h.view hf L s.csf
  by_cases h0 : s.desc.outBits = 0
  · have hm : s.var.md = false := by
      unfold State.desc at h0
      generalize s.var = v at *
      cases v <;> first | rfl | exact absurd h0 (by decide)
    have hn : s.nr.toNat - 1 = 0 := by rw [h.sponge_nr hm]; rfl
    refine ⟨o, ?_, length_finalize_sponge h.view hm ho⟩
    unfold plainOutput
    rw [show finalize s.desc s.triple L s.csf = some o from ho, hn]
    rfl
  · have hl := hL h0
    subst hl
    obtain ⟨b, hb, hbl⟩ := iterate_isSome (v := s.var) (s.nr.toNat - 1) (length_finalize_fixed h.view ho)
    refine ⟨b, ?_, hbl⟩
    unfold plainOutput
    rw [show finalize s.desc s.triple _ s.csf = some o from ho]
    exact hb

/-! ### Runs -/

theorem runCommands_cons {i : Instr} {is : List Instr} {s t : State} (h : exec i s = .next t) :
    runCommands (i :: is) s = runCommands is t := by simp [runCommands, h]

/-- UPDATE of one chunk after another is one absorption of them all. -/
theorem runCommands_updates {cs : List Bits} (hne : cs ≠ []) {s : State} (hp : s.phase ≠ .idle)
    (h : ∀ c ∈ cs, s.var.md = true ∨ c.length % 8 = 0) :
    ∃ r, runCommands (cs.map .update) s = .next { (absorbRegs cs.flatten s).markUpdated with rsp := r } := by
  induction cs generalizing s with
  | nil => exact absurd rfl hne
  | cons c cs ih =>
    rw [List.map_cons, runCommands_cons (exec_update_of_legal hp (h c List.mem_cons_self))]
    by_cases hcs : cs = []
    · subst hcs
      exact ⟨s.rsp ++ [0], by simp [runCommands, respond, encodeResponse]⟩
    · obtain ⟨r, hr⟩ := ih (s := respond .ok (absorbRegs c s).markUpdated) hcs (by simp)
        fun x hx => h x (List.mem_cons_of_mem _ hx)
      refine ⟨r, ?_⟩
      have e : absorbRegs (c ++ cs.flatten) s = s.setTriple (absorb s.desc (absorb s.desc s.triple c) cs.flatten) := by
        unfold absorbRegs
        rw [absorb_append (d := s.desc) (blockBits_pos s.var) s.triple c cs.flatten]
      rw [hr, List.flatten_cons, e]
      rfl

/-- What INIT and UPDATEs leave: the registers a finalize reads. -/
theorem runCommands_session {v : Variant} {o : InitOpts} {cs : List Bits} {s : State} (hc : initCheck v o = none)
    (hk : o.hk = none) (h : ∀ c ∈ cs, v.md = true ∨ c.length % 8 = 0) :
    ∃ t, runCommands (initInstr v o :: cs.map .update) s = .next t ∧ t.phase ≠ .idle ∧ t.var = v ∧
      t.nr = nrOrDefault o ∧ t.keyset = false ∧ t.csf = csfAtInit v o ∧
      t.triple = absorb v.desc (freshTriple v) ((prefixInputs v o).flatten ++ cs.flatten) := by
  have hB := blockBits_pos v
  rw [runCommands_cons (exec_init_of_check hc hk)]
  set s0 := respond .ok (absorbPrefix v o (startSession v o s)) with hs0
  have ht : s0.triple = absorb v.desc (freshTriple v) (prefixInputs v o).flatten := by
    rw [← absorb_foldl hB (freshTriple v) (by simpa [freshTriple] using hB)]
    rfl
  by_cases hcs : cs = []
  · subst hcs
    exact ⟨s0, rfl, by simp [hs0], rfl, rfl, rfl, rfl, by simpa using ht⟩
  · obtain ⟨r, hr⟩ := runCommands_updates (s := s0) hcs (by simp [hs0]) h
    refine ⟨_, hr, by simp, rfl, rfl, rfl, rfl, ?_⟩
    rw [← absorb_append hB, ← ht]
    rfl

/-- Every command that goes on keeps `CMD` and appends to `RSP`. -/
theorem exec_next_streams {i : Instr} {s t : State} (h : exec i s = .next t) :
    ∃ x, t.rsp = s.rsp ++ x ∧ t.cmd = s.cmd := by
  rcases instr_cases i with ⟨v, o, rfl⟩ | ⟨_, o, rfl⟩ | ⟨d, rfl⟩ | ⟨l, rfl⟩ | ⟨l, rfl⟩ | ⟨k, rfl⟩
  · rw [exec_initInstr] at h
    obtain ⟨e, -, rfl⟩ | ⟨-, s', hs', rfl⟩ := initVariant_next h
    · exact ⟨_, rfl, rfl⟩
    · obtain ⟨-, rfl⟩ | ⟨key, k0, -, -, rfl⟩ := initEffect_eq_some hs' <;> exact ⟨_, rfl, rfl⟩
  · cases h; exact ⟨_, rfl, rfl⟩
  · obtain ⟨-, rfl⟩ | ⟨-, -, rfl⟩ := execUpdate_next h <;> exact ⟨_, rfl, rfl⟩
  · obtain ⟨-, rfl⟩ | ⟨-, -, rfl⟩ | ⟨-, L, b, -, rfl, -⟩ := execGetHash_next h <;> exact ⟨_, rfl, rfl⟩
  · obtain ⟨-, rfl⟩ | ⟨-, -, rfl⟩ | ⟨-, -, -, rfl⟩ | ⟨-, -, L, ko, b, -, -, -, rfl⟩ := execGetHmac_next h <;>
      exact ⟨_, rfl, rfl⟩
  · obtain ⟨-, rfl⟩ | ⟨-, -, rfl⟩ | ⟨-, -, -, rfl⟩ | ⟨-, -, -, -, k0, -, rfl⟩ := execSetKey_next h <;>
      exact ⟨_, rfl, rfl⟩

/-- A run does not read the streams: with other words in them it does the same and appends the same words. -/
theorem runCommands_streams (is : List Instr) (s : State) (c r : List Word) {t : State}
    (h : runCommands is s = .next t) :
    ∃ x, t.rsp = s.rsp ++ x ∧ t.cmd = s.cmd ∧
      runCommands is { s with cmd := c, rsp := r } = .next { t with cmd := c, rsp := r ++ x } := by
  induction is generalizing s r with
  | nil =>
    cases h
    exact ⟨[], by simp, rfl, by simp [runCommands]⟩
  | cons i is ih =>
    simp only [runCommands] at h ⊢
    rw [exec_streams]
    cases he : exec i s with
    | next s1 =>
      rw [he] at h
      obtain ⟨y, h1, h2⟩ := exec_next_streams he
      obtain ⟨x, hx1, hx2, hx3⟩ := ih s1 (r ++ y) h
      refine ⟨y ++ x, by rw [hx1, h1, List.append_assoc], hx2.trans h2, ?_⟩
      simp only [onStreams, h1, List.drop_left]
      rw [hx3, List.append_assoc]
    | fault f => rw [he] at h; cases h
    | refused f => rw [he] at h; cases h

end Sys2Proof.Machine
end

