-- ==== Sys2Proof/Laws/Units.lean ====
section
/-!
SUPPORT. What the units do bit by bit: rotations, packing, the message schedules, the lanes of the permutation, the
sponge padding, the length encodings (spec/00_scope.md R8, R9, spec/40_bit_buffer.md R133, R134,
spec/46_keccak_sponge.md R280 to R292, spec/47_cshake_kmac.md R320).
-/

namespace Sys2Proof

/-! ### Bits of words -/

theorem getLsbD_rotl {w : Nat} (v : BitVec w) {n i : Nat} (hn : n < w) (hi : i < w) :
    (rotl v n).getLsbD ((i + n) % w) = v.getLsbD i := by
  simp only [rotl, BitVec.getLsbD_or, BitVec.getLsbD_shiftLeft, BitVec.getLsbD_ushiftRight]
  by_cases h : i + n < w
  · rw [Nat.mod_eq_of_lt h]
    have h1 : ¬ (i + n < n) := by omega
    have h2 : v.getLsbD (w - n + (i + n)) = false := BitVec.getLsbD_of_ge _ _ (by omega)
    simp [h, h1, h2]
  · have e : (i + n) % w = i + n - w := by rw [Nat.mod_eq_sub_mod (by omega), Nat.mod_eq_of_lt (by omega)]
    rw [e]
    have h1 : i + n - w < n := by omega
    have h2 : w - n + (i + n - w) = i := by omega
    simp [h1, h2]

theorem getLsbD_ofNat_intBE {w : Nat} {b : Bits} (h : b.length = w) {j : Nat} (hj : j < w) :
    (BitVec.ofNat w (intBE b)).getLsbD j = b.getD (w - 1 - j) false := by
  subst h
  have ht := testBit_intBE b (b.length - 1 - j) (by omega)
  rw [show b.length - 1 - (b.length - 1 - j) = j by omega] at ht
  rw [BitVec.getLsbD_ofNat, ht, decide_eq_true hj, Bool.true_and, List.getD_eq_getElem _ _ (by omega)]

theorem getD_take_drop (P : Bits) (a n i : Nat) (h : i < n) (hl : a + n ≤ P.length) :
    ((P.drop a).take n).getD i false = P.getD (a + i) false := by
  rw [List.getD_eq_getElem _ _ (by simp; omega), List.getD_eq_getElem _ _ (by omega)]
  simp

theorem getLsbD_bytes (P : Bits) (i b : Nat) (hi : 8 * i + 8 ≤ P.length) (hb : b < 8) :
    ((bytes P).getD i 0).getLsbD (7 - b) = P.getD (8 * i + b) false := by
  rw [List.getD_eq_getElem _ _ (by rw [length_bytes]; omega)]
  have h : (bytes P)[i]'(by rw [length_bytes]; omega) = BitVec.ofNat 8 (intBE ((P.drop (i * 8)).take 8)) := by
    simp [bytes, takeBlocks]
  rw [h, getLsbD_ofNat_intBE (by simp; omega) (by omega), getD_take_drop _ _ _ _ (by omega) (by omega)]
  congr 1; omega

theorem testBit_intLE (B : List Byte) (j b : Nat) (hj : j < B.length) (hb : b < 8) :
    (intLE B).testBit (8 * j + b) = (B.getD j 0).getLsbD b := by
  induction B generalizing j with
  | nil => simp at hj
  | cons x B ih =>
    have e : intLE (x :: B) = 2 ^ 8 * intLE B + x.toNat := by show x.toNat + 256 * intLE B = _; omega
    rw [e, Nat.testBit_two_pow_mul_add _ x.isLt]
    cases j with
    | zero => simp [hb, BitVec.getLsbD]
    | succ j =>
      rw [List.getD_cons_succ, ← ih j (by simpa using hj), if_neg (by omega)]
      congr 1; omega

theorem intBE_append (a b : Bits) : intBE (a ++ b) = intBE a * 2 ^ b.length + intBE b := by
  induction b using List.reverseRecOn with
  | nil => simp [intBE]
  | append_singleton b x ih =>
    rw [← List.append_assoc, intBE_append_singleton, intBE_append_singleton, ih, List.length_append,
      List.length_singleton, Nat.pow_succ]
    ring

namespace Machine

/-! ### Message schedules -/

theorem length_extendSchedule {w : Nat} (f : (Nat → BitVec w) → BitVec w) (n : Nat) (L : List (BitVec w)) :
    (extendSchedule f n L).length = n + L.length := by
  induction n generalizing L with
  | zero => simp [extendSchedule]
  | succ n ih => rw [extendSchedule, ih]; simp; omega

/-- By index: the words one starts with stay, every later one is the recurrence. -/
theorem extendSchedule_getD {w : Nat} (f : (Nat → BitVec w) → BitVec w)
    (hf : ∀ g g' : Nat → BitVec w, (∀ k, 1 ≤ k → k ≤ 16 → g k = g' k) → f g = f g') (n : Nat) (L : List (BitVec w))
    (hL : 16 ≤ L.length) :
    (∀ t, t < L.length → (extendSchedule f n L).reverse.getD t 0 = L.reverse.getD t 0) ∧
      ∀ t, L.length ≤ t → t < L.length + n →
        (extendSchedule f n L).reverse.getD t 0 = f fun k => (extendSchedule f n L).reverse.getD (t - k) 0 := by
  induction n generalizing L with
  | zero => exact ⟨fun _ _ => rfl, fun t h1 h2 => by omega⟩
  | succ n ih =>
    obtain ⟨h1, h2⟩ := ih (f (fun k => L.getD (k - 1) 0) :: L) (by simp; omega)
    simp only [extendSchedule]
    have c1 : ∀ t, t < L.length →
        (extendSchedule f n (f (fun k => L.getD (k - 1) 0) :: L)).reverse.getD t 0 = L.reverse.getD t 0 := by
      intro t ht
      rw [h1 t (by simp; omega), List.reverse_cons, List.getD_append _ _ _ _ (by simpa using ht)]
    refine ⟨c1, fun t h3 h4 => ?_⟩
    by_cases he : t = L.length
    · subst he
      rw [h1 L.length (by simp), List.reverse_cons, List.getD_append_right _ _ _ _ (by simp)]
      simp only [List.length_reverse, Nat.sub_self, List.getD_cons_zero]
      apply hf
      intro k hk1 hk2
      rw [c1 (L.length - k) (by omega), List.getD_eq_getElem _ _ (by omega), List.getD_eq_getElem _ _ (by simp; omega),
        List.getElem_reverse]
      congr 1; omega
    · exact h2 t (by simp; omega) (by simp; omega)

/-! ### Lanes -/

theorem Lanes.get_of (f : Fin 5 → Fin 5 → Lane) (x y : Fin 5) : (Lanes.of f).get x y = f x y := by
  fin_cases x <;> fin_cases y <;> rfl

theorem Row.get_of (f : Fin 5 → Lane) (x : Fin 5) : (Row.of f).get x = f x := by fin_cases x <;> rfl

theorem Lanes.ext_get {A B : Lanes} (h : ∀ x y, A.get x y = B.get x y) : A = B := by
  obtain ⟨⟨_, _, _, _, _⟩, ⟨_, _, _, _, _⟩, ⟨_, _, _, _, _⟩, ⟨_, _, _, _, _⟩, ⟨_, _, _, _, _⟩⟩ := A
  obtain ⟨⟨_, _, _, _, _⟩, ⟨_, _, _, _, _⟩, ⟨_, _, _, _, _⟩, ⟨_, _, _, _, _⟩, ⟨_, _, _, _, _⟩⟩ := B
  simp only [Lanes.mk.injEq, Row.mk.injEq]
  exact ⟨⟨h 0 0, h 1 0, h 2 0, h 3 0, h 4 0⟩, ⟨h 0 1, h 1 1, h 2 1, h 3 1, h 4 1⟩, ⟨h 0 2, h 1 2, h 2 2, h 3 2, h 4 2⟩,
    ⟨h 0 3, h 1 3, h 2 3, h 3 3, h 4 3⟩, ⟨h 0 4, h 1 4, h 2 4, h 3 4, h 4 4⟩⟩

theorem Lanes.toList_getD (A : Lanes) (x y : Fin 5) : A.toList.getD (x.val + 5 * y.val) 0 = A.get x y := by
  fin_cases x <;> fin_cases y <;> rfl

/-! ### The sponge padding -/

theorem modify_at_length (l r : List Byte) (x : Byte) (f : Byte → Byte) :
    (l ++ x :: r).modify l.length f = l ++ f x :: r := by
  induction l with
  | nil => rfl
  | cons a l ih => simpa using ih

/-- The padding byte by byte (46 R292). -/
theorem spongePad_eq {R : Bits} {r : Nat} (delim : Byte) (h8 : R.length % 8 = 0) (hr : r % 8 = 0) (h : R.length < r) :
    spongePad R r delim = R ++ bitsOfBytes (if r / 8 - R.length / 8 = 1 then [delim ^^^ 0x80]
      else delim :: (List.replicate (r / 8 - R.length / 8 - 2) 0 ++ [0x80])) := by
  obtain ⟨Q, rfl⟩ : ∃ Q, R = bitsOfBytes Q := ⟨bytes R, (bitsOfBytes_bytes R h8).symm⟩
  rw [length_bitsOfBytes] at h8 h ⊢
  rw [Nat.mul_div_cancel_left _ (by decide)]
  unfold spongePad
  simp only [bytes_bitsOfBytes, length_bitsOfBytes]
  rw [Nat.mul_div_cancel_left _ (by decide), bitsOfBytes, bitsOfBytes, bitsOfBytes, ← List.flatMap_append]
  congr 1
  have hm : Q.length < r / 8 := by omega
  generalize r / 8 = m at *
  obtain ⟨k, rfl⟩ : ∃ k, m = Q.length + 1 + k := ⟨m - Q.length - 1, by omega⟩
  rw [show Q.length + 1 + k - Q.length = k + 1 by omega, List.replicate_succ, modify_at_length]
  by_cases hk : k = 0
  · subst hk
    simp only [if_true, Nat.add_zero, Nat.add_sub_cancel]
    rw [List.replicate_zero, modify_at_length]
    simp
  · obtain ⟨j, rfl⟩ : ∃ j, k = j + 1 := ⟨k - 1, by omega⟩
    rw [if_neg (by omega)]
    have e : Q.length + 1 + (j + 1) - 1 = (Q ++ (0 ^^^ delim) :: List.replicate j 0).length := by
      rw [List.length_append, List.length_cons, List.length_replicate]; omega
    rw [show List.replicate (j + 1) (0 : Byte) = List.replicate j 0 ++ [0] from List.replicate_succ',
      show Q ++ (0 ^^^ delim) :: (List.replicate j 0 ++ [0]) = (Q ++ (0 ^^^ delim) :: List.replicate j 0) ++ 0 :: [] by simp,
      e, modify_at_length, show j + 1 + 1 - 2 = j by omega]
    simp

/-! ### The length encodings -/

theorem byteCount_spec (x : Nat) :
    1 ≤ byteCount x ∧ x < 2 ^ (8 * byteCount x) ∧ ∀ k, 1 ≤ k → x < 2 ^ (8 * k) → byteCount x ≤ k := by
  unfold byteCount
  split
  · rename_i h; subst h; exact ⟨le_refl _, by decide, fun k h _ => h⟩
  · rename_i h
    refine ⟨by omega, (Nat.log2_lt h).mp (by omega), fun k hk hx => ?_⟩
    have := (Nat.log2_lt h).mpr hx
    omega

end Machine

end Sys2Proof
end

