-- ==== Sys2Proof/Tests/Slice0.lean ====
section
/-!
SUPPORT. Tests. Expected values come from spec/95_test_vectors.md (the vector is named at each test) or from the encoding
tables of spec/30_encoding.md. After them, one witness per statement that has hypotheses.
-/

namespace Sys2Proof.Tests

open Sys2Proof.Machine

set_option Elab.async false

/-! ### Helpers -/

/-- No option present. -/
def plain : InitOpts := ⟨none, none, none, none, none⟩

/-- An Idle engine with something in every register. -/
def idle : State :=
  { phase := .idle, var := .sha512, nr := 7, upd := true, keyset := true, csf := true, is := .sha1 sha1Initial,
    rem := [true], plen := some 3, kin := none, kout := none, cmd := [], rsp := [] }

/-- A session of `v` right after INIT without options (CSHAKE: without framing; for KMAC see `kmacSession`). -/
def session (v : Variant) : State :=
  { phase := .fresh, var := v, nr := 1, upd := false, keyset := false, csf := csfAtInit v plain, is := newState v,
    rem := [], plen := some 0, kin := none, kout := none, cmd := [], rsp := [] }

/-- The session after one UPDATE with fewer bits than a block. -/
def fed (v : Variant) (m : Bits) : State := { session v with phase := .updating, upd := true, rem := m }

/-- A SHA-256 session with the empty key. -/
def keyed : State := installNormKey (zeros 512) (session .sha256)

/-- The words in `RSP` after a step, `none` where there is no next state. -/
def words : Result → Option (List Word)
  | .next t => some t.rsp
  | .fault _ => none
  | .refused _ => none

/-- The next state, the reset state where there is none. -/
def after : Result → State
  | .next t => t
  | .fault _ => idle
  | .refused _ => idle

/-- The bytes "abc". -/
def abc : Bits := bitsOfBytes [0x61, 0x62, 0x63]

/-! ### WellFormed: every check refuses an ill-formed term -/

/-- One bit more than a length word can say. -/
@[irreducible] def tooLong : Bits := List.replicate (2 ^ 32) false

theorem tooLong_unfit : payloadFits tooLong = false := by
  unfold tooLong payloadFits
  rw [List.length_replicate]
  decide

theorem unfit_option {p : Bits} (h : payloadFits p = false) :
    (Instr.initSha1 { plain with hk := some p }).wellFormed = false ∧
    (Instr.initCshake128 { plain with fn := some p }).wellFormed = false ∧
    (Instr.initCshake256 { plain with cu := some p }).wellFormed = false ∧
    (Instr.initKmac128 { plain with kk := some p }).wellFormed = false := by
  simp [Instr.wellFormed, InitOpts.wellFormed, h]

theorem test_wf_refuses_long_update : (Instr.update tooLong).wellFormed = false := tooLong_unfit
theorem test_wf_refuses_long_setkey : (Instr.setKey tooLong).wellFormed = false := tooLong_unfit
theorem test_wf_refuses_long_options :
    (Instr.initSha1 { plain with hk := some tooLong }).wellFormed = false ∧
    (Instr.initCshake128 { plain with fn := some tooLong }).wellFormed = false ∧
    (Instr.initCshake256 { plain with cu := some tooLong }).wellFormed = false ∧
    (Instr.initKmac128 { plain with kk := some tooLong }).wellFormed = false := unfit_option tooLong_unfit
theorem test_wf_refuses_known_code_as_unknown : (Instr.initUnknown 0x41 plain).wellFormed = false := by decide
theorem test_wf_accepts_unknown_code : (Instr.initUnknown 0x99 plain).wellFormed = true := by decide

/-! ### Decode: words written out from the encoding tables -/

/-- 30 R91, R94, R95: op 0x01, no flag, the fifteen codes. -/
theorem test_decode_init_codes :
    decode [0x01000001] = .cmd (.initSha1 plain) [] ∧ decode [0x01000002] = .cmd (.initSha224 plain) [] ∧
    decode [0x01000003] = .cmd (.initSha256 plain) [] ∧ decode [0x01000004] = .cmd (.initSha384 plain) [] ∧
    decode [0x01000005] = .cmd (.initSha512 plain) [] ∧ decode [0x01000010] = .cmd (.initSha3_224 plain) [] ∧
    decode [0x01000011] = .cmd (.initSha3_256 plain) [] ∧ decode [0x01000012] = .cmd (.initSha3_384 plain) [] ∧
    decode [0x01000013] = .cmd (.initSha3_512 plain) [] ∧ decode [0x01000020] = .cmd (.initShake128 plain) [] ∧
    decode [0x01000021] = .cmd (.initShake256 plain) [] ∧ decode [0x01000030] = .cmd (.initCshake128 plain) [] ∧
    decode [0x01000031] = .cmd (.initCshake256 plain) [] ∧ decode [0x01000040] = .cmd (.initKmac128 plain) [] ∧
    decode [0x01000041] = .cmd (.initKmac256 plain) [] ∧ decode [0x01000099] = .cmd (.initUnknown 0x99 plain) [] := by
  decide +kernel

/-- V-EN1. -/
theorem test_decode_init_options :
    decode [0x01010005, 0x00000003] = .cmd (.initSha512 { plain with nr := some 3 }) [] ∧
    decode [0x01020003, 0x00000000] = .cmd (.initSha256 { plain with hk := some [] }) [] ∧
    decode [0x010C0030, 0x00000000, 0x00000078, 0x456D6169, 0x6C205369, 0x676E6174, 0x75726500] =
      .cmd (.initCshake128 { plain with
        fn := some []
        cu := some (bitsOfBytes [0x45, 0x6D, 0x61, 0x69, 0x6C, 0x20, 0x53, 0x69, 0x67, 0x6E, 0x61, 0x74, 0x75, 0x72,
          0x65]) }) [] ∧
    decode [0x01180041, 0x00000010, 0x61620000, 0x00000028, 0x01020304, 0x05000000] =
      .cmd (.initKmac256 { plain with
        cu := some (bitsOfBytes [0x61, 0x62])
        kk := some (bitsOfBytes [0x01, 0x02, 0x03, 0x04, 0x05]) }) [] := by
  decide +kernel

/-- V-EN1: UPDATE, SETKEY, GETHASH, GETHMAC. -/
theorem test_decode_other_commands :
    decode [0x02000000, 0x00000048, 0x01020304, 0x05060708, 0x09000000] =
      .cmd (.update (bitsOfBytes [1, 2, 3, 4, 5, 6, 7, 8, 9])) [] ∧
    decode [0x05000000, 0x00000020, 0x0B0B0B0B] = .cmd (.setKey (bitsOfBytes [0x0B, 0x0B, 0x0B, 0x0B])) [] ∧
    decode [0x03000000] = .cmd (.getHash none) [] ∧ decode [0x03010000, 0x00000100] = .cmd (.getHash (some 256)) [] ∧
    decode [0x04000000] = .cmd (.getHmac none) [] ∧ decode [0x04010000, 0x000000A0] = .cmd (.getHmac (some 160)) [] := by
  decide +kernel

/-- V-EN2: one word, the rest stays. -/
theorem test_decode_illegal :
    decode [0x00000000, 0x03000000] = .illegal .unknownOpcode [0x03000000] ∧
    decode [0x06000000] = .illegal .unknownOpcode [] ∧ decode [0xFF000000] = .illegal .unknownOpcode [] ∧
    decode [0x01000101] = .illegal .reservedField [] ∧ decode [0x01200001] = .illegal .reservedField [] ∧
    decode [0x01800001] = .illegal .reservedField [] ∧ decode [0x02010000] = .illegal .reservedField [] ∧
    decode [0x02000001] = .illegal .reservedField [] ∧ decode [0x05000003] = .illegal .reservedField [] ∧
    decode [0x03020000] = .illegal .reservedField [] ∧ decode [0x04000100] = .illegal .reservedField [] := by
  decide +kernel

/-- V-EN3. -/
theorem test_decode_wait :
    decode [] = .wait ∧ decode [0x02000000] = .wait ∧ decode [0x02000000, 0x00000021] = .wait ∧
    decode [0x02000000, 0x00000021, 0x00000000] = .wait ∧ decode [0x03010000] = .wait ∧ decode [0x01010001] = .wait ∧
    decode [0x01020003, 0x00000010] = .wait ∧ decode [0x01180040, 0x00000000] = .wait := by
  decide +kernel

/-- V-EN4: trailing bits are ignored, and the packet ends where its length word says. -/
theorem test_decode_trailing_bits :
    decode [0x02000000, 0x00000005, 0x9FFFFFFF] = .cmd (.update [true, false, false, true, true]) [] ∧
    decode [0x02000000, 0x00000000, 0x03000000] = .cmd (.update []) [0x03000000] := by
  decide +kernel

/-- V-EN5: the response packets. -/
theorem test_encode_response :
    encodeResponse .ok = [0x00000000] ∧ encodeResponse (.error .illegalCommand) = [0x8000007F] ∧
    encodeResponse (.okBits (bitsOfBytes [0x7F, 0x9C, 0x2B, 0xA4, 0xE8])) =
      [0x00010000, 0x00000028, 0x7F9C2BA4, 0xE8000000] := by
  decide +kernel

/-! ### INIT -/

/-- V-IE3, 41 R158 example: `init sha256` in Idle. -/
theorem test_init_sha256 :
    after (exec (.initSha256 plain) idle) = { session .sha256 with rsp := [0x00000000] } := by decide +kernel

/-- 60 R352 example: `init kmac128 rounds=1 kmackey=hex:00` is refused. -/
theorem test_init_kmac128_rounds :
    words (exec (.initKmac128 { plain with nr := some 1, kk := some (zeros 8) }) idle) = some [0x80000002] := by
  decide +kernel

/-- 60 R353 example: an empty key counts as missing. -/
theorem test_init_kmac256_empty_key :
    words (exec (.initKmac256 { plain with kk := some [] }) idle) = some [0x80000003] := by decide +kernel

/-- 60 R351 example, R360: the variant is looked at first. -/
theorem test_init_unknown_rounds_0 :
    words (exec (.initUnknown 0x77 { plain with nr := some 0 }) idle) = some [0x80000001] := by decide +kernel

/-- 47 R326 example: the first KMAC128 block without customization. -/
theorem test_kmac_frame :
    cshakeFrame kmacName [] 1344 =
      bitsOfBytes ([0x01, 0xA8, 0x01, 0x20, 0x4B, 0x4D, 0x41, 0x43, 0x01, 0x00] ++ List.replicate 158 0) := by decide +kernel

/-- 47 R324 example: the CSHAKE128 block of "Email Signature". -/
theorem test_cshake_frame :
    cshakeFrame [] (bitsOfBytes [0x45, 0x6D, 0x61, 0x69, 0x6C, 0x20, 0x53, 0x69, 0x67, 0x6E, 0x61, 0x74, 0x75,
      0x72, 0x65]) 1344 =
      bitsOfBytes ([0x01, 0xA8, 0x01, 0x00, 0x01, 0x78, 0x45, 0x6D, 0x61, 0x69, 0x6C, 0x20, 0x53, 0x69, 0x67, 0x6E, 0x61, 0x74,
        0x75, 0x72, 0x65] ++ List.replicate 147 0) := by decide +kernel

/-! ### UPDATE, SETKEY, GETHMAC -/

/-- 41 R159 example: a short UPDATE waits in `REM`. -/
theorem test_update_short : after (exec (.update abc) (session .sha1)) = { fed .sha1 abc with rsp := [0x00000000] } := by
  decide +kernel

/-- 60 R354 cause d. -/
theorem test_update_sponge_bits : words (exec (.update [true]) (session .shake128)) = some [0x80000004] := by
  decide +kernel

/-- 42 R194 example: the two pads of a 20-byte key. -/
theorem test_setkey_pads :
    (installNormKey (padz (rep 0x0B 20) 512) (session .sha256)).kin = some (rep 0x3D 20 ++ rep 0x36 44) ∧
    (installNormKey (padz (rep 0x0B 20) 512) (session .sha256)).kout = some (rep 0x57 20 ++ rep 0x5C 44) := by
  decide +kernel

/-- 60 R360 example: on SHAKE128 after an UPDATE the key is looked at first. -/
theorem test_setkey_shake : words (exec (.setKey (zeros 8)) (fed .shake128 (zeros 8))) = some [0x80000002] := by
  decide +kernel

/-- V-HM2: the HMAC of the empty message under the empty key. -/
theorem test_gethmac_empty :
    words (exec (.getHmac none) keyed) =
      some [0x00010000, 0x00000100, 0xb613679a, 0x0814d9ec, 0x772f95d7, 0x78c35fc5, 0xff1697c4, 0x93715653, 0xc6c71214,
        0x4292c5ad] := by decide +kernel

/-- 60 R360 example: `gethmac len=8` without a key. -/
theorem test_gethmac_no_key : words (exec (.getHmac (some 8)) (session .sha1)) = some [0x80000006] := by decide +kernel

/-! ### GETHASH: one digest per core -/

/-- V-SRC1 with the 40th digit of 90 C1. -/
theorem test_gethash_sha1 :
    words (exec (.getHash none) (fed .sha1 abc)) =
      some [0x00010000, 0x000000A0, 0xa9993e36, 0x4706816a, 0xba3e2571, 0x7850c26c, 0x9cd0d89d] := by decide +kernel

/-- V-EN5. -/
theorem test_gethash_sha224 :
    words (exec (.getHash none) (session .sha224)) =
      some [0x00010000, 0x000000E0, 0xD14A028C, 0x2A3A2BC9, 0x476102BB, 0x288234C4, 0x15A2B01F, 0x828EA62A,
        0xC5B3E42F] := by decide +kernel

/-- V-NR1: each further round hashes the digest. -/
theorem test_gethash_rounds_2 :
    words (exec (.getHash none) { fed .sha1 abc with nr := 2 }) =
      some [0x00010000, 0x000000A0, 0x0d3ced9b, 0xec10a777, 0xaec23ccc, 0x353a8c08, 0xa633045e] := by decide +kernel

/-- 45 R266 example. -/
theorem test_gethash_sha512 :
    words (exec (.getHash none) (fed .sha512 abc)) =
      some [0x00010000, 0x00000200, 0xddaf35a1, 0x93617aba, 0xcc417349, 0xae204131, 0x12e6fa4e, 0x89a97ea2, 0x0a9eeee6,
        0x4b55d39a, 0x2192992a, 0x274fc1a8, 0x36ba3c23, 0xa3feebbd, 0x454d4423, 0x643ce80e, 0x2a9ac94f,
        0xa54ca49f] := by decide +kernel

/-- V-SRC3. -/
theorem test_gethash_sha3_256 :
    words (exec (.getHash none) (fed .sha3_256 abc)) =
      some [0x00010000, 0x00000100, 0x3a985da7, 0x4fe225b2, 0x045c172d, 0x6bd390bd, 0x855f086e, 0x3e9d525b, 0x46bfe245,
        0x11431532] := by decide +kernel

/-- V-EN5: trailing bits of the last word are zero. -/
theorem test_gethash_shake128 :
    words (exec (.getHash (some 40)) (session .shake128)) =
      some [0x00010000, 0x00000028, 0x7F9C2BA4, 0xE8000000] := by decide +kernel

/-- 47 R328 example: `L = 256` appends `01 00 02`; nothing is consumed while the block is not full. -/
theorem test_kmac_suffix :
    kmacSuffix Variant.kmac128.desc Lanes.zero (bitsOfBytes [0, 1, 2, 3]) 256 =
      (Lanes.zero, bitsOfBytes [0, 1, 2, 3, 0x01, 0x00, 0x02]) := by decide +kernel

/-! ### Units -/

/-- 45 R262: the upper halves of the first 64 constants of SHA-512 are those of SHA-256; the first and the last of each
table stand where the spec has them. -/
theorem test_sha2_constants :
    (k512.take 64).map (fun k => k.extractLsb' 32 32) = k256 ∧ k256.length = 64 ∧ k512.length = 80 ∧
    k256[0]? = some 0x428a2f98 ∧ k256[8]? = some 0xd807aa98 ∧ k256[63]? = some 0xc67178f2 ∧
    k512[5]? = some 0x59f111f1b605d019 ∧ k512[79]? = some 0x6c44198c4a475817 := by decide +kernel

/-- V-KF1, the first two lanes. -/
theorem test_keccakF_zero :
    (keccakF Lanes.zero).get 0 0 = 0xF1258F7940E1DDE7 ∧ (keccakF Lanes.zero).get 1 0 = 0x84D5CCF933C0478A := by
  decide +kernel

/-- 47 R320, R321 examples. -/
theorem test_length_encodings :
    bytes (leftEncode 0) = [0x01, 0x00] ∧ bytes (leftEncode 168) = [0x01, 0xA8] ∧
    bytes (leftEncode 256) = [0x02, 0x01, 0x00] ∧ bytes (leftEncode 65536) = [0x03, 0x01, 0x00, 0x00] ∧
    bytes (rightEncode 0) = [0x00, 0x01] ∧ bytes (rightEncode 512) = [0x02, 0x00, 0x02] := by decide +kernel

/-- V-BB3. -/
theorem test_conversions :
    (convBE 32 (bitsOfBytes ((List.range 64).map (BitVec.ofNat 8)))).take 2 = [0x00010203, 0x04050607] ∧
    (convLE (bitsOfBytes ((List.range 64).map (BitVec.ofNat 8)))).take 2 =
      [0x0706050403020100, 0x0F0E0D0C0B0A0908] := by decide +kernel

/-- V-S5F: rotations across the 32-bit halves. -/
theorem test_rotations :
    rotr (1 : BitVec 64) 1 = 0x8000000000000000 ∧ rotr (0x0000000100000000 : BitVec 64) 34 = 0x4000000000000000 ∧
    rotl (0x67452301 : BitVec 32) 5 = 0xE8A4602C ∧ sha256SmallSigma1 0x6A09E667 = 0xCFE5DA3C := by decide +kernel

/-! ### The step -/

/-- 60 R358 example: an illegal header in Idle, one word consumed. -/
theorem test_step_illegal :
    after (step { idle with cmd := [0x06000000, 0x03000000] }) =
      { idle with cmd := [0x03000000], rsp := [0x8000007F] } := by decide +kernel

/-- 60 R372: after reset `update empty` fails. -/
theorem test_step_update_after_reset :
    words (step { State.reset with cmd := [0x02000000, 0x00000000] }) = some [0x80000004] := by decide +kernel

/-- 60 R372: `withFetchWord` lets the very next step run the packet, first thing after reset. -/
theorem test_step_with_fetch_word :
    words (step (State.reset.withFetchWord 32 0x01000003)) = some [0x00000000] ∧
    words (step (State.reset.withFetchWord 32 0x06000000)) = some [0x8000007F] ∧
    decodeTableWord 32 0x01000003 = some (.initSha256 plain) ∧ decodeTableWord 32 0x06000000 = none := by
  decide +kernel

/-! ### Witnesses: states and operands that meet the hypotheses of the statements -/

/-- The next state, if there is one. -/
def nextOf : Result → Option State
  | .next t => some t
  | .fault _ => none
  | .refused _ => none

theorem eq_next {r : Result} {t : State} (h : nextOf r = some t) : r = .next t := by
  cases r <;> simp_all [nextOf]

theorem goes_on {r : Result} (h : (nextOf r).isSome = true) : ∃ t, r = .next t :=
  (Option.isSome_iff_exists.mp h).imp fun _ => eq_next

/-- Why there is no next state. -/
def stopOf : Result → Option (Fault ⊕ Refusal)
  | .next _ => none
  | .fault f => some (.inl f)
  | .refused f => some (.inr f)

theorem eq_fault {r : Result} {f : Fault} (h : stopOf r = some (.inl f)) : r = .fault f := by
  cases r <;> simp_all [stopOf]

theorem eq_refused {r : Result} {f : Refusal} (h : stopOf r = some (.inr f)) : r = .refused f := by
  cases r <;> simp_all [stopOf]

/-- A session of any variant with up to seven whole bytes fed, words in `CMD`. -/
theorem fed_sound (v : Variant) (m : Bits) (ws : List Word) (h : m.length ≤ 56 ∧ m.length % 8 = 0) :
    SessionInv { fed v m with cmd := ws } := by
  have hb : 56 < v.desc.blockBits := by cases v <;> decide
  constructor <;> simp only [fed, session, State.desc, reduceCtorEq, false_implies, if_false, Option.map_none,
    Bool.false_eq_true, implies_true, Option.mem_def, Option.some.injEq, forall_eq']
  · cases v <;> rfl
  · decide
  · omega
  · cases v <;> rfl
  · exact fun _ => h.2
  · cases v <;> decide
  · cases v <;> decide

/-- The same for a session right after INIT. -/
theorem session_sound (v : Variant) (ws : List Word) : SessionInv { session v with cmd := ws } := by
  have hb := blockBits_pos v
  constructor <;> simp only [session, State.desc, reduceCtorEq, false_implies, if_false, Option.map_none,
    Bool.false_eq_true, implies_true, List.length_nil, and_self, Option.mem_def, Option.some.injEq, forall_eq']
  · cases v <;> rfl
  · decide
  · exact hb
  · cases v <;> rfl
  · cases v <;> decide
  · cases v <;> decide

/-- `plen_blocks` of a counter with a known value. -/
theorem plen_blocks_of {s : State} {p : BitVec 128} (h : s.plen = some p) (hp : p.toNat % s.desc.blockBits = 0) :
    ∀ q ∈ s.plen, q.toNat % s.desc.blockBits = 0 := fun _ hq => Option.some.inj (h.symm.trans hq) ▸ hp

/-- A keyed session is sound. -/
theorem keyed_sound : SessionInv keyed := by
  constructor
  case plen_blocks => exact plen_blocks_of (p := 512) (by decide +kernel) (by decide +kernel)
  all_goals decide +kernel

/-- A SHA-1 session with the longest message that fits the length field: `2^64 − 1` bits. -/
def full : State := { fed .sha1 (zeros 511) with plen := some (2 ^ 64 - 512) }

theorem full_sound : SessionInv full := by
  constructor
  case plen_blocks => exact plen_blocks_of (p := 2 ^ 64 - 512) (by decide +kernel) (by decide +kernel)
  all_goals decide +kernel

/-- One bit more. -/
def overfull : State := { fed .sha1 [] with plen := some (2 ^ 64) }

theorem overfull_sound : SessionInv overfull := by
  constructor
  case plen_blocks => exact plen_blocks_of (p := 2 ^ 64) (by decide +kernel) (by decide +kernel)
  all_goals decide +kernel

/-- A sound keyed session whose total does not fit. -/
def keyedOverfull : State := { keyed with plen := some (2 ^ 64) }

theorem keyedOverfull_sound : SessionInv keyedOverfull := by
  constructor
  case plen_blocks => exact plen_blocks_of (p := 2 ^ 64) (by decide +kernel) (by decide +kernel)
  all_goals decide +kernel

/-- A SHA-512 session one block below the capacity of `PLEN`. -/
def sha512Full : State := { fed .sha512 [] with plen := some (0 - 1024) }

/-- The same after one more block: the counter holds no value. -/
def sha512Beyond : State := { fed .sha512 [] with is := round (newState .sha512) (zeros 1024), plen := none }

/-- Beyond 128 bits nothing wraps: UPDATE runs, GETHASH is refused (43 R214, 93 U1). -/
theorem test_plen_does_not_wrap :
    exec (.getHash none) { sha512Beyond with rsp := [0] } = .refused .mdLengthOverflow ∧
    words (exec (.getHash (some 8)) { session .shake128 with plen := none }) =
      words (exec (.getHash (some 8)) (session .shake128)) :=
  ⟨eq_refused (by decide +kernel), by decide +kernel⟩

/-- A message of `2^128` bits as UPDATE payloads: too long for every length field. -/
@[irreducible] def longChunks : List Bits := List.replicate (2 ^ 97) (List.replicate (2 ^ 31) false)

theorem longChunks_length : longChunks.flatten.length = 2 ^ 128 := by
  unfold longChunks
  rw [List.length_flatten, List.map_replicate, List.length_replicate, List.sum_replicate, smul_eq_mul, ← pow_add]

/-- The words of `update` with the bytes "abc". -/
def updateAbc : List Word := [0x02000000, 0x00000018, 0x61626300]

theorem witness_InvariantHoldsAfterReset : EngineInv (session .kmac256) := fun _ => session_sound .kmac256 []

theorem witness_InvariantKeptByEveryStep :
    EngineInv { session .sha1 with cmd := updateAbc } ∧ ∃ t, step { session .sha1 with cmd := updateAbc } = .next t :=
  ⟨fun _ => session_sound .sha1 _, goes_on (by decide +kernel)⟩

/-- Two Idle engines with different registers; the run goes on to a next state. -/
theorem witness_RegistersAfterResetAreNotObservable :
    idle.phase = .idle ∧ { session .sha1 with phase := .idle }.phase = .idle ∧ (session .sha1).cmd = idle.cmd ∧
      (session .sha1).rsp = idle.rsp ∧ words (hostRun [[0x01000003], updateAbc] idle) = some [0, 0] := by
  decide +kernel

theorem witness_EverySoundStateHasANextState : EngineInv full ∧ full.phase ≠ .idle ∧ LengthFits full :=
  ⟨fun _ => full_sound, by decide, fun _ => by decide +kernel⟩

theorem witness_EnginesShareNothing :
    let sys : System 2 := ⟨#v[{ idle with cmd := [0x01000001] }, session .sha1]⟩
    let other : System 2 := ⟨#v[{ idle with cmd := [0x01000001] }, idle]⟩
    (sys.step 0).isSome = true ∧ other.engines[0] = sys.engines[0] ∧ other ≠ sys ∧ (1 : Fin 2) ≠ 0 := by
  decide +kernel

/-- One command of every opcode, an option of every kind. -/
theorem witness_DecodeOfEncodeIsTheCommand :
    (Instr.initSha512 { plain with nr := some 3, hk := some [true] }).wellFormed = true ∧
    (Instr.initCshake128 { plain with fn := some [], cu := some abc }).wellFormed = true ∧
    (Instr.initKmac256 { plain with kk := some abc }).wellFormed = true ∧
    (Instr.initUnknown 0xFF plain).wellFormed = true ∧ (Instr.update [true]).wellFormed = true ∧
    (Instr.getHash none).wellFormed = true ∧ (Instr.getHmac (some 0xFFFFFFFF)).wellFormed = true ∧
    (Instr.setKey []).wellFormed = true := by decide

theorem witness_DecodedCommandsAreWellFormed :
    decode (updateAbc ++ [0x03000000]) = .cmd (.update abc) [0x03000000] := by decide +kernel

/-- 32 bits fill one data word, 33 take two; none takes no data word. -/
theorem witness_PayloadBitsStandMostSignificantFirst :
    ([0xFFFFFFFF] : List Word).length = ((32 : Word).toNat + 31) / 32 ∧
    ([0xFFFFFFFF, 0x80000000] : List Word).length = ((33 : Word).toNat + 31) / 32 ∧
    ([] : List Word).length = ((0 : Word).toNat + 31) / 32 := by decide

theorem witness_StepRunsTheDecodedCommand :
    (Instr.update abc).wellFormed = true ∧ decode { session .sha1 with cmd := updateAbc }.cmd = .cmd (.update abc) [] := by
  decide +kernel

/-- The two clauses: each field of an illegal header at its smallest wrong value; the legal headers at the ends of
their ranges. -/
theorem witness_IllegalHeaderConsumesOneWord :
    [0x00FFFFFF, 0x06000000, 0x01000100, 0x01200000, 0x02000001, 0x02010000, 0x05000100, 0x03020000, 0x04000001].all
        (fun h => words (step { idle with cmd := [h] }) == some [0x8000007F]) = true ∧
      [0x01000000, 0x010000FF, 0x03000000, 0x04000000].all
        (fun h => !(words (step { idle with cmd := [h] }) == some [0x8000007F])) = true := by decide +kernel

theorem witness_IncompletePacketWaits :
    (Instr.update abc).wellFormed = true ∧ ([0x61626300] : List Word) ≠ [] ∧
      { idle with cmd := [0x02000000, 0x00000018] }.cmd ++ [0x61626300] = encode (.update abc) := by decide +kernel

/-- The three ways a step can end: a next state, the refusal, the fault (which no run reaches). -/
theorem witness_LaterWordsDoNotDisturb :
    decode [0x03000000] ≠ .wait ∧ (∃ t, step { session .sha1 with cmd := updateAbc } = .next t) ∧
    step { overfull with cmd := [0x03000000] } = .refused .mdLengthOverflow ∧
    step { keyed with kout := none, cmd := [0x03000000] } = .fault .koutHasNoValue :=
  ⟨by decide +kernel, goes_on (by decide +kernel), eq_refused (by decide +kernel), eq_fault (by decide +kernel)⟩

/-- The three shapes. -/
theorem witness_ExactlyOneResponsePerPacket :
    decode updateAbc ≠ .wait ∧ words (step { session .sha1 with cmd := updateAbc }) = some [0x00000000] ∧
    words (step { session .shake128 with cmd := [0x03010000, 0x00000008] }) =
      some [0x00010000, 0x00000008, 0x7F000000] ∧
    words (step { idle with cmd := updateAbc }) = some [0x80000004] := by decide +kernel

theorem witness_ErrorChangesNoRegister :
    words (step { idle with cmd := updateAbc }) = some ({ idle with cmd := updateAbc }.rsp ++ 0x80000004 :: []) ∧
      (0x80000004 : Word).msb = true ∧
    words (step { idle with cmd := [0x00000000] }) = some [0x8000007F] ∧ (0x8000007F : Word).msb = true := by
  decide +kernel

theorem witness_UnsupportedVariantExactly :
    (0x06 : Byte) ∉ ([0x01, 0x02, 0x03, 0x04, 0x05, 0x10, 0x11, 0x12, 0x13, 0x20, 0x21, 0x30, 0x31, 0x40, 0x41] : List Byte) ∧
    ({ plain with kk := some abc } : InitOpts).wellFormed = true ∧
    { idle with cmd := [0x01100006, 0x00000018, 0x61626300, 0x03000000] }.cmd =
      encodeInit 0x06 { plain with kk := some abc } ++ [0x03000000] := by decide +kernel

/-- Causes a to i, the last one also through SETKEY. -/
theorem witness_UnsupportedOptionExactly :
    [exec (.initSha3_224 { plain with nr := some 1 }) idle, exec (.initSha1 { plain with nr := some 0 }) idle,
      exec (.initSha512 { plain with fn := some [] }) idle, exec (.initShake256 { plain with cu := some [] }) idle,
      exec (.initCshake128 { plain with kk := some [] }) idle, exec (.initKmac128 { plain with kk := some [true] }) idle,
      exec (.initShake128 { plain with hk := some [] }) idle, exec (.initSha1 { plain with nr := some 2, hk := some [] }) idle,
      exec (.initSha3_512 { plain with hk := some [true] }) idle, exec (.setKey []) (session .shake128),
      exec (.setKey []) { session .sha1 with nr := 2 }, exec (.setKey [true]) (session .sha3_512)].all
        (fun r => words r == some [0x80000002]) = true := by decide +kernel

theorem witness_MissingRequiredOptionExactly :
    words (exec (.initKmac128 { plain with cu := some abc }) idle) = some [0x80000003] ∧
    words (exec (.initKmac256 { plain with kk := some [] }) idle) = some [0x80000003] := by decide +kernel

/-- Causes a to d. -/
theorem witness_InvalidStateExactly :
    [exec (.update []) idle, exec (.setKey []) idle, exec (.getHash none) idle, exec (.getHmac none) idle,
      exec (.setKey []) (fed .sha1 []), exec (.setKey []) keyed, exec (.update [true]) (session .kmac128)].all
        (fun r => words r == some [0x80000004]) = true := by decide +kernel

/-- Causes a to d. -/
theorem witness_UnsupportedOutputLengthExactly :
    [exec (.getHash (some 255)) (session .sha256), exec (.getHash (some 0)) (session .sha3_224),
      exec (.getHash none) (session .shake128), exec (.getHash (some 0)) (session .cshake256),
      exec (.getHash (some 7)) (session .kmac256), exec (.getHmac (some 512)) keyed].all
        (fun r => words r == some [0x80000005]) = true := by decide +kernel

theorem witness_NoKeySetExactly : words (exec (.getHmac none) (session .kmac128)) = some [0x80000006] := by decide +kernel

/-- Every row of the table. -/
theorem witness_PhaseTransitionsAreTheTable :
    EngineInv idle ∧ EngineInv (session .sha256) ∧ EngineInv (fed .sha256 abc) ∧
    [exec (.initSha1 plain) idle, exec (.initSha1 plain) (fed .sha256 abc), exec (.update abc) (session .sha256),
      exec (.update abc) (fed .sha256 abc), exec (.setKey []) (session .sha256), exec (.update abc) idle].map
        (fun r => (after r).phase) = [.fresh, .fresh, .updating, .updating, .fresh, .idle] ∧
    decode [0x00000000] = .illegal .unknownOpcode [] ∧ decode [0x02000000] = .wait :=
  ⟨fun h => absurd rfl h, fun _ => session_sound _ [], fun _ => fed_sound _ _ [] (by decide +kernel), by decide +kernel,
    by decide +kernel, by decide +kernel⟩

theorem witness_EachCommandWritesOnlyItsRegisters :
    words (exec (.update abc) (session .sha1)) = some [0] ∧ words (exec (.setKey abc) (session .sha1)) = some [0] ∧
    words (exec (.getHash (some 8)) (session .shake128)) = some [0x00010000, 8, 0x7F000000] ∧
    words (exec (.getHmac none) idle) = some [0x80000004] ∧ words (exec (.initSha1 plain) idle) = some [0] := by
  decide +kernel

theorem witness_InitForgetsTheOldSession :
    exec (initInstr .sha256 plain) (fed .sha1 abc) = .next { session .sha256 with rsp := [0] } ∧
      { session .sha256 with rsp := [0] }.rsp = (fed .sha1 abc).rsp ++ [0x00000000] :=
  ⟨eq_next (by decide +kernel), by decide⟩

theorem witness_InitOfMdVariantLoadsItsInitialState : ({ plain with nr := some 0xFFFFFFFF } : InitOpts).nr ≠ some 0 := by
  decide

theorem witness_InitOfSha3OrShakeClearsTheLanes : plain.nr = none ∧ plain.hk = none ∧ plain.fn = none ∧
    plain.cu = none ∧ plain.kk = none := ⟨rfl, rfl, rfl, rfl, rfl⟩

/-- Both cases: nothing to frame with a string that is present and empty, and a customization string. -/
theorem witness_InitOfCshakeAbsorbsTheFraming :
    (({ plain with fn := some [] } : InitOpts).fn.getD [] = [] ∧ ({ plain with fn := some [] } : InitOpts).cu.getD [] = []) ∧
    (abc.length % 8 = 0 ∧ abc.length < 2 ^ 32 ∧ ¬ (([] : Bits) = [] ∧ abc = [])) := by decide +kernel

theorem witness_InitOfKmacAbsorbsFramingAndKey :
    ({ plain with kk := some (zeros 8) } : InitOpts).kk = some (zeros 8) ∧ zeros 8 ≠ [] ∧ (zeros 8).length % 8 = 0 ∧
      (zeros 8).length < 2 ^ 32 := by
  decide +kernel

/-- Both forms of `nr`; a key of whole bytes, and one of one bit, which an MD variant admits. -/
theorem witness_InitWithHmacKeyIsInitThenSetKey :
    Variant.sha3_224.desc.outBits ≠ 0 ∧ plain.nr = none ∧ abc.length % 8 = 0 ∧ abc.length < 2 ^ 32 ∧
    Variant.sha1.desc.outBits ≠ 0 ∧ Variant.sha1.md = true ∧ ({ plain with nr := some 1 } : InitOpts).nr = some 1 := by
  decide +kernel

/-- A key of exactly one block and one of one bit more. -/
theorem witness_SetKeyInstallsThePads :
    EngineInv (session .sha1) ∧ (session .sha1).phase = .fresh ∧ (session .sha1).keyset = false ∧ (session .sha1).nr = 1 ∧
    (session .sha1).desc.outBits ≠ 0 ∧ (session .sha1).var.md = true ∧ (zeros 512).length ≤ (session .sha1).desc.blockBits ∧
    (session .sha1).desc.blockBits < (zeros 513).length :=
  ⟨fun _ => session_sound _ [], by decide +kernel⟩

theorem witness_UpdateAbsorbsThePayload :
    (session .sha1).phase ≠ .idle ∧ (session .sha1).var.md = true ∧ (session .shake128).var.md = false ∧
      abc.length % 8 = 0 := by decide +kernel

/-- A counter that goes on counting, one that is full, one that holds no value. -/
theorem witness_UpdateCountsEveryBit :
    exec (.update abc) (session .sha1) = .next { fed .sha1 abc with rsp := [0] } ∧
    (0 : BitVec 128).toNat + 0 < 2 ^ 128 ∧
    exec (.update (zeros 1024)) sha512Full = .next { sha512Beyond with rsp := [0] } ∧
    2 ^ 128 ≤ (0 - 1024 : BitVec 128).toNat + 1024 ∧ sha512Full.plen = some (0 - 1024) ∧ sha512Beyond.plen = none ∧
    exec (.update []) sha512Beyond = .next { sha512Beyond with rsp := [0] } :=
  ⟨eq_next (by decide +kernel), by decide, eq_next (by decide +kernel), by decide, rfl, rfl, eq_next (by decide +kernel)⟩

/-- A chunk of one bit on an MD variant, whole bytes on a sponge variant, and a later command. -/
theorem witness_ChunkingDoesNotMatter :
    [[true], abc] ≠ [] ∧ (session .sha1).phase ≠ .idle ∧ (session .sha1).var.md = true ∧
    (∀ c ∈ [abc, [], abc], c.length % 8 = 0) ∧
    (∃ t, runCommands [.update [true]] (session .sha1) = .next t) ∧ EngineInv (session .sha1) :=
  ⟨by decide, by decide, by decide, by decide +kernel,
    goes_on (by decide +kernel), fun _ => session_sound _ []⟩

/-- The longest message, a keyed session, and a length that is off by one. -/
theorem witness_FixedLengthOutputHasItsLength :
    EngineInv full ∧ full.desc.outBits ≠ 0 ∧ LengthFits full ∧ EngineInv keyed ∧ keyed.keyset = true ∧ LengthFits keyed ∧
      (257 : Word) ≠ BitVec.ofNat 32 keyed.desc.outBits :=
  ⟨fun _ => full_sound, by decide, fun _ => by decide +kernel, fun _ => keyed_sound, by decide +kernel,
    fun _ => by decide +kernel, by decide +kernel⟩

theorem witness_VariableLengthOutputHasTheRequestedLength :
    EngineInv (session .kmac128) ∧ (session .kmac128).phase ≠ .idle ∧ (session .kmac128).desc.outBits = 0 ∧
      (8 : Word) ≠ 0 ∧ (8 : Word).toNat % 8 = 0 ∧ (0xFFFFFFF8 : Word).toNat % 8 = 0 :=
  ⟨fun _ => session_sound _ [], by decide⟩

/-- One block and two blocks: 447 and 448 bits on SHA-1. -/
theorem witness_MdSessionHashesThePaddedMessage :
    Variant.sha1.md = true ∧ plain.nr = none ∧ [zeros 447].flatten.length < 2 ^ 64 ∧
    ([zeros 447].flatten.length + 1 + 0 + 64) % Variant.sha1.desc.blockBits = 0 ∧
    ([zeros 448].flatten.length + 1 + 511 + 64) % Variant.sha1.desc.blockBits = 0 ∧ 511 < Variant.sha1.desc.blockBits ∧
    (0 + 1 + 895 + 128) % Variant.sha512.desc.blockBits = 0 := by decide +kernel

/-- A fixed-length variant without `len`, a variable-length one with `len`, KMAC with a key, and a last block with one
free byte. -/
theorem witness_SpongeSessionAbsorbsInOrder :
    Variant.sha3_224.md = false ∧ Variant.sha3_224.desc.kind ≠ .cshake ∧ Variant.sha3_224.desc.kind ≠ .kmac ∧
    Variant.sha3_224.desc.outBits ≠ 0 ∧ Variant.kmac128.desc.kind = .kmac ∧ Variant.kmac128.desc.outBits = 0 ∧
    abc ≠ [] ∧ (∀ b ∈ [[], [], abc] ++ [abc], b.length % 8 = 0) ∧ (8 : Word).toNat = 8 ∧
    Variant.shake128.desc.blockBits / 8 - (zeros (8 * 167)).length / 8 % (Variant.shake128.desc.blockBits / 8) = 1 := by
  decide +kernel

/-- V-SRC1. -/
theorem witness_EachFurtherRoundRehashesTheDigest :
    let out := bitsOfBytes [0xa9, 0x99, 0x3e, 0x36, 0x47, 0x06, 0x81, 0x6a, 0xba, 0x3e, 0x25, 0x71, 0x78, 0x50, 0xc2, 0x6c,
      0x9c, 0xd0, 0xd8, 0x9d]
    EngineInv (fed .sha1 abc) ∧ (fed .sha1 abc).phase ≠ .idle ∧ (fed .sha1 abc).var.md = true ∧
    (fed .sha1 abc).keyset = false ∧ 1 ≤ (1 : Word).toNat ∧ (1 : Word).toNat + 1 < 2 ^ 32 ∧
    out.length = (fed .sha1 abc).desc.outBits ∧
    exec (.getHash none) { fed .sha1 abc with nr := 1 } = .next (afterBits out { fed .sha1 abc with nr := 1 }) :=
  ⟨fun _ => fed_sound _ _ [] (by decide +kernel), by decide, by decide, by decide, by decide, by decide, by decide +kernel,
    eq_next (by decide +kernel)⟩

/-- A key of one block and one of one bit more on an MD variant; whole bytes on SHA3. -/
theorem witness_HmacIsTheTwoPassConstruction :
    Variant.sha512.desc.outBits ≠ 0 ∧ Variant.sha512.md = true ∧ (zeros 1024).length ≤ Variant.sha512.desc.blockBits ∧
    Variant.sha512.desc.blockBits < (zeros 1025).length ∧ Variant.sha512.desc.blockBits + abc.length < 2 ^ 128 ∧
    Variant.sha1.desc.blockBits + abc.length < 2 ^ 64 ∧ Variant.sha3_512.desc.outBits ≠ 0 ∧
    Variant.sha3_512.md = false ∧ abc.length % 8 = 0 ∧ Variant.sha3_512.desc.blockBits < (zeros 584).length := by
  decide +kernel

theorem witness_GetHashWithAKeyIsGetHmac : keyed.phase ≠ .idle ∧ keyed.keyset = true := by decide +kernel

/-- A finalize that answers and one that fails, with a later command. -/
theorem witness_FinalizeIsNonDestructive :
    (∃ t, exec (.getHash (some 8)) (session .shake128) = .next t) ∧ (∃ t, exec (.getHmac none) (session .sha1) = .next t) ∧
    ∃ t, runCommands [.update abc] (session .sha1) = .next t :=
  ⟨goes_on (by decide +kernel), goes_on (by decide +kernel), goes_on (by decide +kernel)⟩

/-- The boundary: a total of exactly `2^64` bits, without and with a key; a message of `2^128` bits. -/
theorem witness_LengthOverflowIsRefused :
    EngineInv overfull ∧ overfull.phase ≠ .idle ∧ overfull.var.md = true ∧ overfull.plen = some (2 ^ 64) ∧
    2 ^ 64 ≤ (2 ^ 64 : BitVec 128).toNat + overfull.rem.length ∧
    EngineInv keyedOverfull ∧ keyedOverfull.keyset = true ∧ keyedOverfull.plen = some (2 ^ 64) ∧
    2 ^ 128 ≤ longChunks.flatten.length ∧ abc.length < 2 ^ 32 ∧
    2 ^ 128 ≤ Variant.sha512.desc.blockBits + longChunks.flatten.length :=
  ⟨fun _ => overfull_sound, by decide, by decide, rfl, by decide +kernel, fun _ => keyedOverfull_sound, by decide +kernel,
    rfl, longChunks_length.ge, by decide +kernel, longChunks_length.ge.trans (Nat.le_add_left ..)⟩

/-- Lengths on both sides of the rate of SHAKE128. -/
theorem witness_ShorterOutputIsAPrefix :
    EngineInv (session .shake128) ∧ (session .shake128).phase ≠ .idle ∧
    (session .shake128).var ∈ ([.shake128, .shake256, .cshake128, .cshake256] : List Variant) ∧ (1344 : Word) ≠ 0 ∧
    (1344 : Word).toNat % 8 = 0 ∧ (1352 : Word).toNat % 8 = 0 ∧ (1344 : Word).toNat < (1352 : Word).toNat :=
  ⟨fun _ => session_sound _ [], by decide⟩

theorem witness_CshakeWithNothingToFrameIsShake :
    ({ plain with cu := some [] } : InitOpts).cu.getD [] = [] ∧
    ¬ (({ plain with cu := some (zeros 8) } : InitOpts).fn.getD [] = [] ∧
      ({ plain with cu := some (zeros 8) } : InitOpts).cu.getD [] = []) ∧
    words (exec (.initCshake128 { plain with cu := some (zeros 8) }) idle) = some (idle.rsp ++ [0x00000000]) := by
  decide +kernel

/-- A buffer of whole blocks, a shorter one, the empty one. -/
theorem witness_TakeBlocksCutsWholeBlocks :
    0 < 8 ∧ (zeros 16).length % 8 = 0 ∧ (zeros 7).length < 8 ∧ takeBlocks (zeros 7) 8 = ([], zeros 7) ∧
      takeBlocks [] 8 = ([], []) ∧ takeBlocks (zeros 16) 8 = ([zeros 8, zeros 8], []) := by decide +kernel

theorem witness_BlocksArePackedInTheirByteOrder :
    (zeros 512).length = 16 * 32 ∧ (zeros 1024).length = 16 * 64 ∧ (zeros 1344).length % 64 = 0 := by decide +kernel

/-- The ends of the range of the amount and of the bit number. -/
theorem witness_RotationsMoveEveryBit : (0 : Nat) < 32 ∧ 31 < 32 := by decide

/-- The rate of SHAKE128, an output of one bit more. -/
theorem witness_SqueezeEmitsRatePartsInTurn : 0 < 1344 ∧ 1344 ≤ 1600 ∧ 1344 < 1345 := by decide

/-- One block (447 bits) and two (448). -/
theorem witness_MdPaddingIsMinimal :
    (zeros 447).length < 512 ∧ (zeros 447).length + 1 + 64 ≤ 512 ∧ (zeros 448).length < 512 ∧
      ¬ ((zeros 448).length + 1 + 64 ≤ 512) := by decide +kernel

theorem witness_SchedulesFollowTheirRecurrences :
    ((List.range 16).map (BitVec.ofNat 32)).length = 16 ∧ ((List.range 16).map (BitVec.ofNat 64)).length = 16 := by decide

/-- Temporaries that meet the three equations, on the zero state. -/
theorem witness_KeccakRoundInOnePiece :
    (∀ x : Fin 5, (0 : Lane) = Lanes.zero.get x 0 ^^^ Lanes.zero.get x 1 ^^^ Lanes.zero.get x 2 ^^^ Lanes.zero.get x 3 ^^^
      Lanes.zero.get x 4) ∧ (0 : Lane) = 0 ^^^ rotl 0 1 ∧
    ∀ x y : Fin 5, (0 : Lane) = rotl (Lanes.zero.get x y ^^^ 0) (rhoOffset x y) := by decide +kernel

theorem witness_AbsorbXorsTheBlockIntoTheRate :
    (zeros 1344).length % 64 = 0 ∧ (zeros 1344).length ≤ 1600 ∧ (zeros 1344).length / 64 ≤ (1 : Fin 5).val + 5 * (4 : Fin 5).val := by
  decide +kernel

/-- One free byte, two free bytes. -/
theorem witness_SpongePaddingFillsOneBlock :
    (zeros 1336).length % 8 = 0 ∧ 1344 % 8 = 0 ∧ (zeros 1336).length + 8 = 1344 ∧ (zeros 1328).length + 8 < 1344 := by
  decide +kernel

theorem witness_LengthEncodingsAreMinimal : 0 < 2 ^ 2040 ∧ 2 ^ 2040 - 1 < 2 ^ 2040 := by decide +kernel

theorem witness_EncodedStringsAreUnambiguous :
    abc.length < 2 ^ 2040 ∧ encodeString abc ++ [true] = encodeString abc ++ [true] := by
  exact ⟨by decide +kernel, rfl⟩

theorem witness_BytepadAddsTheFewestZeroBytes : 0 < 168 ∧ abc.length % 8 = 0 ∧ 0 < 1 := by decide +kernel

end Sys2Proof.Tests
end

section
/-!
PROOFS. The statements about the streams, the packing of blocks and several engines (spec/20_memory.md R62 to R66,
R77; spec/30_encoding.md R96, R97).
-/

namespace Sys2Proof

/-! ### Bits of a sequence of words -/

/-- Words laid end to end: bit `j` of word `t` stands at `w·t + j`. -/
theorem getD_flatMap_bitsBE {w : Nat} (l : List (BitVec w)) (t j : Nat) (hj : j < w) :
    (l.flatMap bitsBE).getD (w * t + j) false = (l.getD t 0).getMsbD j := by
  induction l generalizing t with
  | nil => simp
  | cons v l ih =>
    rw [List.flatMap_cons]
    cases t with
    | zero =>
      rw [List.getD_append _ _ _ _ (by simpa using hj), List.getD_eq_getElem _ _ (by simpa using hj), getElem_bitsBE]
      simp
    | succ t =>
      rw [List.getD_append_right _ _ _ _ (by rw [length_bitsBE, Nat.mul_succ]; omega), List.getD_cons_succ, ← ih t,
        length_bitsBE]
      congr 1
      rw [Nat.mul_succ]; omega

/-- 20 R62: bit `i` of data words laid end to end is bit `31 - i mod 32` of word `i / 32`. -/
theorem getD_wordsBits (ws : List Word) (i : Nat) :
    (wordsBits ws).getD i false = (ws.getD (i / 32) 0).getLsbD (31 - i % 32) := by
  have hi : i % 32 < 32 := Nat.mod_lt i (by decide)
  have h := getD_flatMap_bitsBE ws (i / 32) (i % 32) hi
  rw [Nat.div_add_mod, BitVec.getMsbD_eq_getLsbD, decide_eq_true hi, Bool.true_and] at h
  exact h

theorem getD_padz (p : Bits) (n i : Nat) : (padz p n).getD i false = p.getD i false := by
  by_cases hi : i < p.length
  · rw [padz, List.getD_append _ _ _ _ hi]
  · rw [padz, List.getD_append_right _ _ _ _ (by omega), List.getD_eq_default p _ (by omega), zeros,
      List.getD_eq_getElem?_getD, List.getElem?_getD_replicate_default_eq]

theorem getD_take {α : Type} (l : List α) (d : α) {n i : Nat} (h : i < n) : (l.take n).getD i d = l.getD i d := by
  rw [List.getD_eq_getElem?_getD, List.getElem?_take_of_lt h, List.getD_eq_getElem?_getD]

theorem getD_drop {α : Type} (l : List α) (d : α) (n i : Nat) : (l.drop n).getD i d = l.getD (n + i) d := by
  rw [List.getD_eq_getElem?_getD, List.getElem?_drop, List.getD_eq_getElem?_getD]

/-! ### Payloads (20 R62, R64) -/

/-- 30 R96: behind the header of UPDATE stands one payload section. -/
theorem decode_updateHeader (ws : List Word) :
    decode (0x02000000 :: ws) = .ofParts .update (payloadSection? ws) :=
  decode_of_legal (by decide) ws

/-- 30 R97: behind the header of SETKEY stands one payload section. -/
theorem decode_setKeyHeader (ws : List Word) :
    decode (0x05000000 :: ws) = .ofParts .setKey (payloadSection? ws) :=
  decode_of_legal (by decide) ws

/-- Settles O9: both directions read a payload off the bits of its data words laid end to end. -/
theorem payloadBitsStandMostSignificantFirst : Obligations.PayloadBitsStandMostSignificantFirst := by
  refine ⟨fun p => ⟨length_payloadWords p, fun i _ => ?_⟩, fun n data rest hd => ?_⟩
  · rw [← getD_wordsBits, wordsBits_payloadWords, getD_padz]
  · have hs := payloadSection?_cons n data rest hd
    have hn : n.toNat ≤ (wordsBits data).length := by
      rw [length_wordsBits, hd]; exact le_mul_ceilDiv n.toNat 32 (by decide)
    refine ⟨(wordsBits data).take n.toNat, List.length_take_of_le hn, fun i hi => ?_, hs, ?_, ?_⟩
    · rw [getD_take _ _ hi, getD_wordsBits]
    · rw [decode_updateHeader, hs]; rfl
    · rw [decode_setKeyHeader, hs]; rfl

/-! ### Blocks (20 R65, R66) -/

/-- 20 R65: word `t` of an MD block holds the bits from `w·t` on, the first of them on top. -/
theorem getMsbD_convBE {w t j : Nat} {M : Bits} (hM : M.length = 16 * w) (ht : t < 16) (hj : j < w) :
    ((convBE w M).getD t 0).getMsbD j = M.getD (w * t + j) false := by
  have hend : w * t + w ≤ M.length := by
    rw [hM, ← Nat.mul_succ, Nat.mul_comm]; exact Nat.mul_le_mul_right w ht
  have hword : (convBE w M).getD t 0 = BitVec.ofNat w (intBE ((M.drop (w * t)).take w)) := by
    simp [convBE, List.getD_eq_getElem?_getD, ht]
  rw [hword, ← getElem_bitsBE _ j (by simpa using hj), ← List.getD_eq_getElem _ false,
    bitsBE_ofNat_intBE w _ (by simp; omega), getD_take_drop _ _ _ _ hj hend]

/-- 20 R66: byte `j` of lane `i` is byte `8·i + j` of the block, byte 0 the least significant. -/
theorem getLsbD_convLE {P : Bits} {i j b : Nat} (hi : i < P.length / 64) (hj : j < 8) (hb : b < 8) :
    ((convLE P).getD i 0).getLsbD (8 * j + b) = ((bytes P).getD (8 * i + j) 0).getLsbD b := by
  have hlane : (convLE P).getD i 0 = BitVec.ofNat 64 (intLE (((bytes P).drop (8 * i)).take 8)) := by
    simp [convLE, List.getD_eq_getElem?_getD, hi]
  have hbytes : j < (((bytes P).drop (8 * i)).take 8).length := by
    rw [List.length_take, List.length_drop, length_bytes]; omega
  rw [hlane, BitVec.getLsbD_ofNat, decide_eq_true (show 8 * j + b < 64 by omega), Bool.true_and,
    testBit_intLE _ j b hbytes hb, getD_take _ _ hj, getD_drop]

/-- Settles O47: each word, lane and byte is named by the bits it was made of. -/
theorem blocksArePackedInTheirByteOrder : Obligations.BlocksArePackedInTheirByteOrder := by
  refine ⟨fun w M hM => ⟨by simp [convBE], fun t j => getMsbD_convBE hM⟩,
    fun P _ => ⟨by simp [convLE], fun i j b hi hj hb => ?_⟩⟩
  rw [getLsbD_convLE hi hj (by omega), getLsbD_bytes P (8 * i + j) b (by omega) hb]
  congr 1; omega

/-! ### Several engines (20 R77) -/

namespace Machine

/-- The next state of an outcome, if it is one. -/
def nextState? : Host.Outcome State Fault Refusal → Option State
  | .next t => some t
  | .fault _ => none
  | .refused _ => none

theorem nextState?_eq_some {o : Host.Outcome State Fault Refusal} {t : State} :
    nextState? o = some t ↔ o = .next t := by
  cases o <;> simp [nextState?]

/-- The system with engine `k` in state `t`. -/
def System.setEngine {n : Nat} (sys : System n) (k : Fin n) (t : State) : System n := ⟨sys.engines.set k t⟩

@[simp] theorem engine_setEngine_same {n : Nat} (sys : System n) (k : Fin n) (t : State) :
    (sys.setEngine k t).engines[k] = t :=
  Vector.getElem_set_self k.isLt

theorem engine_setEngine_other {n : Nat} (sys : System n) {j k : Fin n} (h : j ≠ k) (t : State) :
    (sys.setEngine k t).engines[j] = sys.engines[j] :=
  Vector.getElem_set_ne k.isLt j.isLt (Fin.val_ne_of_ne h.symm)

theorem setEngine_comm {n : Nat} (sys : System n) {j k : Fin n} (h : j ≠ k) (t u : State) :
    (sys.setEngine k t).setEngine j u = (sys.setEngine j u).setEngine k t :=
  congrArg System.mk
    (Vector.set_comm (hi := k.isLt) (hj := by simp) (xs := sys.engines) t u (Fin.val_ne_of_ne h.symm))

/-- A step of engine `k` is that engine's own step, written back to its place. -/
theorem System.step_eq {n : Nat} (sys : System n) (k : Fin n) :
    sys.step k = (nextState? (Machine.step sys.engines[k])).map (sys.setEngine k) := by
  unfold System.step
  cases Machine.step sys.engines[k] <;> rfl

theorem System.step_eq_some {n : Nat} {sys sys' : System n} {k : Fin n} (h : sys.step k = some sys') :
    ∃ t, Machine.step sys.engines[k] = .next t ∧ sys' = sys.setEngine k t := by
  rw [System.step_eq, Option.map_eq_some_iff] at h
  obtain ⟨t, ht, rfl⟩ := h
  exact ⟨t, nextState?_eq_some.mp ht, rfl⟩

/-- What engine `k` becomes is a function of engine `k`. -/
theorem System.step_map_engine {n : Nat} (sys : System n) (k : Fin n) :
    (sys.step k).map (fun t => t.engines[k]) = nextState? (Machine.step sys.engines[k]) := by
  simp only [System.step_eq, Option.map_map, Function.comp_def, engine_setEngine_same, Option.map_id']

/-- A step of engine `k`, then one of engine `j`: both start from what the two engines held at first. -/
theorem System.step_bind_step {n : Nat} (sys : System n) {j k : Fin n} (h : j ≠ k) :
    (sys.step k).bind (fun s => s.step j) =
      (nextState? (Machine.step sys.engines[k])).bind fun t =>
        (nextState? (Machine.step sys.engines[j])).map fun u => (sys.setEngine k t).setEngine j u := by
  simp only [System.step_eq, Option.bind_map, Function.comp_def, engine_setEngine_other sys h]

theorem System.step_comm {n : Nat} (sys : System n) {j k : Fin n} (h : j ≠ k) :
    (sys.step k).bind (fun s => s.step j) = (sys.step j).bind (fun s => s.step k) := by
  rw [sys.step_bind_step h, sys.step_bind_step h.symm]
  simp only [setEngine_comm sys h, Option.map_eq_bind]
  exact Option.bind_comm _ _

/-- Settles O6: a step writes only its own engine, reads only its own engine, and writes to two
places commute. -/
theorem enginesShareNothing : Obligations.EnginesShareNothing := by
  refine fun n sys k => ⟨fun sys' h => ?_, fun other ho => ?_, fun j hj => sys.step_comm hj⟩
  · obtain ⟨t, ht, rfl⟩ := System.step_eq_some h
    rw [engine_setEngine_same]
    exact ⟨ht, fun j hj => engine_setEngine_other sys hj t⟩
  · rw [System.step_map_engine, System.step_map_engine, ho]

end Machine

end Sys2Proof
end

section
/-!
PROOFS. The statement about the responses of a step (spec/30_encoding.md R103 to R105, spec/20_memory.md R60).
-/

namespace Sys2Proof

/-! ### What is left behind a packet (30 R103) -/

theorem suffix_of_payloadSection? {ws rest : List Word} {b : Bits} (h : payloadSection? ws = some (b, rest)) :
    rest <:+ ws := by
  obtain ⟨n, data, rfl, -⟩ := payloadSection?_eq_some h
  exact ⟨n :: data, rfl⟩

theorem suffix_of_optSection? {f : Bool} {ws rest : List Word} {p : Option Bits}
    (h : optSection? f ws = some (p, rest)) : rest <:+ ws := by
  cases f with
  | false => cases h; exact List.suffix_rfl
  | true =>
    obtain ⟨⟨b, r⟩, hb, hr⟩ := Option.map_eq_some_iff.mp h
    cases hr
    exact suffix_of_payloadSection? hb

theorem suffix_of_optWord? {f : Bool} {ws rest : List Word} {w : Option Word} (h : optWord? f ws = some (w, rest)) :
    rest <:+ ws := by
  cases f with
  | false => cases h; exact List.suffix_rfl
  | true =>
    cases ws with
    | nil => cases h
    | cons => cases h; exact List.suffix_cons ..

theorem suffix_of_initParts? {opt : Byte} {ws rest : List Word} {o : InitOpts}
    (h : initParts? opt ws = some (o, rest)) : rest <:+ ws := by
  simp only [initParts?, Option.bind_eq_some_iff, Option.map_eq_some_iff, Prod.mk.injEq] at h
  obtain ⟨⟨nr, r1⟩, h1, ⟨hk, r2⟩, h2, ⟨fn, r3⟩, h3, ⟨cu, r4⟩, h4, ⟨kk, r5⟩, h5, -, rfl⟩ := h
  calc
    r5 <:+ r4 := suffix_of_optSection? h5
    _ <:+ r3 := suffix_of_optSection? h4
    _ <:+ r2 := suffix_of_optSection? h3
    _ <:+ r1 := suffix_of_optSection? h2
    _ <:+ ws := suffix_of_optWord? h1

theorem ofParts_eq_cmd {α : Type} {mk : α → Instr} {p : Option (α × List Word)} {i : Instr} {rest : List Word}
    (h : Decoded.ofParts mk p = .cmd i rest) : ∃ a, p = some (a, rest) ∧ i = mk a := by
  cases p with
  | none => cases h
  | some p => cases h; exact ⟨p.1, rfl, rfl⟩

theorem suffix_of_decodeBody {h : Word} {ws rest : List Word} {i : Instr} (hd : decodeBody h ws = .cmd i rest) :
    rest <:+ ws := by
  unfold decodeBody at hd
  split_ifs at hd <;> obtain ⟨a, ha, -⟩ := ofParts_eq_cmd hd
  · exact suffix_of_initParts? ha
  · exact suffix_of_payloadSection? ha
  · exact suffix_of_optWord? ha
  · exact suffix_of_optWord? ha
  · exact suffix_of_payloadSection? ha

/-- A packet takes its header word, and from what stands behind it the parts `decodeBody` reads. -/
theorem drop_of_decode_cmd {ws rest : List Word} {i : Instr} (hd : decode ws = .cmd i rest) :
    ∃ k, 0 < k ∧ rest = ws.drop k := by
  cases ws with
  | nil => cases hd
  | cons h ws =>
    have hs : rest <:+ ws := by
      cases hf : headerFault h with
      | some why => rw [decode_of_fault hf] at hd; cases hd
      | none => rw [decode_of_legal hf] at hd; exact suffix_of_decodeBody hd
    exact ⟨_, Nat.succ_pos _, List.suffix_iff_eq_drop.mp hs⟩

theorem ofParts_ne_illegal {α : Type} (mk : α → Instr) (p : Option (α × List Word)) (why : IllegalWhy)
    (rest : List Word) : Decoded.ofParts mk p ≠ .illegal why rest := by
  cases p <;> nofun

/-- 30 R101: an illegal header is taken alone. -/
theorem drop_of_decode_illegal {ws rest : List Word} {why : IllegalWhy} (hd : decode ws = .illegal why rest) :
    rest = ws.drop 1 := by
  cases ws with
  | nil => cases hd
  | cons h ws =>
    cases hf : headerFault h with
    | some why' => rw [decode_of_fault hf] at hd; cases hd; rfl
    | none =>
      rw [decode_of_legal hf] at hd
      unfold decodeBody at hd
      split_ifs at hd <;> exact (ofParts_ne_illegal _ _ _ _ hd).elim

namespace Machine

/-! ### Responses (30 R104) -/

/-- Which responses a command can have: GETHASH and GETHMAC alone answer with bits, and never with a bare `Ok`. -/
def Answers (i : Instr) : Response → Prop
  | .ok => ∀ len, i ≠ .getHash len ∧ i ≠ .getHmac len
  | .okBits _ => ∃ len, i = .getHash len ∨ i = .getHmac len
  | .error _ => True

theorem answers_ok_initInstr (v : Variant) (o : InitOpts) : Answers (initInstr v o) .ok := by
  cases v <;> exact fun _ => ⟨nofun, nofun⟩

/-- A command that goes on appends one response, of the sort the command has. -/
theorem exec_next_response {i : Instr} {s t : State} (h : exec i s = .next t) :
    ∃ x, Answers i x ∧ t.rsp = s.rsp ++ encodeResponse x := by
  rcases instr_cases i with ⟨v, o, rfl⟩ | ⟨_, o, rfl⟩ | ⟨d, rfl⟩ | ⟨l, rfl⟩ | ⟨l, rfl⟩ | ⟨k, rfl⟩
  · rw [exec_initInstr] at h
    obtain ⟨e, -, rfl⟩ | ⟨-, s', hs', rfl⟩ := initVariant_next h
    · exact ⟨.error e, trivial, rfl⟩
    · refine ⟨.ok, answers_ok_initInstr v o, ?_⟩
      obtain ⟨-, rfl⟩ | ⟨key, k0, -, -, rfl⟩ := initEffect_eq_some hs' <;> rfl
  · cases h
    exact ⟨.error .unsupportedVariant, trivial, rfl⟩
  · obtain ⟨-, rfl⟩ | ⟨-, -, rfl⟩ := execUpdate_next h
    · exact ⟨.error .invalidState, trivial, rfl⟩
    · exact ⟨.ok, fun _ => ⟨nofun, nofun⟩, rfl⟩
  · obtain ⟨-, rfl⟩ | ⟨-, -, rfl⟩ | ⟨-, L, b, -, rfl, -⟩ := execGetHash_next h
    · exact ⟨.error .invalidState, trivial, rfl⟩
    · exact ⟨.error .unsupportedOutputLength, trivial, rfl⟩
    · exact ⟨.okBits b, ⟨l, .inl rfl⟩, rfl⟩
  · obtain ⟨-, rfl⟩ | ⟨-, -, rfl⟩ | ⟨-, -, -, rfl⟩ | ⟨-, -, L, ko, b, -, -, -, rfl⟩ := execGetHmac_next h
    · exact ⟨.error .invalidState, trivial, rfl⟩
    · exact ⟨.error .noKeySet, trivial, rfl⟩
    · exact ⟨.error .unsupportedOutputLength, trivial, rfl⟩
    · exact ⟨.okBits b, ⟨l, .inr rfl⟩, rfl⟩
  · obtain ⟨-, rfl⟩ | ⟨-, -, rfl⟩ | ⟨-, -, -, rfl⟩ | ⟨-, -, -, -, k0, -, rfl⟩ := execSetKey_next h
    · exact ⟨.error .invalidState, trivial, rfl⟩
    · exact ⟨.error .unsupportedOption, trivial, rfl⟩
    · exact ⟨.error .invalidState, trivial, rfl⟩
    · exact ⟨.ok, fun _ => ⟨nofun, nofun⟩, rfl⟩

/-- 30 R105: the seven error words. -/
theorem encodeResponse_error_mem (e : Err) : encodeResponse (.error e) ∈
    ([[0x80000001], [0x80000002], [0x80000003], [0x80000004], [0x80000005], [0x80000006], [0x8000007F]] :
      List (List Word)) := by
  cases e <;> decide

/-- Settles O15: the packet's words are gone from the front, and the one response is that of the command decoded,
or the error word of an illegal header. -/
theorem exactlyOneResponsePerPacket : Obligations.ExactlyOneResponsePerPacket := by
  intro s t hw h
  obtain ⟨i, rest, hd, he⟩ | ⟨why, rest, hd, rfl⟩ | ⟨hd, -⟩ := step_next h
  · obtain ⟨x, hx, hr⟩ := exec_next_response he
    obtain ⟨-, -, hc⟩ := exec_next_streams he
    refine ⟨hc ▸ drop_of_decode_cmd hd, encodeResponse x, hr, ?_⟩
    rw [hd]
    cases x with
    | ok => exact .inl ⟨rfl, fun _ len => ⟨fun hg => (hx len).1 (Decoded.cmd.inj hg).1,
        fun hg => (hx len).2 (Decoded.cmd.inj hg).1⟩⟩
    | okBits out =>
      obtain ⟨len, rfl | rfl⟩ := hx
      · exact .inr (.inl ⟨⟨out, rfl⟩, rest, len, .inl rfl⟩)
      · exact .inr (.inl ⟨⟨out, rfl⟩, rest, len, .inr rfl⟩)
    | error e => exact .inr (.inr (encodeResponse_error_mem e))
  · exact ⟨⟨1, Nat.one_pos, drop_of_decode_illegal hd⟩, _, rfl,
      .inr (.inr (encodeResponse_error_mem .illegalCommand))⟩
  · exact absurd hd hw

end Machine

end Sys2Proof
end

section
/-!
PROOFS. The statement about cutting a buffer into whole blocks (spec/40_bit_buffer.md R132).
-/

namespace Sys2Proof

/-- 40 R132: the postconditions determine the cut. -/
theorem takeBlocks_eq_iff (buffer : Bits) {B : Nat} (hB : 0 < B) (blocks : List Bits) (rest : Bits) :
    takeBlocks buffer B = (blocks, rest) ↔
      blocks.flatten ++ rest = buffer ∧ (∀ b ∈ blocks, b.length = B) ∧ rest.length < B := by
  constructor
  · intro h
    simpa only [h] using takeBlocks_spec buffer hB
  · rintro ⟨rfl, hblocks, hrest⟩
    exact takeBlocks_eq hB hblocks hrest

theorem takeBlocks_snd_eq_nil {buffer : Bits} {B : Nat} (h : buffer.length % B = 0) :
    (takeBlocks buffer B).2 = [] :=
  List.eq_nil_of_length_eq_zero ((length_takeBlocks_snd buffer B).trans h)

/-- Settles O46: the postconditions hold of the cut and leave no other; the counts and the corner cases are the lengths
of its two parts. -/
theorem takeBlocksCutsWholeBlocks : Obligations.TakeBlocksCutsWholeBlocks := fun buffer B hB =>
  ⟨takeBlocks_eq_iff buffer hB, length_takeBlocks_fst buffer B, length_takeBlocks_snd buffer B,
    takeBlocks_short, takeBlocks_snd_eq_nil⟩

end Sys2Proof
end

section
/-!
PROOFS. The statements about the incremental engine (spec/41_incremental_engine.md R150, R163 to R165).
-/

namespace Sys2Proof.Machine

/-! ### Chunking (41 R164) -/

/-- Chunks of lengths a variant admits make a whole of a length it admits. -/
theorem flatten_admitted {v : Variant} {cs : List Bits} (h : ∀ c ∈ cs, v.md = true ∨ c.length % 8 = 0) :
    v.md = true ∨ cs.flatten.length % 8 = 0 := by
  refine or_iff_not_imp_left.mpr fun hm => Nat.mod_eq_zero_of_dvd ?_
  rw [List.length_flatten]
  refine List.dvd_sum fun n hn => ?_
  obtain ⟨c, hc, rfl⟩ := List.mem_map.mp hn
  exact Nat.dvd_of_mod_eq_zero ((h c hc).resolve_left hm)

/-- Two states that differ in `RSP` alone append the same words in a run that goes on. -/
theorem runCommands_of_rsp {is : List Instr} {s s' : State} (h : runCommands is s = .next s') (r : List Word) :
    ∃ x, s'.rsp = s.rsp ++ x ∧ runCommands is { s with rsp := r } = .next { s' with rsp := r ++ x } := by
  obtain ⟨x, hx, hc, hrun⟩ := runCommands_streams is s s.cmd r h
  exact ⟨x, hx, by rw [← hc] at hrun ⊢; exact hrun⟩

/-- UPDATE of the empty string absorbs nothing. -/
theorem absorbRegs_nil {s : State} (h : s.rem.length < s.desc.blockBits) : absorbRegs [] s = s := by
  rw [absorbRegs, absorb_nil h]; rfl

/-- Settles O34: the chunks absorbed one after another are their concatenation absorbed at once, so the two runs end in
states that differ in `RSP` alone, which no later command reads. -/
theorem chunkingDoesNotMatter : Obligations.ChunkingDoesNotMatter := by
  refine ⟨fun s cs hne hp hc => ?_, fun s hinv hp => ?_⟩
  · obtain ⟨r, hr⟩ := runCommands_updates hne hp hc
    refine ⟨_, _, hr, exec_update_of_legal hp (flatten_admitted hc), rfl, fun later t' hl => ?_⟩
    obtain ⟨x, hx, hrun⟩ := runCommands_of_rsp hl (s.rsp ++ encodeResponse .ok)
    exact ⟨_, x, hrun, hx, rfl⟩
  · have hnil := absorbRegs_nil (hinv hp).rem_short
    refine ⟨_, exec_update_of_legal hp (.inr rfl), ?_⟩
    rw [hnil]
    exact ⟨rfl, rfl, rfl, rfl, rfl⟩

/-! ### GETHASH and GETHMAC -/

/-- GETHASH and GETHMAC write nothing but their response (41 R165). -/
theorem exec_finalize_next {i : Instr} {s t : State} (hi : ∃ len, i = .getHash len ∨ i = .getHmac len)
    (h : exec i s = .next t) : ∃ x, x ≠ .ok ∧ t = respond x s := by
  obtain ⟨len, rfl | rfl⟩ := hi
  · obtain ⟨-, rfl⟩ | ⟨-, -, rfl⟩ | ⟨-, L, b, -, rfl, -⟩ := execGetHash_next h
    · exact ⟨.error .invalidState, nofun, rfl⟩
    · exact ⟨.error .unsupportedOutputLength, nofun, rfl⟩
    · exact ⟨.okBits b, nofun, rfl⟩
  · obtain ⟨-, rfl⟩ | ⟨-, -, rfl⟩ | ⟨-, -, -, rfl⟩ | ⟨-, -, L, ko, b, -, -, -, rfl⟩ := execGetHmac_next h
    · exact ⟨.error .invalidState, nofun, rfl⟩
    · exact ⟨.error .noKeySet, nofun, rfl⟩
    · exact ⟨.error .unsupportedOutputLength, nofun, rfl⟩
    · exact ⟨.okBits b, nofun, rfl⟩

/-! ### The transitions of `PHASE` (41 R150) -/

/-- The rows of 41 R150 for a command that answers Ok. -/
def OkTransition (i : Instr) (s t : State) : Prop :=
  ((∃ v o, i = initInstr v o) ∧ t.phase = .fresh) ∨
    ((∃ data, i = .update data) ∧ (s.phase = .fresh ∨ s.phase = .updating) ∧ t.phase = .updating) ∨
    ((∃ key, i = .setKey key) ∧ s.phase = .fresh ∧ t.phase = .fresh)

theorem phase_fresh_or_updating {p : Phase} (h : p ≠ .idle) : p = .fresh ∨ p = .updating := by
  cases p with
  | idle => exact absurd rfl h
  | fresh => exact .inl rfl
  | updating => exact .inr rfl

/-- A session nothing was fed to is Fresh (10 R25). -/
theorem phase_fresh_of_not_upd {s : State} (h : SessionInv s) (hp : s.phase ≠ .idle) (hu : s.upd = false) :
    s.phase = .fresh := by
  refine (phase_fresh_or_updating hp).resolve_right fun hup => ?_
  rw [h.upd_phase.mpr hup] at hu
  cases hu

/-- A command that goes on answers Ok with a transition of the table, or writes nothing but another response. -/
theorem exec_next_transition {i : Instr} {s t : State} (hs : EngineInv s) (h : exec i s = .next t) :
    (t.rsp = s.rsp ++ encodeResponse .ok ∧ OkTransition i s t) ∨ ∃ x, x ≠ .ok ∧ t = respond x s := by
  have failed (e : Err) : ∃ x, x ≠ .ok ∧ raiseError e s = respond x s := ⟨.error e, nofun, rfl⟩
  rcases instr_cases i with ⟨v, o, rfl⟩ | ⟨_, o, rfl⟩ | ⟨d, rfl⟩ | ⟨l, rfl⟩ | ⟨l, rfl⟩ | ⟨k, rfl⟩
  · rw [exec_initInstr] at h
    obtain ⟨e, -, rfl⟩ | ⟨-, s', hs', rfl⟩ := initVariant_next h
    · exact .inr (failed e)
    · obtain ⟨-, rfl⟩ | ⟨key, k0, -, -, rfl⟩ := initEffect_eq_some hs' <;>
        exact .inl ⟨rfl, .inl ⟨⟨v, o, rfl⟩, rfl⟩⟩
  · cases h
    exact .inr (failed .unsupportedVariant)
  · obtain ⟨-, rfl⟩ | ⟨hp, -, rfl⟩ := execUpdate_next h
    · exact .inr (failed .invalidState)
    · exact .inl ⟨rfl, .inr (.inl ⟨⟨d, rfl⟩, phase_fresh_or_updating hp, rfl⟩)⟩
  · exact .inr (exec_finalize_next ⟨l, .inl rfl⟩ h)
  · exact .inr (exec_finalize_next ⟨l, .inr rfl⟩ h)
  · obtain ⟨-, rfl⟩ | ⟨-, -, rfl⟩ | ⟨-, -, -, rfl⟩ | ⟨hp, -, hu, -, k0, -, rfl⟩ := execSetKey_next h
    · exact .inr (failed .invalidState)
    · exact .inr (failed .unsupportedOption)
    · exact .inr (failed .invalidState)
    · have hfresh := phase_fresh_of_not_upd (hs hp) hp hu
      exact .inl ⟨rfl, .inr (.inr ⟨⟨k, rfl⟩, hfresh, hfresh⟩)⟩

/-- 30 R104: the word of the response Ok stands for no other response. -/
theorem encodeResponse_ne_ok {x : Response} (h : x ≠ .ok) : encodeResponse x ≠ [0x00000000] := by
  cases x with
  | ok => exact absurd rfl h
  | okBits out => nofun
  | error e => cases e <;> decide

theorem respond_rsp_ne_ok {x : Response} (h : x ≠ .ok) (s : State) : (respond x s).rsp ≠ s.rsp ++ [0x00000000] :=
  fun hr => encodeResponse_ne_ok h (List.append_cancel_left hr)

/-- A step that decodes no command keeps `PHASE`. -/
theorem phase_step_of_no_command {s t : State} (hn : ∀ i rest, decode s.cmd ≠ .cmd i rest) (h : step s = .next t) :
    t.phase = s.phase := by
  obtain ⟨i, rest, hd, -⟩ | ⟨why, rest, -, rfl⟩ | ⟨-, rfl⟩ := step_next h
  · exact absurd hd (hn i rest)
  · rfl
  · rfl

/-- Settles O23: the response tells the rows of the table from the commands that keep `PHASE`. -/
theorem phaseTransitionsAreTheTable : Obligations.PhaseTransitionsAreTheTable := by
  refine ⟨fun _ _ => rfl, fun s t => phase_step_of_no_command, fun i s t hs h => ?_⟩
  obtain ⟨hr, ht⟩ | ⟨x, hx, rfl⟩ := exec_next_transition hs h
  · rwa [if_pos (show t.rsp = s.rsp ++ [0x00000000] from hr)]
  · rw [if_neg (respond_rsp_ne_ok hx s), respond_phase]

/-! ### The output length of a fixed-length variant (41 R163) -/

theorem toNat_ofNat_outBits (v : Variant) : (BitVec.ofNat 32 v.desc.outBits).toNat = v.desc.outBits := by
  cases v <;> rfl

/-- 41 R156: the length absent or the variant's own. -/
theorem outLen_fixed {v : Variant} {len : Option Word} (h0 : v.desc.outBits ≠ 0)
    (hlen : len = none ∨ len = some (BitVec.ofNat 32 v.desc.outBits)) : outLen v.desc len = some v.desc.outBits := by
  unfold outLen
  rw [if_pos h0]
  obtain rfl | rfl := hlen
  · rfl
  · exact if_pos (toNat_ofNat_outBits v)

/-- 41 R156: every other explicit length. -/
theorem outLen_fixed_other {v : Variant} {n : Word} (h0 : v.desc.outBits ≠ 0)
    (hn : n ≠ BitVec.ofNat 32 v.desc.outBits) : outLen v.desc (some n) = none := by
  unfold outLen
  rw [if_pos h0]
  exact if_neg fun h => hn (BitVec.eq_of_toNat_eq (h.trans (toNat_ofNat_outBits v).symm))

section Finalize
variable {s : State} {len : Option Word}

theorem exec_getHash_badLength (hp : s.phase ≠ .idle) (hl : outLen s.desc len = none) :
    exec (.getHash len) s = .next (raiseError .unsupportedOutputLength s) := by
  show execGetHash len s = _
  rw [execGetHash, if_neg hp, hl]
  rfl

theorem exec_getHmac_badLength (hp : s.phase ≠ .idle) (hk : s.keyset = true) (hl : outLen s.desc len = none) :
    exec (.getHmac len) s = .next (raiseError .unsupportedOutputLength s) := by
  show execGetHmac len s = _
  rw [execGetHmac, if_neg hp, hk, hl]
  rfl

/-- GETHASH without a key installed (41 R160). -/
theorem exec_getHash_unkeyed {L : Nat} (hp : s.phase ≠ .idle) (hk : s.keyset = false)
    (hl : outLen s.desc len = some L) : exec (.getHash len) s = answer (plainOutput s L) s := by
  show execGetHash len s = _
  rw [execGetHash, if_neg hp, hl, hk]
  rfl

/-- GETHASH with a key installed (42 R197). -/
theorem exec_getHash_keyed {L : Nat} (hp : s.phase ≠ .idle) (hk : s.keyset = true)
    (hl : outLen s.desc len = some L) : exec (.getHash len) s = keyedAnswer s := by
  show execGetHash len s = _
  rw [execGetHash, if_neg hp, hl, hk]
  rfl

/-- GETHMAC (42 R196). -/
theorem exec_getHmac_keyed {L : Nat} (hp : s.phase ≠ .idle) (hk : s.keyset = true)
    (hl : outLen s.desc len = some L) : exec (.getHmac len) s = keyedAnswer s := by
  show execGetHmac len s = _
  rw [execGetHmac, if_neg hp, hk, hl]
  rfl

/-- A sound keyed session whose total length fits answers `d.outBits` bits (42 R195). -/
theorem keyedAnswer_of_sound (h : SessionInv s) (hk : s.keyset = true) (hf : LengthFits s) :
    ∃ out : Bits, out.length = s.desc.outBits ∧ keyedAnswer s = .next (afterBits out s) := by
  obtain ⟨kout, b, hkout, hb, hlen⟩ := hmacFinal_of_sound h hk hf
  refine ⟨b, hlen, ?_⟩
  rw [keyedAnswer, hkout]
  exact congrArg (answer · s) hb

/-- A sound session of a fixed-length variant whose total length fits answers GETHASH with `d.outBits` bits. -/
theorem exec_getHash_fixed (h : SessionInv s) (hp : s.phase ≠ .idle) (hf : LengthFits s)
    (hl : outLen s.desc len = some s.desc.outBits) :
    ∃ out : Bits, out.length = s.desc.outBits ∧ exec (.getHash len) s = .next (afterBits out s) := by
  cases hk : s.keyset with
  | true => rw [exec_getHash_keyed hp hk hl]; exact keyedAnswer_of_sound h hk hf
  | false =>
    rw [exec_getHash_unkeyed hp hk hl]
    obtain ⟨b, hb, hlen⟩ := plainOutput_of_sound h hf s.desc.outBits fun _ => rfl
    exact ⟨b, hlen, congrArg (answer · s) hb⟩

end Finalize

/-- Settles O35: `OutLen` admits these lengths and no other, and a sound session whose length fits has an output. -/
theorem fixedLengthOutputHasItsLength : Obligations.FixedLengthOutputHasItsLength := by
  intro s hs hp h0 hf
  refine ⟨fun len hlen => ?_, fun n hn => ?_⟩
  · have hl : outLen s.desc len = some s.desc.outBits := outLen_fixed h0 hlen
    refine ⟨exec_getHash_fixed (hs hp) hp hf hl, fun hk => ?_⟩
    rw [exec_getHmac_keyed hp hk hl]
    exact keyedAnswer_of_sound (hs hp) hk hf
  · have hl : outLen s.desc (some n) = none := outLen_fixed_other h0 hn
    exact ⟨exec_getHash_badLength hp hl, fun hk => exec_getHmac_badLength hp hk hl⟩

/-! ### Finalizing is non-destructive (41 R165) -/

/-- A command whose only effect is its response has the same effect whatever stands in `RSP`. -/
theorem exec_respond_of_rsp {i : Instr} {s : State} {x : Response} (h : exec i s = .next (respond x s))
    (r : List Word) : exec i { s with rsp := r } = .next (respond x { s with rsp := r }) := by
  rw [exec_streams i s s.cmd r, h, onStreams_respond x s.cmd r rfl]

/-- Settles O42: a finalize writes its response alone, and no command reads what stands in `RSP`. -/
theorem finalizeIsNonDestructive : Obligations.FinalizeIsNonDestructive := by
  intro i s t hi h
  obtain ⟨x, -, rfl⟩ := exec_finalize_next hi h
  refine ⟨rfl, encodeResponse x, rfl, exec_respond_of_rsp h _, fun later s' hl => ?_⟩
  exact runCommands_of_rsp hl _

end Sys2Proof.Machine
end

section
/-!
PROOFS. The statements about HMAC (spec/42_hmac.md R191 to R198).
-/

namespace Sys2Proof.Machine

/-! ### GETHASH with a key installed (42 R197) -/

/-- Settles O41: the same check of the length, and behind it the same answer. -/
theorem getHashWithAKeyIsGetHmac : Obligations.GetHashWithAKeyIsGetHmac := by
  intro s len hp hk
  cases hl : outLen s.desc len with
  | none => rw [exec_getHash_badLength hp hl, exec_getHmac_badLength hp hk hl]
  | some L => rw [exec_getHash_keyed hp hk hl, exec_getHmac_keyed hp hk hl]

/-! ### The key brought to one block (42 R191) -/

theorem normKey_of_le {v : Variant} {key : Bits} (h : key.length ≤ v.desc.blockBits) :
    normKey v key = some (padz key v.desc.blockBits) := if_neg (Nat.not_lt.mpr h)

theorem normKey_of_lt {v : Variant} {key : Bits} (h : v.desc.blockBits < key.length) :
    normKey v key = (oneShot v key).map (padz · v.desc.blockBits) := if_pos h

theorem eq_padz_of_normKey {v : Variant} {key k0 : Bits} (h : normKey v key = some k0)
    (hle : key.length ≤ v.desc.blockBits) : k0 = padz key v.desc.blockBits := by
  rw [normKey_of_le hle] at h
  exact (Option.some.inj h).symm

/-- A key longer than a block has the normal form of its hash. -/
theorem oneShot_of_normKey {v : Variant} {key k0 : Bits} (h : normKey v key = some k0)
    (hlt : v.desc.blockBits < key.length) :
    ∃ k, oneShot v key = some k ∧ k.length = v.desc.outBits ∧ k0 = padz k v.desc.blockBits ∧ normKey v k = some k0 := by
  rw [normKey_of_lt hlt] at h
  obtain ⟨k, hk, rfl⟩ := Option.map_eq_some_iff.mp h
  have hlen := length_oneShot hk
  exact ⟨k, hk, hlen, rfl, normKey_of_le (hlen.trans_le (outBits_lt_blockBits v).le)⟩

/-- A key a packet can carry has a normal form. -/
theorem normKey_of_payload (v : Variant) {key : Bits} (h : key.length < 2 ^ 32) : ∃ k0, normKey v key = some k0 :=
  normKey_isSome (fits_of_lt (h.trans (by decide)))

/-! ### SETKEY (42 R192, R193) -/

/-- The inner key block, absorbed where INIT put the session, is exactly one round. -/
theorem absorb_padKey_fresh {v : Variant} {k0 : Bits} (c : Byte) (h : k0.length = v.desc.blockBits) :
    absorb v.desc (freshTriple v) (padKey v c k0) =
      ⟨round (newState v) (padKey v c k0), [], some (BitVec.ofNat 128 v.desc.blockBits)⟩ := by
  rw [absorb_one_block (blockBits_pos v) rfl (length_padKey c h)]
  have hB : v.desc.blockBits < 2 ^ 128 := (blockBits_le v).trans_lt (by decide)
  simp only [freshTriple, counterAdd_some_zero, counterOf_eq_some hB]

/-- A sound Fresh session without a key stands where INIT put it (42 R193). -/
theorem triple_of_fresh {s : State} (h : SessionInv s) (hp : s.phase = .fresh) (hk : s.keyset = false)
    (h0 : s.desc.outBits ≠ 0) : s.triple = freshTriple s.var := by
  obtain ⟨his, hplen⟩ := h.fresh_start hp hk h0
  rw [State.triple, his, hplen, h.fresh_rem hp]
  rfl

/-- What `InstallKey` leaves in a session that stands where INIT put it (42 R193). -/
theorem installNormKey_of_start {s : State} {k0 : Bits} (ht : s.triple = freshTriple s.var)
    (hl : k0.length = s.desc.blockBits) :
    installNormKey k0 s =
      { s with keyset := true
               kin := some (padKey s.var 0x36 k0)
               kout := some (padKey s.var 0x5C k0)
               is := round (newState s.var) (padKey s.var 0x36 k0)
               rem := []
               plen := some (BitVec.ofNat 128 s.desc.blockBits) } := by
  have ha : absorb s.desc s.triple (padKey s.var 0x36 k0) = _ := ht ▸ absorb_padKey_fresh 0x36 hl
  rw [installNormKey, ha]
  rfl

/-- Settles O31: the session stands where INIT put it, so the inner pad is absorbed as one block. -/
theorem setKeyInstallsThePads : Obligations.SetKeyInstallsThePads := by
  intro key s hs hp hk hnr h0 hkey hlen B
  have hni : s.phase ≠ .idle := by rw [hp]; nofun
  have hinv := hs hni
  have hu : s.upd = false := Bool.eq_false_iff.mpr fun hu => by
    simpa [hp] using hinv.upd_phase.mp hu
  obtain ⟨k0, hk0⟩ := normKey_of_payload s.var hlen
  refine ⟨k0, length_normKey hk0, eq_padz_of_normKey hk0, fun hlt => ?_, ?_⟩
  · obtain ⟨k, hash, hkl, hpad, -⟩ := oneShot_of_normKey hk0 hlt
    exact ⟨k, hash, hkl, hpad⟩
  · rw [exec_setKey_of_allowed hni ((keyAllowed_iff _ _ _).mpr ⟨h0, hnr, hkey⟩) hu hk hk0,
      installNormKey_of_start (triple_of_fresh hinv hp hk h0) (length_normKey hk0)]
    rfl

/-! ### The two passes (42 R195, R198) -/

/-- The finalize of a keyed session that absorbed `inner` is two one-shot hashes. -/
theorem hmacFinal_absorb_fresh (v : Variant) (text kout : Bits) :
    hmacFinal v (absorb v.desc (freshTriple v) text) kout =
      (oneShot v text).bind fun inner => oneShot v (kout ++ inner) := by
  simp only [hmacFinal, oneShot, absorb_append (blockBits_pos v)]

/-- The options of an INIT that has none. -/
def noOptions : InitOpts := ⟨none, none, none, none, none⟩

/-- INIT without options is accepted on every variant that admits a key (41 R157). -/
theorem initCheck_noOptions {v : Variant} (h : v.desc.outBits ≠ 0) : initCheck v noOptions = none := by
  revert h
  cases v <;> decide

/-- What INIT, SETKEY and one UPDATE leave: the registers a keyed finalize reads. -/
theorem runCommands_keyed {v : Variant} {key k0 m : Bits} (s : State) (h0 : v.desc.outBits ≠ 0)
    (hkey : v.md = true ∨ key.length % 8 = 0) (hm : v.md = true ∨ m.length % 8 = 0) (hk0 : normKey v key = some k0) :
    ∃ t, runCommands [initInstr v noOptions, .setKey key, .update m] s = .next t ∧
      t.phase ≠ .idle ∧ t.var = v ∧ t.keyset = true ∧ t.kout = some (padKey v 0x5C k0) ∧
      t.triple = absorb v.desc (freshTriple v) (padKey v 0x36 k0 ++ m) := by
  have hinit := exec_init_of_check (s := s) (initCheck_noOptions h0) rfl
  rw [absorbPrefix_of_nil (prefixInputs_eq_nil _ h0)] at hinit
  have hset := exec_setKey_of_allowed (s := respond .ok (startSession v noOptions s)) (by simp)
    ((keyAllowed_iff _ _ _).mpr ⟨h0, rfl, hkey⟩) rfl rfl hk0
  rw [runCommands_cons hinit, runCommands_cons hset, runCommands_cons (exec_update_of_legal (by simp) hm)]
  exact ⟨_, rfl, by simp, rfl, rfl, rfl, absorb_append (blockBits_pos v) (freshTriple v) (padKey v 0x36 k0) m⟩

/-- GETHMAC after INIT, SETKEY and one UPDATE answers the two-pass hash under the normalised key. -/
theorem exec_getHmac_keyed_session {v : Variant} {key k0 m inner out : Bits} (s : State) (h0 : v.desc.outBits ≠ 0)
    (hkey : v.md = true ∨ key.length % 8 = 0) (hm : v.md = true ∨ m.length % 8 = 0) (hk0 : normKey v key = some k0)
    (hin : oneShot v (padKey v 0x36 k0 ++ m) = some inner) (hout : oneShot v (padKey v 0x5C k0 ++ inner) = some out) :
    ∃ t, runCommands [initInstr v noOptions, .setKey key, .update m] s = .next t ∧
      exec (.getHmac none) t = .next (afterBits out t) := by
  obtain ⟨t, hrun, hp, hv, hk, hkout, ht⟩ := runCommands_keyed s h0 hkey hm hk0
  subst hv
  refine ⟨t, hrun, ?_⟩
  rw [exec_getHmac_keyed hp hk (outLen_fixed h0 (.inl rfl)), keyedAnswer, hkout]
  show answer (hmacFinal t.var t.triple _) t = _
  rw [ht, hmacFinal_absorb_fresh, hin, Option.bind_some, hout]
  rfl

/-- The width of the length field by variant (10 R23). -/
theorem fieldBits_of_md {v : Variant} (h : v.md = true) :
    Desc.fieldBits v.desc = if v = .sha384 ∨ v = .sha512 then 128 else 64 := by
  revert h
  cases v <;> decide

/-- Settles O40: both runs absorb the inner pad and the message, and the keyed finalize hashes the outer pad and the
inner digest; a long key and its hash have one normal form. -/
theorem hmacIsTheTwoPassConstruction : Obligations.HmacIsTheTwoPassConstruction := by
  intro v K m s h0 hwhole hlen hfits B plain
  have hK : v.md = true ∨ K.length % 8 = 0 := hwhole.imp_right And.left
  have hm : v.md = true ∨ m.length % 8 = 0 := hwhole.imp_right And.right
  obtain ⟨k0, hk0⟩ := normKey_of_payload v hlen
  have hl0 := length_normKey hk0
  obtain ⟨inner, hin⟩ : ∃ inner, oneShot v (padKey v 0x36 k0 ++ m) = some inner :=
    oneShot_isSome fun hmd => by
      rw [List.length_append, length_padKey _ hl0, fieldBits_of_md hmd]
      exact hfits hmd
  obtain ⟨out, hout⟩ : ∃ out, oneShot v (padKey v 0x5C k0 ++ inner) = some out := by
    refine oneShot_isSome (fits_of_lt ?_)
    rw [List.length_append, length_padKey _ hl0, length_oneShot hin]
    have := blockBits_le v
    have := outBits_lt_blockBits v
    omega
  obtain ⟨t, hrun, hans⟩ := exec_getHmac_keyed_session s h0 hK hm hk0 hin hout
  refine ⟨k0, inner, out, t, hl0, eq_padz_of_normKey hk0, fun hlt => ?_, hrun, hin, hout, hans, fun hlt => ?_⟩
  · obtain ⟨k, hash, -, hpad, -⟩ := oneShot_of_normKey hk0 hlt
    exact ⟨k, hash, hpad⟩
  · obtain ⟨k, hash, hkl, -, hnorm⟩ := oneShot_of_normKey hk0 hlt
    obtain ⟨t', hrun', hans'⟩ :=
      exec_getHmac_keyed_session s h0 (.inr (hkl ▸ outBits_mod8 v)) hm hnorm hin hout
    exact ⟨k, t', hash, hrun', hans'⟩

end Sys2Proof.Machine
end

section
/-!
PROOFS. The statements about the Merkle–Damgård backend: the padding, the digest, the message schedules, the initial
states, the length limit (spec/43_md_sha1.md R211 to R218, spec/44_sha256.md R240, R241, R244, spec/45_sha512.md R260,
R261, R264).
-/

namespace Sys2Proof.Machine

/-! ### The length limit (43 R214) -/

/-- The limit of a total length, by variant. -/
theorem two_pow_fieldBits_of_md {v : Variant} (h : v.md = true) :
    2 ^ Desc.fieldBits v.desc = if v = .sha384 ∨ v = .sha512 then 2 ^ 128 else 2 ^ 64 := by
  rw [fieldBits_of_md h, apply_ite (2 ^ ·)]

theorem outBits_ne_zero_of_md {v : Variant} (h : v.md = true) : v.desc.outBits ≠ 0 := by
  revert h
  cases v <;> decide

/-- What is absorbed counts, up to the capacity of the counter. -/
theorem le_total_absorb_fresh (v : Variant) {m : Bits} {n : Nat} (hn : n ≤ 2 ^ 128) (h : n ≤ m.length) :
    n ≤ (absorb v.desc (freshTriple v) m).total := by
  rw [← Nat.not_lt, absorb_total_lt _ _ _ hn, total_freshTriple]
  omega

theorem finalize_eq_none {v : Variant} {t : Triple} (hm : v.md = true) (hview : t.is.family = v.desc.family)
    (hT : 2 ^ Desc.fieldBits v.desc ≤ t.total) (L : Nat) (csf : Bool) : finalize v.desc t L csf = none :=
  (finalize_md hview hm L csf).trans (mdFinal_eq_none hT)

/-- A keyed finalize has no output either: its inner pass has none. -/
theorem hmacFinal_eq_none {v : Variant} {t : Triple} (hm : v.md = true) (hview : t.is.family = v.desc.family)
    (hT : 2 ^ Desc.fieldBits v.desc ≤ t.total) (kout : Bits) : hmacFinal v t kout = none := by
  rw [hmacFinal, finalize_eq_none hm hview hT]
  rfl

section Overflow
variable {s : State} (hm : s.var.md = true) (hview : s.is.family = s.desc.family)
  (hT : 2 ^ Desc.fieldBits s.desc ≤ s.triple.total)
include hm hview hT

theorem plainOutput_eq_none (L : Nat) : plainOutput s L = none := by
  have hnone : finalize s.desc s.triple L s.csf = none := finalize_eq_none hm hview hT L s.csf
  rw [plainOutput, hnone]
  rfl

theorem keyedAnswer_of_overflow {kout : Bits} (hkout : s.kout = some kout) :
    keyedAnswer s = .refused .mdLengthOverflow := by
  rw [keyedAnswer, hkout]
  exact congrArg (answer · s) (hmacFinal_eq_none hm hview hT kout)

/-- A session of an MD variant whose total length does not fit the length field: both finalize commands are refused. -/
theorem exec_finalize_of_overflow {len : Option Word} (hp : s.phase ≠ .idle)
    (hkout : s.keyset = true → ∃ kout, s.kout = some kout)
    (hlen : len = none ∨ len = some (BitVec.ofNat 32 s.desc.outBits)) :
    exec (.getHash len) s = .refused .mdLengthOverflow ∧
      (s.keyset = true → exec (.getHmac len) s = .refused .mdLengthOverflow) := by
  have hl : outLen s.desc len = some s.desc.outBits := outLen_fixed (outBits_ne_zero_of_md hm) hlen
  cases hk : s.keyset with
  | true =>
    obtain ⟨kout, hko⟩ := hkout hk
    have hrefused := keyedAnswer_of_overflow hm hview hT hko
    exact ⟨(exec_getHash_keyed hp hk hl).trans hrefused, fun _ => (exec_getHmac_keyed hp hk hl).trans hrefused⟩
  | false =>
    refine ⟨?_, nofun⟩
    rw [exec_getHash_unkeyed hp hk hl, plainOutput_eq_none hm hview hT]
    rfl

end Overflow

/-- A session that has absorbed more bits than the length field can count: both finalize commands are refused. -/
theorem exec_finalize_of_absorbed {s : State} {m : Bits} {len : Option Word} (hm : s.var.md = true)
    (ht : s.triple = absorb s.var.desc (freshTriple s.var) m) (hT : 2 ^ Desc.fieldBits s.var.desc ≤ m.length)
    (hp : s.phase ≠ .idle) (hkout : s.keyset = true → ∃ kout, s.kout = some kout)
    (hlen : len = none ∨ len = some (BitVec.ofNat 32 s.var.desc.outBits)) :
    exec (.getHash len) s = .refused .mdLengthOverflow ∧
      (s.keyset = true → exec (.getHmac len) s = .refused .mdLengthOverflow) := by
  have hview : s.triple.is.family = s.desc.family := ht ▸ family_absorb_fresh s.var m
  have htotal : 2 ^ Desc.fieldBits s.desc ≤ s.triple.total := ht ▸ le_total_absorb_fresh s.var (fieldBits_le _) hT
  exact exec_finalize_of_overflow hm hview htotal hp hkout hlen

theorem kout_of_keyed {s : State} (h : SessionInv s) (hk : s.keyset = true) : ∃ kout, s.kout = some kout := by
  have hko := h.key_kout
  rw [hk, if_pos rfl] at hko
  obtain ⟨kout, hkout, -⟩ := Option.map_eq_some_iff.mp hko
  exact ⟨kout, hkout⟩

/-- What UPDATEs, or none at all, leave of a session: they absorb their payloads and keep its key. -/
theorem runCommands_updates_session {cs : List Bits} {s : State} (hp : s.phase ≠ .idle)
    (hr : s.rem.length < s.desc.blockBits) (h : ∀ c ∈ cs, s.var.md = true ∨ c.length % 8 = 0) :
    ∃ t, runCommands (cs.map .update) s = .next t ∧ t.phase ≠ .idle ∧ t.var = s.var ∧ t.keyset = s.keyset ∧
      t.kout = s.kout ∧ t.triple = absorb s.desc s.triple cs.flatten := by
  by_cases hcs : cs = []
  · subst hcs
    exact ⟨s, rfl, hp, rfl, rfl, rfl, (absorb_nil hr).symm⟩
  · obtain ⟨r, hrun⟩ := runCommands_updates hcs hp h
    exact ⟨_, hrun, by simp, rfl, rfl, rfl, rfl⟩

/-- What INIT, SETKEY and UPDATEs leave: the registers a keyed finalize reads. -/
theorem runCommands_keyed_updates {v : Variant} {key k0 : Bits} {cs : List Bits} (s : State) (h0 : v.desc.outBits ≠ 0)
    (hkey : v.md = true ∨ key.length % 8 = 0) (h : ∀ c ∈ cs, v.md = true ∨ c.length % 8 = 0)
    (hk0 : normKey v key = some k0) :
    ∃ t, runCommands (initInstr v noOptions :: .setKey key :: cs.map .update) s = .next t ∧ t.phase ≠ .idle ∧
      t.var = v ∧ t.keyset = true ∧ t.kout = some (padKey v 0x5C k0) ∧
      t.triple = absorb v.desc (freshTriple v) (padKey v 0x36 k0 ++ cs.flatten) := by
  have hB := blockBits_pos v
  have hinit := exec_init_of_check (s := s) (initCheck_noOptions h0) rfl
  rw [absorbPrefix_of_nil (prefixInputs_eq_nil _ h0)] at hinit
  have hset := exec_setKey_of_allowed (s := respond .ok (startSession v noOptions s)) (by simp)
    ((keyAllowed_iff _ _ _).mpr ⟨h0, rfl, hkey⟩) rfl rfl hk0
  rw [runCommands_cons hinit, runCommands_cons hset]
  obtain ⟨t, hrun, hp, hv, hk, hkout, ht⟩ := runCommands_updates_session
    (s := respond .ok (installNormKey k0 (respond .ok (startSession v noOptions s)))) (by simp)
    (absorb_rem_lt hB (freshTriple v) (padKey v 0x36 k0)) h
  exact ⟨t, hrun, hp, hv, hk, hkout, ht.trans (absorb_append hB (freshTriple v) (padKey v 0x36 k0) cs.flatten)⟩

/-- Settles O43: what is absorbed reaches the total length, whose finalize has no output; the key block counts with it. -/
theorem lengthOverflowIsRefused : Obligations.LengthOverflowIsRefused := by
  unfold Obligations.LengthOverflowIsRefused
  intro limit
  have hlimit {v : Variant} (hm : v.md = true) : limit v = 2 ^ Desc.fieldBits v.desc := (two_pow_fieldBits_of_md hm).symm
  refine ⟨fun s p len hs hp hm hplen hT hlen => ?_, fun v cs s len hm hlen => ⟨fun hT => ?_, fun K hK hT => ?_⟩⟩
  · have hinv := hs hp
    refine exec_finalize_of_overflow hm hinv.view ?_ hp (kout_of_keyed hinv) hlen
    rw [hlimit hm] at hT
    rwa [Triple.total, triple_plen, triple_rem, hplen, counted_some]
  · have h0 := outBits_ne_zero_of_md hm
    obtain ⟨t, hrun, hp, rfl, -, hk, -, ht⟩ :=
      runCommands_session (s := s) (initCheck_noOptions h0) rfl fun (c : Bits) (_ : c ∈ cs) => .inl hm
    rw [prefixInputs_eq_nil _ h0, List.flatten_nil, List.nil_append] at ht
    have hkout : t.keyset = true → ∃ kout, t.kout = some kout := by simp [hk]
    exact ⟨t, hrun, (exec_finalize_of_absorbed hm ht (hlimit hm ▸ hT) hp hkout hlen).1⟩
  · obtain ⟨k0, hk0⟩ := normKey_of_payload v hK
    obtain ⟨t, hrun, hp, rfl, hk, hkout, ht⟩ := runCommands_keyed_updates s (outBits_ne_zero_of_md hm) (.inl hm)
      (fun (c : Bits) (_ : c ∈ cs) => .inl hm) hk0
    rw [hlimit hm, ← length_padKey 0x36 (length_normKey hk0), ← List.length_append] at hT
    obtain ⟨hhash, hmac⟩ := exec_finalize_of_absorbed hm ht hT hp (fun _ => ⟨_, hkout⟩) hlen
    exact ⟨t, hrun, hhash, hmac hk⟩

/-! ### The padding (43 R211) -/

theorem mdPadZeros_lt (n : Nat) {B : Nat} (F : Nat) (hB : 0 < B) : mdPadZeros n B F < B := Nat.mod_lt _ hB

theorem length_mdPad (R : Bits) (T B F : Nat) :
    (mdPad R T B F).length = R.length + 1 + mdPadZeros R.length B F + F := by
  simp only [mdPad, List.length_append, List.length_singleton, length_zeros, length_bitsBE]

/-- With fewer zeros the length is no multiple of the block: the two lengths differ by less than a block. -/
theorem mdPadZeros_minimal (R : Bits) (T : Nat) {B F j : Nat} (hB : 0 < B) (hj : j < mdPadZeros R.length B F) :
    (R.length + 1 + j + F) % B ≠ 0 := by
  intro h
  have hdvd : B ∣ mdPadZeros R.length B F - j := by
    have hsub := Nat.dvd_sub (Nat.dvd_of_mod_eq_zero (length_mdPad_mod R T (F := F) hB)) (Nat.dvd_of_mod_eq_zero h)
    rwa [length_mdPad, Nat.add_sub_add_right, Nat.add_sub_add_left] at hsub
  have := Nat.le_of_dvd (Nat.sub_pos_of_lt hj) hdvd
  have := mdPadZeros_lt R.length F hB
  omega

/-- The padded remainder is the one multiple of the block in its range. -/
theorem length_mdPad_blocks {R : Bits} (T : Nat) {B F : Nat} (hR : R.length < B) (hF : F < B) :
    (mdPad R T B F).length = if R.length + 1 + F ≤ B then B else 2 * B := by
  have hB : 0 < B := by omega
  have hdvd := Nat.dvd_of_mod_eq_zero (length_mdPad_mod R T (F := F) hB)
  have hlt := mdPadZeros_lt R.length F hB
  rw [length_mdPad] at *
  split_ifs with h
  · exact Nat.eq_of_dvd_of_lt_two_mul (by omega) hdvd (by omega)
  · have := Nat.eq_of_dvd_of_lt_two_mul (by omega) (Nat.dvd_sub hdvd (dvd_refl B)) (by omega)
    omega

/-- Settles O49: the zeros are the `mdPadZeros` of the model, fewer than a block, so the padded length is the next multiple
of the block. -/
theorem mdPaddingIsMinimal : Obligations.MdPaddingIsMinimal := by
  intro R T B F hR hF
  have hB : 0 < B := by omega
  refine ⟨mdPadZeros R.length B F, rfl, ?_, fun j hj => mdPadZeros_minimal R T hB hj, length_mdPad_blocks T hR hF⟩
  rw [← length_mdPad R T]
  exact length_mdPad_mod R T hB

/-! ### The message schedules (43 R218, 44 R244, 45 R264) -/

/-- A schedule by index, for a recurrence that reads the sixteen words before. -/
theorem schedule_getD {w : Nat} {f : (Nat → BitVec w) → BitVec w} {M : List (BitVec w)} (n : Nat)
    (hf : ∀ g g' : Nat → BitVec w, (∀ k, 1 ≤ k → k ≤ 16 → g k = g' k) → f g = f g') (hM : M.length = 16) :
    (schedule f n M).length = 16 + n ∧ (∀ t, t < 16 → (schedule f n M).getD t 0 = M.getD t 0) ∧
      ∀ t, 16 ≤ t → t < 16 + n → (schedule f n M).getD t 0 = f fun k => (schedule f n M).getD (t - k) 0 := by
  obtain ⟨hfront, hlater⟩ := extendSchedule_getD f hf n M.reverse (by simp [hM])
  rw [List.length_reverse, hM] at hfront hlater
  refine ⟨?_, fun t ht => ?_, hlater⟩
  · rw [schedule, List.length_reverse, length_extendSchedule, List.length_reverse, hM, Nat.add_comm]
  · rw [schedule, hfront t ht, List.reverse_reverse]

/-- Settles O51: each recurrence reads words at most sixteen places back. -/
theorem schedulesFollowTheirRecurrences : Obligations.SchedulesFollowTheirRecurrences := by
  refine ⟨fun M hM => schedule_getD 64 (fun g g' h => ?_) hM, fun M hM => schedule_getD 48 (fun g g' h => ?_) hM,
    fun M hM => schedule_getD 64 (fun g g' h => ?_) hM⟩
  · rw [h 3 (by decide) (by decide), h 8 (by decide) (by decide), h 14 (by decide) (by decide),
      h 16 (by decide) (by decide)]
  · rw [h 2 (by decide) (by decide), h 7 (by decide) (by decide), h 15 (by decide) (by decide),
      h 16 (by decide) (by decide)]
  · rw [h 2 (by decide) (by decide), h 7 (by decide) (by decide), h 15 (by decide) (by decide),
      h 16 (by decide) (by decide)]

/-! ### The initial states (43 R215, 44 R240, R241, 45 R260, R261) -/

/-- INIT of an MD variant refuses no option but a key and `nr = 0` (41 R157). -/
theorem initCheck_md {v : Variant} {o : InitOpts} (hm : v.md = true) (hnr : o.nr ≠ some 0) (hhk : o.hk = none)
    (hfn : o.fn = none) (hcu : o.cu = none) (hkk : o.kk = none) : initCheck v o = none := by
  have hopt : optionRefused v o = false := by
    simpa [optionRefused, hm, hhk, hfn, hcu, hkk] using fun _ => hnr
  have hkey : kmacKeyMissing v o = false := by simp [kmacKeyMissing, (md_iff v).mp hm]
  simp [initCheck, hopt, hkey]

/-- INIT of an MD variant without a key starts a session at the initial state of the variant (41 R158). -/
theorem exec_init_md {v : Variant} {o : InitOpts} (s : State) (hm : v.md = true) (hnr : o.nr ≠ some 0)
    (hhk : o.hk = none) (hfn : o.fn = none) (hcu : o.cu = none) (hkk : o.kk = none) :
    exec (initInstr v o) s = .next (afterOk
      { s with phase := .fresh, var := v, nr := o.nr.getD 1, upd := false, keyset := false, csf := false,
               is := newState v, rem := [], plen := some 0, kin := none, kout := none }) := by
  have hcsf : csfAtInit v o = false := by simp [csfAtInit, (md_iff v).mp hm]
  rw [exec_init_of_check (initCheck_md hm hnr hhk hfn hcu hkk) hhk,
    absorbPrefix_of_nil (prefixInputs_eq_nil o (outBits_ne_zero_of_md hm)), startSession, hcsf]
  rfl

/-- Settles O26: `newState` holds the words of each variant. -/
theorem initOfMdVariantLoadsItsInitialState : Obligations.InitOfMdVariantLoadsItsInitialState := by
  intro o s hnr hhk hfn hcu hkk started
  have hinit {v : Variant} (hm : v.md = true) : exec (initInstr v o) s = .next (started v (newState v)) :=
    exec_init_md s hm hnr hhk hfn hcu hkk
  exact ⟨hinit (v := .sha1) rfl, hinit (v := .sha224) rfl, hinit (v := .sha256) rfl, hinit (v := .sha384) rfl,
    hinit (v := .sha512) rfl⟩

/-! ### The digest (43 R213) -/

/-- The leftmost bits of words laid end to end are the bits of the leftmost words. -/
theorem take_flatMap_bitsBE {w : Nat} (l : List (BitVec w)) (n : Nat) :
    (l.flatMap bitsBE).take (w * n) = (l.take n).flatMap bitsBE := by
  induction l generalizing n with
  | nil => simp
  | cons v l ih =>
    cases n with
    | zero => simp
    | succ n =>
      have hv : (bitsBE v).take (w * (n + 1)) = bitsBE v := List.take_of_length_le (by simp [Nat.mul_succ])
      rw [List.flatMap_cons, List.take_succ_cons, List.flatMap_cons, List.take_append, hv, length_bitsBE, Nat.mul_succ,
        Nat.add_sub_cancel, ih]

/-- Settles O50: the output length of each variant is a number of whole words. -/
theorem digestKeepsTheLeftmostWords : Obligations.DigestKeepsTheLeftmostWords := by
  refine ⟨fun h0 h1 h2 h3 h4 => ?_, fun h0 h1 h2 h3 h4 h5 h6 h7 => ⟨?_, ?_⟩,
    fun h0 h1 h2 h3 h4 h5 h6 h7 => ⟨?_, ?_⟩⟩
  · exact (take_flatMap_bitsBE [h0, h1, h2, h3, h4] 5).trans (by simp)
  · exact (take_flatMap_bitsBE [h0, h1, h2, h3, h4, h5, h6, h7] 7).trans (by simp)
  · exact (take_flatMap_bitsBE [h0, h1, h2, h3, h4, h5, h6, h7] 8).trans (by simp)
  · exact (take_flatMap_bitsBE [h0, h1, h2, h3, h4, h5, h6, h7] 6).trans (by simp)
  · exact (take_flatMap_bitsBE [h0, h1, h2, h3, h4, h5, h6, h7] 8).trans (by simp)

end Sys2Proof.Machine
end

section
/-!
PROOFS. The statements about the permutation round and the sponge padding (spec/46_keccak_sponge.md R282 to R287, R292).
-/

namespace Sys2Proof

/-- Zero bytes are zero bits (00 R7, R9). -/
theorem bitsOfBytes_replicate_zero (n : Nat) : bitsOfBytes (List.replicate n 0) = List.replicate (8 * n) false := by
  induction n with
  | zero => rfl
  | succ n ih =>
    have h0 : bitsBE (0 : Byte) = List.replicate 8 false := by decide
    calc bitsOfBytes (List.replicate (n + 1) 0) = bitsBE 0 ++ bitsOfBytes (List.replicate n 0) := rfl
      _ = List.replicate (8 * (n + 1)) false := by
        rw [h0, ih, List.replicate_append_replicate, Nat.mul_succ, Nat.add_comm]

namespace Machine

/-! ### The mappings of a round, lane by lane -/

/-- θ with the column parities `C` and their combinations `D` named (46 R282). -/
theorem get_theta {A : Lanes} {C D : Fin 5 → Lane}
    (hC : ∀ x, C x = A.get x 0 ^^^ A.get x 1 ^^^ A.get x 2 ^^^ A.get x 3 ^^^ A.get x 4)
    (hD : ∀ x, D x = C (x - 1) ^^^ rotl (C (x + 1)) 1) (x y : Fin 5) :
    (theta A).get x y = A.get x y ^^^ D x := by
  simp only [theta, Lanes.get_of, Row.get_of, hD, hC]

theorem get_rho (A : Lanes) (x y : Fin 5) : (rho A).get x y = rotl (A.get x y) (rhoOffset x y) :=
  Lanes.get_of _ x y

theorem get_pi (A : Lanes) (x y : Fin 5) : (pi A).get x y = A.get (x + 3 * y) x := Lanes.get_of _ x y

/-- 46 R284: π in its other form, by the place a lane moves to. -/
theorem get_pi_moved (A : Lanes) (x y : Fin 5) : (pi A).get y (2 * x + 3 * y) = A.get x y := by
  have hx : y + 3 * (2 * x + 3 * y) = x := by decide +revert
  rw [get_pi, hx]

/-- Every lane is one that π moved there. -/
theorem exists_pi_source (x y : Fin 5) : ∃ x' y' : Fin 5, y' = x ∧ 2 * x' + 3 * y' = y :=
  ⟨x + 3 * y, x, rfl, by decide +revert⟩

theorem get_chi (A : Lanes) (x y : Fin 5) :
    (chi A).get x y = A.get x y ^^^ (~~~A.get (x + 1) y &&& A.get (x + 2) y) :=
  Lanes.get_of _ x y

theorem get_iota (RC : Lane) (A : Lanes) (x y : Fin 5) :
    (iota RC A).get x y = A.get x y ^^^ (if x = 0 ∧ y = 0 then RC else 0) := by
  rw [iota, Lanes.get_of]
  split
  next h =>
    obtain ⟨rfl, rfl⟩ := h
    rfl
  next => exact BitVec.xor_zero.symm

/-- Settles O52: π moves each lane of ρ after θ to the place where `B` has it, so `B` is the state χ reads. -/
theorem keccakRoundInOnePiece : Obligations.KeccakRoundInOnePiece := by
  intro A RC C D B hC hD hB
  have hpi (x y : Fin 5) : (pi (rho (theta A))).get x y = B x y := by
    obtain ⟨x', y', rfl, rfl⟩ := exists_pi_source x y
    rw [get_pi_moved, get_rho, get_theta hC hD, hB]
  intro x y
  rw [keccakRound, get_iota, get_chi, hpi, hpi, hpi]

/-! ### The sponge padding (46 R292) -/

section Padding
variable {R : Bits} {r : Nat} (delim : Byte) (h8 : R.length % 8 = 0) (hr : r % 8 = 0)
include h8 hr

/-- One byte is free: both XORs hit it. -/
theorem spongePad_one_free (h : R.length + 8 = r) : spongePad R r delim = R ++ bitsBE (delim ^^^ 0x80) := by
  rw [spongePad_eq delim h8 hr (by omega), if_pos (by omega)]
  simp [bitsOfBytes]

/-- At least two bytes are free: the delimiter in the first, `0x80` in the last. -/
theorem spongePad_more_free (h : R.length + 8 < r) :
    spongePad R r delim =
      R ++ bitsBE delim ++ List.replicate (r - R.length - 16) false ++ bitsBE (0x80 : Byte) := by
  have hk : r - R.length - 16 = 8 * (r / 8 - R.length / 8 - 2) := by omega
  rw [spongePad_eq delim h8 hr (by omega), if_neg (by omega), hk, ← bitsOfBytes_replicate_zero]
  simp [bitsOfBytes]

end Padding

/-- Settles O56: the padding byte by byte, with one free byte and with more. -/
theorem spongePaddingFillsOneBlock : Obligations.SpongePaddingFillsOneBlock := fun _ _ delim h8 hr h =>
  ⟨length_spongePad hr h.le, spongePad_one_free delim h8 hr, spongePad_more_free delim h8 hr⟩

end Machine

end Sys2Proof
end

section
/-!
PROOFS. The statements about the CSHAKE and KMAC sessions and their encodings (spec/47_cshake_kmac.md R320 to R330).
-/

namespace Sys2Proof.Machine

/-! ### The encodings (47 R320, R321, R323) -/

/-- The bytes of `x` from the most significant of `n` down hold `x` modulo `2^(8n)`. -/
theorem intBE_shiftedBytes (x n : Nat) :
    intBE (bitsOfBytes ((List.range n).map fun i => BitVec.ofNat 8 (x >>> (8 * (n - 1 - i))))) = x % 2 ^ (8 * n) := by
  induction n with
  | zero => simp [bitsOfBytes, intBE, Nat.mod_one]
  | succ n ih =>
    have hlater : ((List.range n).map fun i => BitVec.ofNat 8 (x >>> (8 * (n + 1 - 1 - (i + 1))))) =
        (List.range n).map fun i => BitVec.ofNat 8 (x >>> (8 * (n - 1 - i))) :=
      List.map_congr_left fun i _ => by rw [show n + 1 - 1 - (i + 1) = n - 1 - i by omega]
    have hpow : 2 ^ (8 * (n + 1)) = 2 ^ (8 * n) * 2 ^ 8 := by rw [Nat.mul_succ, Nat.pow_add]
    rw [List.range_succ_eq_map, List.map_cons, List.map_map]
    simp only [Function.comp_def, Nat.succ_eq_add_one, hlater]
    rw [bitsOfBytes, List.flatMap_cons, intBE_append, ← bitsOfBytes, ih, intBE_bitsBE, length_bitsOfBytes,
      List.length_map, List.length_range, BitVec.toNat_ofNat, Nat.shiftRight_eq_div_pow, hpow, Nat.mod_mul]
    simp only [Nat.add_sub_cancel, Nat.sub_zero]
    ring

theorem intBE_valueBytes (x : Nat) : intBE (bitsOfBytes (valueBytes x)) = x := by
  obtain ⟨-, hlt, -⟩ := byteCount_spec x
  rw [valueBytes, intBE_shiftedBytes, Nat.mod_eq_of_lt hlt]

theorem byteCount_le {x n : Nat} (hn : 1 ≤ n) (h : x < 2 ^ (8 * n)) : byteCount x ≤ n := by
  obtain ⟨-, -, hmin⟩ := byteCount_spec x
  exact hmin n hn h

/-- Settles O58: `byteCount` is the smallest count, and below `2^2040` it fits the count byte. -/
theorem lengthEncodingsAreMinimal : Obligations.LengthEncodingsAreMinimal := by
  intro x hx
  obtain ⟨hpos, hlt, hmin⟩ := byteCount_spec x
  have hle : byteCount x ≤ 255 := hmin 255 (by decide) (by simpa only [Nat.reduceMul] using hx)
  exact ⟨byteCount x, valueBytes x, hpos, hlt, hmin, by simp [valueBytes], intBE_valueBytes x, by omega, rfl, rfl⟩

/-- The number of zero bits `bytepad` adds to `n` bits, at a width of `B` bits. -/
def bytepadZeros (n B : Nat) : Nat := (B - n % B) % B

theorem bytepad_eq (X : Bits) (w : Nat) :
    bytepad X w = leftEncode w ++ X ++ zeros (bytepadZeros (leftEncode w ++ X).length (8 * w)) := rfl

theorem length_bytepad (X : Bits) (w : Nat) :
    (bytepad X w).length = (leftEncode w ++ X).length + bytepadZeros (leftEncode w ++ X).length (8 * w) := by
  rw [bytepad_eq, List.length_append, length_zeros]

theorem bytepadZeros_lt (n : Nat) {B : Nat} (hB : 0 < B) : bytepadZeros n B < B := Nat.mod_lt _ hB

/-- Whole bytes are padded by whole bytes. -/
theorem bytepadZeros_mod8 {n : Nat} (w : Nat) (hn : n % 8 = 0) : bytepadZeros n (8 * w) % 8 = 0 := by
  have h := Nat.mod_mod_of_dvd n (Nat.dvd_mul_right 8 w)
  rw [bytepadZeros, Nat.mod_mod_of_dvd _ (Nat.dvd_mul_right 8 w)]
  omega

/-- With fewer zeros the length is no multiple of the width: the two lengths differ by less than the width. -/
theorem bytepadZeros_minimal (X : Bits) {w j : Nat} (hw : 0 < w)
    (hj : j < bytepadZeros (leftEncode w ++ X).length (8 * w)) : ((leftEncode w ++ X).length + j) % (8 * w) ≠ 0 := by
  intro h
  have hdvd : 8 * w ∣ bytepadZeros (leftEncode w ++ X).length (8 * w) - j := by
    have hsub := Nat.dvd_sub (Nat.dvd_of_mod_eq_zero (length_bytepad_mod X hw)) (Nat.dvd_of_mod_eq_zero h)
    rwa [length_bytepad, Nat.add_sub_add_left] at hsub
  have := Nat.le_of_dvd (Nat.sub_pos_of_lt hj) hdvd
  have := bytepadZeros_lt (leftEncode w ++ X).length (show 0 < 8 * w by omega)
  omega

/-- Settles O60: the zero bits `bytepad` adds are whole bytes, fewer than the width. -/
theorem bytepadAddsTheFewestZeroBytes : Obligations.BytepadAddsTheFewestZeroBytes := by
  intro X w hw hX
  have hz : (leftEncode w ++ X).length % 8 = 0 := by rw [List.length_append, length_leftEncode]; omega
  obtain ⟨n, hn⟩ := Nat.dvd_of_mod_eq_zero (bytepadZeros_mod8 w hz)
  refine ⟨n, by rw [bytepad_eq, hn]; rfl, length_bytepad_mod X hw, fun j hj => bytepadZeros_minimal X hw ?_⟩
  omega

/-! ### Lengths of what INIT absorbs -/

theorem length_leftEncode_le {x : Nat} (h : x < 2 ^ 32) : (leftEncode x).length ≤ 40 := by
  have := byteCount_le (n := 4) (by decide) h
  rw [length_leftEncode]; omega

theorem length_encodeString_le {b : Bits} (h : b.length < 2 ^ 32) : (encodeString b).length ≤ 2 ^ 32 + 40 := by
  have := length_leftEncode_le h
  rw [encodeString, List.length_append]; omega

/-- At the rate of a variant `bytepad` adds less than a block and a length encoding. -/
theorem length_bytepad_rate_le (v : Variant) (X : Bits) :
    (bytepad X (v.desc.blockBits / 8)).length ≤ X.length + 1384 := by
  have hB := blockBits_le v
  have hB8 := blockBits_pos v
  have hmod := blockBits_mod8 v
  have := bytepadZeros_lt (leftEncode (v.desc.blockBits / 8) ++ X).length (show 0 < 8 * (v.desc.blockBits / 8) by omega)
  have := length_leftEncode_le (x := v.desc.blockBits / 8) (by omega)
  rw [length_bytepad]
  rw [List.length_append] at *
  omega

/-! ### What a sponge session absorbs (46 R290 to R293, 47 R328, R330) -/

/-- The zero state after the whole blocks of a string. -/
def spongeState (r : Nat) (b : Bits) : Lanes := (takeBlocks b r).1.foldl spongeAbsorb Lanes.zero

/-- What follows the last payload: `right_encode(L)` on KMAC (47 R328). -/
def kmacTrailer (d : Desc) (L : Nat) : Bits := if d.kind = .kmac then rightEncode L else []

/-- The padding where `free` bytes of the last block are free (46 R292). -/
def padBytes (delim : Byte) (free : Nat) : List Byte :=
  if free = 1 then [delim ^^^ 0x80] else delim :: (List.replicate (free - 2) 0 ++ [0x80])

theorem rounds_keccak (A : Lanes) (blocks : List Bits) :
    rounds (.keccak A) blocks = .keccak (blocks.foldl spongeAbsorb A) := by
  induction blocks generalizing A with
  | nil => rfl
  | cons b bs ih => exact ih (spongeAbsorb A b)

theorem newState_sponge {v : Variant} (hm : v.md = false) : newState v = .keccak Lanes.zero := by
  revert hm
  cases v <;> decide

theorem spongeState_append {r : Nat} (hr : 0 < r) (a b : Bits) :
    spongeState r (a ++ b) = (takeBlocks ((takeBlocks a r).2 ++ b) r).1.foldl spongeAbsorb (spongeState r a) := by
  rw [spongeState, takeBlocks_append a b hr, List.foldl_append, spongeState]

theorem length_kmacTrailer_mod8 (d : Desc) (L : Nat) : (kmacTrailer d L).length % 8 = 0 := by
  unfold kmacTrailer
  split
  · rw [length_rightEncode, Nat.mul_mod_right]
  · rfl

/-- The KMAC suffix goes through the scheduler as user data does; the other kinds have none (46 R293). -/
theorem spongeTail_eq (d : Desc) (S : Lanes) (R : Bits) (L : Nat) (hR : R.length < d.blockBits) :
    spongeTail d S R L =
      ((takeBlocks (R ++ kmacTrailer d L) d.blockBits).1.foldl spongeAbsorb S,
        (takeBlocks (R ++ kmacTrailer d L) d.blockBits).2) := by
  cases hk : d.kind <;> simp [spongeTail, kmacTrailer, hk, kmacSuffix, append, takeBlocks_short hR]

/-- The padded remainder is the last block of the padded string. -/
theorem spongeAbsorb_spongePad {r : Nat} {b : Bits} (delim : Byte) (hr0 : 0 < r) (hr8 : r % 8 = 0)
    (hb : b.length % 8 = 0) :
    spongeAbsorb (spongeState r b) (spongePad (takeBlocks b r).2 r delim) =
      spongeState r (b ++ bitsOfBytes (padBytes delim (r / 8 - b.length / 8 % (r / 8)))) := by
  have hlen : (takeBlocks b r).2.length = b.length % r := length_takeBlocks_snd b r
  have hlt : (takeBlocks b r).2.length < r := hlen ▸ Nat.mod_lt _ hr0
  have hrem8 : (takeBlocks b r).2.length % 8 = 0 := by
    rw [hlen, Nat.mod_mod_of_dvd _ (Nat.dvd_of_mod_eq_zero hr8), hb]
  have hfree : (takeBlocks b r).2.length / 8 = b.length / 8 % (r / 8) := by
    rw [hlen, ← Nat.mod_mul_right_div_self, Nat.mul_div_cancel' (Nat.dvd_of_mod_eq_zero hr8)]
  have hpad : spongePad (takeBlocks b r).2 r delim =
      (takeBlocks b r).2 ++ bitsOfBytes (padBytes delim (r / 8 - b.length / 8 % (r / 8))) := by
    rw [spongePad_eq delim hrem8 hr8 hlt, hfree, padBytes]
  have hone : takeBlocks (spongePad (takeBlocks b r).2 r delim) r = ([spongePad (takeBlocks b r).2 r delim], []) := by
    simpa using takeBlocks_eq (blocks := [spongePad (takeBlocks b r).2 r delim]) (rest := []) hr0
      (by simpa using length_spongePad hr8 hlt.le) hr0
  rw [spongeState_append hr0, ← hpad, hone, List.foldl_cons, List.foldl_nil]

/-- A sponge session is squeezed from the zero state after the message, the KMAC suffix and the padding. -/
theorem finalize_absorb_fresh_sponge {v : Variant} {m : Bits} (hm : v.md = false) (h8 : m.length % 8 = 0) (L : Nat)
    (csf : Bool) {w : Bits} (hw : w = m ++ kmacTrailer v.desc L) :
    finalize v.desc (absorb v.desc (freshTriple v) m) L csf =
      some (squeeze (spongeState v.desc.blockBits (w ++ bitsOfBytes (padBytes (delimiter v.desc.kind csf)
        (v.desc.blockBits / 8 - w.length / 8 % (v.desc.blockBits / 8))))) v.desc.blockBits L) := by
  have hB := blockBits_pos v
  have hw8 : w.length % 8 = 0 := by
    rw [hw, List.length_append, Nat.add_mod, h8, length_kmacTrailer_mod8]
  have hfinal : finalize v.desc (absorb v.desc (freshTriple v) m) L csf =
      some (spongeFinal v.desc (spongeState v.desc.blockBits m) (takeBlocks m v.desc.blockBits).2 L csf) := by
    simp only [absorb, append, freshTriple, newState_sponge hm, rounds_keccak, finalize, spongeState, List.nil_append]
  have htail : spongeTail v.desc (spongeState v.desc.blockBits m) (takeBlocks m v.desc.blockBits).2 L =
      (spongeState v.desc.blockBits w, (takeBlocks w v.desc.blockBits).2) := by
    rw [spongeTail_eq _ _ _ _ (takeBlocks_spec m hB).2.2, ← spongeState_append hB, ← hw, hw, takeBlocks_append m _ hB]
  simp only [hfinal, spongeFinal, htail, spongeAbsorb_spongePad _ hB (blockBits_mod8 v) hw8]

/-! ### The framing flag (10 R27, 46 R291) -/

theorem md_false_of_kind {v : Variant} (h : v.desc.kind ≠ .md) : v.md = false := by
  rw [← Bool.not_eq_true, md_iff]
  exact h

theorem csfAtInit_iff (v : Variant) (o : InitOpts) :
    csfAtInit v o = true ↔
      v.desc.kind = .kmac ∨ (v.desc.kind = .cshake ∧ ¬ (o.fn.getD [] = [] ∧ o.cu.getD [] = [])) := by
  unfold csfAtInit
  cases v.desc.kind <;> simp [imp_iff_not_or]

theorem delimiter_csfAtInit {v : Variant} (o : InitOpts) (hm : v.md = false) :
    delimiter v.desc.kind (csfAtInit v o) =
      if csfAtInit v o = true then 0x04 else if v.desc.kind = .sha3 then 0x06 else 0x1F := by
  cases hk : v.desc.kind
  case md => rw [(md_iff v).mpr hk] at hm; cases hm
  all_goals simp [delimiter, csfAtInit, hk]

theorem prefixInputs_eq (v : Variant) (o : InitOpts) :
    prefixInputs v o =
      if v.desc.kind = .kmac then
        [cshakeFrame kmacName (o.cu.getD []) v.desc.blockBits, kmacKeyFrame (o.kk.getD []) v.desc.blockBits]
      else if csfAtInit v o = true then [cshakeFrame (o.fn.getD []) (o.cu.getD []) v.desc.blockBits] else [] := by
  cases hk : v.desc.kind <;> simp [prefixInputs, csfAtInit, hk]

theorem all_wholeBytes {p : Option Bits} (h : (p.getD []).length % 8 = 0) : p.all wholeBytes = true := by
  cases p with
  | none => rfl
  | some b => simpa [wholeBytes] using h

/-- INIT of a sponge variant admits whole bytes in the options of its kind; KMAC asks for a key (41 R157). -/
theorem initCheck_sponge {v : Variant} {o : InitOpts} (hnr : o.nr = none) (hhk : o.hk = none)
    (hfn : v.desc.kind ≠ .cshake → o.fn = none) (hcu : v.desc.kind ≠ .cshake → v.desc.kind ≠ .kmac → o.cu = none)
    (hkk : v.desc.kind ≠ .kmac → o.kk = none) (hkey : v.desc.kind = .kmac → o.kk.getD [] ≠ [])
    (h8 : ∀ b ∈ [o.fn.getD [], o.cu.getD [], o.kk.getD []], b.length % 8 = 0) : initCheck v o = none := by
  obtain ⟨hfn8, hcu8, hkk8⟩ : (o.fn.getD []).length % 8 = 0 ∧ (o.cu.getD []).length % 8 = 0 ∧
      (o.kk.getD []).length % 8 = 0 := by simpa using h8
  have hfn' : (o.fn.isSome && v.desc.kind != .cshake) = false := by
    by_cases hk : v.desc.kind = .cshake
    · simp [hk]
    · simp [hfn hk]
  have hcu' : (o.cu.isSome && !(v.desc.kind == .cshake || v.desc.kind == .kmac)) = false := by
    by_cases hk : v.desc.kind = .cshake ∨ v.desc.kind = .kmac
    · obtain hk | hk := hk <;> simp [hk]
    · obtain ⟨hc, hk⟩ := not_or.mp hk
      simp [hcu hc hk]
  have hkk' : (o.kk.isSome && v.desc.kind != .kmac) = false := by
    by_cases hk : v.desc.kind = .kmac
    · simp [hk]
    · simp [hkk hk]
  have hrefused : optionRefused v o = false := by
    simp only [optionRefused, hfn', hcu', hkk', hnr, hhk, all_wholeBytes hfn8, all_wholeBytes hcu8, all_wholeBytes hkk8]
    rfl
  have hmissing : kmacKeyMissing v o = false := by
    simpa [kmacKeyMissing] using hkey
  simp [initCheck, hrefused, hmissing]

/-- INIT of a CSHAKE variant admits strings of whole bytes. -/
theorem initCheck_cshake {v : Variant} {o : InitOpts} (hv : v.desc.kind = .cshake) (hnr : o.nr = none)
    (hhk : o.hk = none) (hkk : o.kk = none) (hN8 : (o.fn.getD []).length % 8 = 0)
    (hS8 : (o.cu.getD []).length % 8 = 0) : initCheck v o = none :=
  initCheck_sponge hnr hhk (fun h => absurd hv h) (fun h => absurd hv h) (fun _ => hkk) (by simp [hv])
    (by simp [hN8, hS8, hkk])

/-! ### INIT of CSHAKE and KMAC (47 R324, R326, R327) -/

/-- What INIT of a sponge variant leaves: the lanes `A` after `n` bits absorbed, nothing waiting, and Ok in `RSP`. -/
def spongeStart (v : Variant) (csf : Bool) (A : Lanes) (n : Nat) (s : State) : State := afterOk
  { s with phase := .fresh, var := v, nr := 1, upd := false, keyset := false, csf := csf, is := .keccak A, rem := [],
           plen := some (BitVec.ofNat 128 n), kin := none, kout := none }

theorem exists_blocks {b : Bits} {B : Nat} (hB : 0 < B) (h : b.length % B = 0) :
    ∃ blocks : List Bits, (∀ blk ∈ blocks, blk.length = B) ∧ blocks.flatten = b := by
  obtain ⟨hcut, hlen, -⟩ := takeBlocks_spec b hB
  rw [takeBlocks_snd_eq_nil h, List.append_nil] at hcut
  exact ⟨_, hlen, hcut⟩

theorem length_flatten_blocks {blocks : List Bits} {B : Nat} (h : ∀ blk ∈ blocks, blk.length = B) :
    blocks.flatten.length = B * blocks.length := by
  rw [List.length_flatten, List.map_congr_left h, List.map_const', List.sum_replicate, smul_eq_mul, Nat.mul_comm]

/-- INIT that absorbs the given blocks, no more bits than the counter holds. -/
theorem exec_init_sponge {v : Variant} {o : InitOpts} {blocks : List Bits} (s : State) (hm : v.md = false)
    (hcheck : initCheck v o = none) (hnr : o.nr = none) (hhk : o.hk = none)
    (hprefix : blocks.flatten = (prefixInputs v o).flatten) (hblocks : ∀ b ∈ blocks, b.length = v.desc.blockBits)
    (hfit : (prefixInputs v o).flatten.length < 2 ^ 128) :
    exec (initInstr v o) s = .next (spongeStart v (csfAtInit v o) (blocks.foldl spongeAbsorb Lanes.zero)
      (v.desc.blockBits * blocks.length) s) := by
  have hcut : takeBlocks blocks.flatten v.desc.blockBits = (blocks, []) := by
    simpa using takeBlocks_eq (rest := []) (blockBits_pos v) hblocks (blockBits_pos v)
  rw [exec_init_of_check hcheck hhk, absorbPrefix_startSession, counterOf_eq_some hfit, ← hprefix, hcut,
    newState_sponge hm, rounds_keccak, length_flatten_blocks hblocks, startSession, nrOrDefault, hnr]
  rfl

/-- INIT of a CSHAKE variant absorbs the framing string, when there is something to frame. -/
theorem exec_init_cshake_framed {v : Variant} {o : InitOpts} (s : State) (hv : v.desc.kind = .cshake)
    (hcheck : initCheck v o = none) (hnr : o.nr = none) (hhk : o.hk = none)
    (hframed : ¬ (o.fn.getD [] = [] ∧ o.cu.getD [] = [])) (hN : (o.fn.getD []).length < 2 ^ 32)
    (hS : (o.cu.getD []).length < 2 ^ 32) :
    ∃ blocks : List Bits, (∀ b ∈ blocks, b.length = v.desc.blockBits) ∧
      blocks.flatten = cshakeFrame (o.fn.getD []) (o.cu.getD []) v.desc.blockBits ∧
      exec (initInstr v o) s = .next (spongeStart v true (blocks.foldl spongeAbsorb Lanes.zero)
        (v.desc.blockBits * blocks.length) s) := by
  have hcsf : csfAtInit v o = true := (csfAtInit_iff v o).mpr (.inr ⟨hv, hframed⟩)
  have hprefix : (prefixInputs v o).flatten = cshakeFrame (o.fn.getD []) (o.cu.getD []) v.desc.blockBits := by
    simp [prefixInputs_eq, hv, hcsf]
  have hfit : (cshakeFrame (o.fn.getD []) (o.cu.getD []) v.desc.blockBits).length < 2 ^ 128 := by
    have := length_bytepad_rate_le v (encodeString (o.fn.getD []) ++ encodeString (o.cu.getD []))
    have := length_encodeString_le hN
    have := length_encodeString_le hS
    rw [List.length_append] at *
    rw [cshakeFrame]; omega
  obtain ⟨blocks, hblocks, hflat⟩ := exists_blocks (blockBits_pos v)
    (length_bytepad_rate v (encodeString (o.fn.getD []) ++ encodeString (o.cu.getD [])))
  refine ⟨blocks, hblocks, hflat, ?_⟩
  rw [← hcsf]
  exact exec_init_sponge s (md_false_of_kind (by simp [hv])) hcheck hnr hhk (hflat.trans hprefix.symm) hblocks
    (hprefix ▸ hfit)

/-- INIT of a sponge variant absorbs nothing, when there is nothing to frame. -/
theorem exec_init_unframed {v : Variant} {o : InitOpts} (s : State) (hm : v.md = false)
    (hcheck : initCheck v o = none) (hnr : o.nr = none) (hhk : o.hk = none) (hcsf : csfAtInit v o = false) :
    exec (initInstr v o) s = .next (spongeStart v false Lanes.zero 0 s) := by
  have hprefix : prefixInputs v o = [] := by
    have hk : v.desc.kind ≠ .kmac := fun hk => by simp [(csfAtInit_iff v o).mpr (.inl hk)] at hcsf
    simp [prefixInputs_eq, hk, hcsf]
  rw [← hcsf]
  exact exec_init_sponge (blocks := []) s hm hcheck hnr hhk (by rw [hprefix]) (by simp) (by rw [hprefix]; decide)

theorem csfAtInit_cshake_unframed {v : Variant} {o : InitOpts} (hv : v.desc.kind = .cshake)
    (h : o.fn.getD [] = [] ∧ o.cu.getD [] = []) : csfAtInit v o = false := by
  rw [← Bool.not_eq_true, csfAtInit_iff, hv]
  simp [h]

/-- Settles O28: INIT of CSHAKE absorbs the framing string, or nothing where there is nothing to frame. -/
theorem initOfCshakeAbsorbsTheFraming : Obligations.InitOfCshakeAbsorbsTheFraming := by
  intro o s hnr hhk hkk hN8 hS8 hN hS N S started zero
  have hcheck {v : Variant} (hv : v.desc.kind = .cshake) : initCheck v o = none :=
    initCheck_cshake hv hnr hhk hkk hN8 hS8
  refine ⟨fun h => ⟨?_, ?_⟩, fun h => ⟨?_, ?_⟩⟩
  · exact exec_init_unframed (v := .cshake128) s rfl (hcheck rfl) hnr hhk (csfAtInit_cshake_unframed rfl h)
  · exact exec_init_unframed (v := .cshake256) s rfl (hcheck rfl) hnr hhk (csfAtInit_cshake_unframed rfl h)
  · exact exec_init_cshake_framed (v := .cshake128) s rfl (hcheck rfl) hnr hhk h hN hS
  · exact exec_init_cshake_framed (v := .cshake256) s rfl (hcheck rfl) hnr hhk h hN hS

/-- INIT of a KMAC variant absorbs the framing string, then the key string. -/
theorem exec_init_kmac {v : Variant} {o : InitOpts} {K : Bits} (s : State) (hv : v.desc.kind = .kmac)
    (hcheck : initCheck v o = none) (hnr : o.nr = none) (hhk : o.hk = none) (hK : o.kk = some K)
    (hKfit : K.length < 2 ^ 32) (hS : (o.cu.getD []).length < 2 ^ 32) :
    ∃ frame key : List Bits, (∀ b ∈ frame ++ key, b.length = v.desc.blockBits) ∧
      frame.flatten = cshakeFrame kmacName (o.cu.getD []) v.desc.blockBits ∧
      key.flatten = kmacKeyFrame K v.desc.blockBits ∧
      exec (initInstr v o) s = .next (spongeStart v true (key.foldl spongeAbsorb (frame.foldl spongeAbsorb Lanes.zero))
        (v.desc.blockBits * (frame.length + key.length)) s) := by
  have hcsf : csfAtInit v o = true := (csfAtInit_iff v o).mpr (.inl hv)
  have hprefix : (prefixInputs v o).flatten =
      cshakeFrame kmacName (o.cu.getD []) v.desc.blockBits ++ kmacKeyFrame K v.desc.blockBits := by
    simp [prefixInputs_eq, hv, hK]
  have hfit : (cshakeFrame kmacName (o.cu.getD []) v.desc.blockBits ++ kmacKeyFrame K v.desc.blockBits).length <
      2 ^ 128 := by
    have := length_bytepad_rate_le v (encodeString kmacName ++ encodeString (o.cu.getD []))
    have := length_bytepad_rate_le v (encodeString K)
    have := length_encodeString_le (b := kmacName) (by decide)
    have := length_encodeString_le hS
    have := length_encodeString_le hKfit
    rw [List.length_append] at *
    rw [cshakeFrame, kmacKeyFrame]; omega
  obtain ⟨frame, hframe, hframe_flat⟩ := exists_blocks (blockBits_pos v)
    (length_bytepad_rate v (encodeString kmacName ++ encodeString (o.cu.getD [])))
  obtain ⟨key, hkey, hkey_flat⟩ := exists_blocks (blockBits_pos v) (length_bytepad_rate v (encodeString K))
  have hblocks : ∀ b ∈ frame ++ key, b.length = v.desc.blockBits := fun b hb =>
    (List.mem_append.mp hb).elim (hframe b) (hkey b)
  refine ⟨frame, key, hblocks, hframe_flat, hkey_flat, ?_⟩
  rw [← hcsf, ← List.foldl_append, ← List.length_append]
  exact exec_init_sponge s (md_false_of_kind (by simp [hv])) hcheck hnr hhk
    (by rw [List.flatten_append, hframe_flat, hkey_flat, hprefix]; rfl) hblocks (hprefix ▸ hfit)

/-- Settles O29: the framing string and the key string are each whole blocks, so together they are cut as each alone. -/
theorem initOfKmacAbsorbsFramingAndKey : Obligations.InitOfKmacAbsorbsFramingAndKey := by
  intro o K s hnr hhk hfn hK hK0 hK8 hS8 hKfit hS S name started zero
  have hcheck {v : Variant} (hv : v.desc.kind = .kmac) : initCheck v o = none :=
    initCheck_sponge hnr hhk (fun _ => hfn) (fun _ h => absurd hv h) (fun h => absurd hv h)
      (fun _ => by simpa [hK] using hK0) (by simp [hfn, hK, hK8, hS8])
  exact ⟨exec_init_kmac (v := .kmac128) s rfl (hcheck rfl) hnr hhk hK hKfit hS,
    exec_init_kmac (v := .kmac256) s rfl (hcheck rfl) hnr hhk hK hKfit hS⟩

/-! ### A whole session in order (47 R330) -/

/-- `OutLen` of the lengths a variant admits (41 R156). -/
theorem outLen_of_admitted {d : Desc} {len : Option Word} {L : Nat}
    (h : if d.outBits ≠ 0 then len = none ∧ L = d.outBits
      else ∃ n, len = some n ∧ n.toNat = L ∧ 0 < L ∧ L % 8 = 0) : outLen d len = some L := by
  split at h
  next h0 =>
    obtain ⟨rfl, rfl⟩ := h
    simp [outLen, h0]
  next h0 =>
    obtain ⟨n, rfl, rfl, hpos, hmod⟩ := h
    rw [outLen, if_neg h0, if_neg (by omega)]

/-- Settles O38: INIT and the UPDATEs absorb the framing, the key and the payloads; the finalize adds the KMAC suffix and
the padding. -/
theorem spongeSessionAbsorbsInOrder : Obligations.SpongeSessionAbsorbsInOrder := by
  intro v o cs s len L hm hnr hhk hfn hcu hkk hkey h8 hlen r N S name framed front whole delim free padding
  have hframed : framed ↔ csfAtInit v o = true := (csfAtInit_iff v o).symm
  have hfront : front = prefixInputs v o := by
    rw [prefixInputs_eq]
    simp only [front, hframed]
    rfl
  have hdelim : delim = delimiter v.desc.kind (csfAtInit v o) := by
    rw [delimiter_csfAtInit o hm]
    simp only [delim, hframed]
  have hfront_blocks : ∀ b ∈ front, b.length % r = 0 := hfront ▸ length_prefixInputs
  have hmessage8 : (front.flatten ++ cs.flatten).length % 8 = 0 := by
    rw [← List.flatten_append]
    refine (flatten_admitted (v := v) fun c hc => .inr ?_).resolve_left (by simp [hm])
    obtain hc | hc := List.mem_append.mp hc
    · rw [← Nat.mod_mod_of_dvd _ (Nat.dvd_of_mod_eq_zero (blockBits_mod8 v)), hfront_blocks c hc]
    · exact h8 c (List.mem_append_right _ hc)
  obtain ⟨t, hrun, hphase, hvar, hnrt, hkeyset, hcsf, htriple⟩ := runCommands_session (s := s) (cs := cs)
    (initCheck_sponge hnr hhk hfn hcu hkk hkey fun b hb => h8 b (List.mem_append_left _ hb)) hhk
    fun c hc => .inr (h8 c (List.mem_append_right _ hc))
  have hdesc : t.desc = v.desc := congrArg Variant.desc hvar
  refine ⟨hfront_blocks, t, hrun, ?_⟩
  rw [exec_getHash_plain hphase (by rw [hnrt, nrOrDefault, hnr]; rfl) hkeyset (hdesc ▸ outLen_of_admitted hlen), hdesc,
    htriple, hcsf, ← hfront, finalize_absorb_fresh_sponge hm hmessage8 L _ (w := whole) rfl, ← hdelim]
  rfl

/-! ### CSHAKE with nothing to frame (47 R325) -/

/-- `v` is the CSHAKE variant and `w` the SHAKE variant of one strength: their descriptors differ in `kind` alone. -/
structure SameStrength (v w : Variant) : Prop where
  shake : w.desc.kind = .shake
  desc : v.desc = { w.desc with kind := .cshake }

/-- The same registers under the name of another variant. -/
def State.underName (v : Variant) (s : State) : State := { s with var := v }

/-- A session of the SHAKE variant `w`; with `CSF = 0` also one of CSHAKE that has nothing framed, but for its name. -/
structure ShakeSession (w : Variant) (s : State) : Prop where
  active : s.phase ≠ .idle
  var : s.var = w
  nr : s.nr = 1
  keyless : s.keyset = false
  unframed : s.csf = false

/-- Two results of a command show the same, and where the sessions go on they still differ in the name alone. -/
def SameButName (v w : Variant) (r r' : Result) : Prop :=
  r' = r ∨ ∃ s, ShakeSession w s ∧ r = .next s ∧ r' = .next (s.underName v)

/-- Without framing a CSHAKE descriptor selects the padding of SHAKE (46 R291). -/
theorem finalize_cshake_unframed {d : Desc} (h : d.kind = .shake) (t : Triple) (L : Nat) :
    finalize { d with kind := .cshake } t L false = finalize d t L false := by
  obtain ⟨S, R, P⟩ := t
  cases S
  case keccak A => simp [finalize, spongeFinal, spongeTail, delimiter, h]
  all_goals rfl

theorem outBits_of_shake {v : Variant} (h : v.desc.kind = .shake) : v.desc.outBits = 0 := by
  revert h
  cases v <;> decide

/-- SETKEY in a session of a variable-length variant (42 R190). -/
theorem exec_setKey_of_variable {key : Bits} {s : State} (hp : s.phase ≠ .idle) (h0 : s.var.desc.outBits = 0) :
    exec (.setKey key) s = .next (raiseError .unsupportedOption s) := by
  show execSetKey key s = _
  simp [execSetKey, hp, keyAllowed, h0, failWith]

/-- UPDATE of a sponge variant with a payload that is not whole bytes (20 R69). -/
theorem exec_update_of_illegal {d : Bits} {s : State} (hm : s.var.md = false) (h8 : d.length % 8 ≠ 0) :
    exec (.update d) s = .next (raiseError .invalidState s) := by
  show execUpdate d s = _
  simp [execUpdate, lengthLegal, wholeBytes, hm, h8, failWith]

/-- GETHMAC without a key installed (42 R196). -/
theorem exec_getHmac_keyless {len : Option Word} {s : State} (hp : s.phase ≠ .idle) (hk : s.keyset = false) :
    exec (.getHmac len) s = .next (raiseError .noKeySet s) := by
  show execGetHmac len s = _
  rw [execGetHmac, if_neg hp, hk]
  rfl

section Names
variable {v w : Variant} {s : State} (hvw : SameStrength v w) (hs : ShakeSession w s)
include hs

theorem ShakeSession.respond (x : Response) : ShakeSession w (respond x s) :=
  ⟨hs.active, hs.var, hs.nr, hs.keyless, hs.unframed⟩

theorem sameButName_respond (x : Response) :
    SameButName v w (.next (respond x s)) (.next (respond x (s.underName v))) :=
  .inr ⟨_, hs.respond x, rfl, rfl⟩

/-- INIT either fails, and the session stays, or replaces the session entirely (41 R158). -/
theorem exec_init_underName (v' : Variant) (o : InitOpts) :
    SameButName v w (exec (initInstr v' o) s) (exec (initInstr v' o) (s.underName v)) := by
  rw [exec_initInstr, exec_initInstr]
  unfold initVariant
  cases initCheck v' o with
  | some e => exact sameButName_respond hs (.error e)
  | none => exact .inl rfl

theorem exec_getHmac_underName (len : Option Word) :
    SameButName v w (exec (.getHmac len) s) (exec (.getHmac len) (s.underName v)) := by
  rw [exec_getHmac_keyless hs.active hs.keyless, exec_getHmac_keyless (s := s.underName v) hs.active hs.keyless]
  exact sameButName_respond hs (.error .noKeySet)

include hvw

theorem exec_setKey_underName (key : Bits) :
    SameButName v w (exec (.setKey key) s) (exec (.setKey key) (s.underName v)) := by
  have hw : w.desc.outBits = 0 := outBits_of_shake hvw.shake
  have hv : v.desc.outBits = 0 := by rw [hvw.desc]; exact hw
  rw [exec_setKey_of_variable hs.active (by rw [hs.var, hw]), exec_setKey_of_variable (s := s.underName v) hs.active hv]
  exact sameButName_respond hs (.error .unsupportedOption)

theorem exec_update_underName (data : Bits) :
    SameButName v w (exec (.update data) s) (exec (.update data) (s.underName v)) := by
  have hv : v.md = false := md_false_of_kind (by simp [hvw.desc])
  have hw : w.md = false := md_false_of_kind (by simp [hvw.shake])
  by_cases h8 : data.length % 8 = 0
  · have habsorb : absorb (s.underName v).desc s.triple data = absorb s.desc s.triple data := by
      rw [State.desc, State.desc, hs.var, State.underName, hvw.desc]
      rfl
    have hnext : ShakeSession w (respond .ok (absorbRegs data s).markUpdated) :=
      ⟨by simp, hs.var, hs.nr, hs.keyless, hs.unframed⟩
    have hnamed : absorbRegs data (s.underName v) = (absorbRegs data s).underName v :=
      congrArg (s.underName v).setTriple habsorb
    rw [exec_update_of_legal hs.active (.inr h8), exec_update_of_legal (s := s.underName v) hs.active (.inr h8), hnamed]
    exact .inr ⟨_, hnext, rfl, rfl⟩
  · rw [exec_update_of_illegal (hs.var ▸ hw) h8, exec_update_of_illegal (s := s.underName v) hv h8]
    exact sameButName_respond hs (.error .invalidState)

theorem exec_getHash_underName (len : Option Word) :
    SameButName v w (exec (.getHash len) s) (exec (.getHash len) (s.underName v)) := by
  have hsdesc : s.desc = w.desc := congrArg Variant.desc hs.var
  have hlen : outLen v.desc len = outLen w.desc len := by rw [hvw.desc]; rfl
  cases hL : outLen w.desc len with
  | none =>
    rw [exec_getHash_badLength hs.active (hsdesc ▸ hL),
      exec_getHash_badLength (s := s.underName v) hs.active (hlen.trans hL)]
    exact sameButName_respond hs (.error .unsupportedOutputLength)
  | some L =>
    have hfinal : finalize v.desc s.triple L false = finalize w.desc s.triple L false := by
      rw [hvw.desc, finalize_cshake_unframed hvw.shake]
    have hplain : exec (.getHash len) s = answer (finalize w.desc s.triple L false) s := by
      rw [exec_getHash_plain hs.active hs.nr hs.keyless (hsdesc ▸ hL), hsdesc, hs.unframed]
    have hnamed : exec (.getHash len) (s.underName v) = answer (finalize w.desc s.triple L false) (s.underName v) := by
      rw [exec_getHash_plain (s := s.underName v) hs.active hs.nr hs.keyless (hlen.trans hL), ← hfinal, ← hs.unframed]
      rfl
    rw [hplain, hnamed]
    cases finalize w.desc s.triple L false with
    | none => exact .inl rfl
    | some out => exact sameButName_respond hs (.okBits out)

theorem exec_underName (i : Instr) : SameButName v w (exec i s) (exec i (s.underName v)) := by
  rcases instr_cases i with ⟨v', o, rfl⟩ | ⟨var, o, rfl⟩ | ⟨d, rfl⟩ | ⟨l, rfl⟩ | ⟨l, rfl⟩ | ⟨k, rfl⟩
  · exact exec_init_underName hs v' o
  · exact sameButName_respond hs (.error .unsupportedVariant)
  · exact exec_update_underName hvw hs d
  · exact exec_getHash_underName hvw hs l
  · exact exec_getHmac_underName hs l
  · exact exec_setKey_underName hvw hs k

end Names

theorem observed_runCommands_underName {v w : Variant} (hvw : SameStrength v w) (is : List Instr) {s : State}
    (hs : ShakeSession w s) : observed (runCommands is (s.underName v)) = observed (runCommands is s) := by
  induction is generalizing s with
  | nil => rfl
  | cons i is ih =>
    simp only [runCommands]
    obtain h | ⟨s', hs', h, h'⟩ := exec_underName hvw hs i
    · rw [h]
    · rw [h, h']
      exact ih hs'

/-- INIT of CSHAKE with nothing to frame starts the session that INIT of SHAKE starts, under another name. -/
theorem observed_unframed_session {v w : Variant} {o : InitOpts} (hvw : SameStrength v w) (later : List Instr)
    (s : State) (hnr : o.nr = none) (hhk : o.hk = none) (hkk : o.kk = none) (hN : o.fn.getD [] = []) (hS : o.cu.getD [] = []) :
    observed (runCommands (initInstr v o :: later) s) = observed (runCommands (initInstr w noOptions :: later) s) := by
  have hv : v.desc.kind = .cshake := by rw [hvw.desc]
  have hcheck : initCheck w noOptions = none :=
    initCheck_sponge rfl rfl (fun _ => rfl) (fun _ _ => rfl) (fun _ => rfl) (by simp [hvw.shake]) (by simp [noOptions])
  have hcshake : exec (initInstr v o) s = .next ((spongeStart w false Lanes.zero 0 s).underName v) :=
    exec_init_unframed s (md_false_of_kind (by simp [hv]))
      (initCheck_cshake hv hnr hhk hkk (by simp [hN]) (by simp [hS])) hnr hhk (csfAtInit_cshake_unframed hv ⟨hN, hS⟩)
  have hshake : exec (initInstr w noOptions) s = .next (spongeStart w false Lanes.zero 0 s) :=
    exec_init_unframed s (md_false_of_kind (by simp [hvw.shake])) hcheck rfl rfl (by simp [csfAtInit, hvw.shake])
  rw [runCommands_cons hcshake, runCommands_cons hshake]
  exact observed_runCommands_underName hvw later ⟨nofun, rfl, rfl, rfl, rfl⟩

/-- A successful INIT of CSHAKE with something to frame selects the delimiter `0x04`. -/
theorem delimiter_of_init_framed {v : Variant} {o : InitOpts} {s t : State} (hv : v.desc.kind = .cshake)
    (hframed : ¬ (o.fn.getD [] = [] ∧ o.cu.getD [] = [])) (h : exec (initInstr v o) s = .next t)
    (hok : t.rsp = s.rsp ++ [0x00000000]) : t.csf = true ∧ delimiter t.desc.kind t.csf = 0x04 := by
  have hcsf : csfAtInit v o = true := (csfAtInit_iff v o).mpr (.inr ⟨hv, hframed⟩)
  rw [exec_initInstr] at h
  obtain ⟨e, -, rfl⟩ | ⟨-, s', hs', rfl⟩ := initVariant_next h
  · exact absurd hok (respond_rsp_ne_ok (x := .error e) nofun s)
  · obtain ⟨hflag, hdesc⟩ : s'.csf = true ∧ s'.desc = v.desc := by
      obtain ⟨-, rfl⟩ | ⟨key, k0, -, -, rfl⟩ := initEffect_eq_some hs' <;> exact ⟨hcsf, rfl⟩
    simp [hflag, hdesc, hv, delimiter]

/-- Settles O45: the two sessions differ in the name of the variant alone, which no command shows. -/
theorem cshakeWithNothingToFrameIsShake : Obligations.CshakeWithNothingToFrameIsShake := by
  refine ⟨fun o s later hnr hhk hkk hN hS => ⟨?_, ?_⟩, fun o s t hframed h hok => ?_⟩
  · exact observed_unframed_session (v := .cshake128) (w := .shake128) ⟨rfl, rfl⟩ later s hnr hhk hkk hN hS
  · exact observed_unframed_session (v := .cshake256) (w := .shake256) ⟨rfl, rfl⟩ later s hnr hhk hkk hN hS
  · obtain h | h := h
    · exact delimiter_of_init_framed (v := .cshake128) rfl hframed h hok
    · exact delimiter_of_init_framed (v := .cshake256) rfl hframed h hok

end Sys2Proof.Machine
end

section
/-!
PROOFS. The statements about the errors (spec/60_exceptions.md R350 to R361).
-/

namespace Sys2Proof

/-! ### Header fields as numbers (30 R91) -/

theorem toNat_opOf (h : Word) : (opOf h).toNat = h.toNat / 2 ^ 24 := by
  have := h.isLt
  simp only [opOf, BitVec.extractLsb'_toNat, Nat.shiftRight_eq_div_pow]
  omega

theorem toNat_optOf (h : Word) : (optOf h).toNat = h.toNat / 2 ^ 16 % 256 := by
  simp only [optOf, BitVec.extractLsb'_toNat, Nat.shiftRight_eq_div_pow, Nat.reducePow]

theorem toNat_zOf (h : Word) : (zOf h).toNat = h.toNat / 2 ^ 8 % 256 := by
  simp only [zOf, BitVec.extractLsb'_toNat, Nat.shiftRight_eq_div_pow, Nat.reducePow]

theorem toNat_varOf (h : Word) : (varOf h).toNat = h.toNat % 256 := by
  simp only [varOf, BitVec.extractLsb'_toNat, Nat.shiftRight_zero, Nat.reducePow]

/-- The upper bits of a byte are zero exactly when its number is small. -/
theorem ushiftRight_eq_zero_iff (b : Byte) (n : Nat) : b >>> n = 0 ↔ b.toNat < 2 ^ n := by
  rw [← BitVec.toNat_inj, BitVec.toNat_ushiftRight, Nat.shiftRight_eq_div_pow]
  exact Nat.div_eq_zero_iff_lt (Nat.two_pow_pos n)

/-- 30 R92, R100, R101: which header words are legal, by the numbers in their fields. -/
theorem headerFault_eq_none_iff_toNat (h : Word) :
    headerFault h = none ↔
      (h.toNat / 2 ^ 24 = 1 ∧ h.toNat / 2 ^ 8 % 256 = 0 ∧ h.toNat / 2 ^ 16 % 256 < 32) ∨
      ((h.toNat / 2 ^ 24 = 2 ∨ h.toNat / 2 ^ 24 = 5) ∧ h.toNat / 2 ^ 16 % 256 = 0 ∧ h.toNat / 2 ^ 8 % 256 = 0 ∧
        h.toNat % 256 = 0) ∨
      ((h.toNat / 2 ^ 24 = 3 ∨ h.toNat / 2 ^ 24 = 4) ∧ h.toNat / 2 ^ 16 % 256 < 2 ∧ h.toNat / 2 ^ 8 % 256 = 0 ∧
        h.toNat % 256 = 0) := by
  rw [headerFault_eq_none_iff, ← toNat_opOf, ← toNat_optOf, ← toNat_zOf, ← toNat_varOf, ushiftRight_eq_zero_iff,
    ushiftRight_eq_zero_iff]
  simp only [← BitVec.toNat_inj, Nat.reducePow, and_left_comm]
  exact Iff.rfl

/-- An illegal header stands in front of what is left. -/
theorem cons_of_decode_illegal {ws rest : List Word} {why : IllegalWhy} (hd : decode ws = .illegal why rest) :
    ∃ h, ws = h :: rest ∧ headerFault h ≠ none := by
  cases ws with
  | nil => cases hd
  | cons h ws =>
    refine ⟨h, by rw [drop_of_decode_illegal hd]; rfl, fun hf => ?_⟩
    rw [decode_of_legal hf] at hd
    unfold decodeBody at hd
    split_ifs at hd <;> exact ofParts_ne_illegal _ _ _ _ hd

/-! ### INIT packets (30 R94, R95) -/

theorem decode_encodeInit (var : Byte) {o : InitOpts} (rest : List Word) (h : o.wellFormed = true) :
    decode (encodeInit var o ++ rest) = .cmd (initOf var o) rest := by
  rw [encodeInit, List.cons_append, decode_of_legal (headerFault_init o var), decodeBody, opOf_header, optOf_header,
    varOf_header, if_pos rfl, initParts?_encodeParts o rest h]
  rfl

/-- A byte that is none of the fifteen codes has no variant (30 R95). -/
theorem ofCode_eq_none {var : Byte} (h : ∀ v : Variant, var ≠ v.code) : Variant.ofCode var = none :=
  List.find?_eq_none.mpr fun v _ => by simpa using (h v).symm

/-! ### The lists of variants (10 R23) -/

theorem mem_md_iff (v : Variant) :
    v ∈ ([.sha1, .sha224, .sha256, .sha384, .sha512] : List Variant) ↔ v.desc.kind = .md := by
  cases v <;> decide

theorem mem_sha3_iff (v : Variant) :
    v ∈ ([.sha3_224, .sha3_256, .sha3_384, .sha3_512] : List Variant) ↔ v.desc.kind = .sha3 := by
  cases v <;> decide

theorem mem_cshake_iff (v : Variant) : v ∈ ([.cshake128, .cshake256] : List Variant) ↔ v.desc.kind = .cshake := by
  cases v <;> decide

theorem mem_kmac_iff (v : Variant) : v ∈ ([.kmac128, .kmac256] : List Variant) ↔ v.desc.kind = .kmac := by
  cases v <;> decide

theorem outBits_ne_zero_iff (v : Variant) : v.desc.outBits ≠ 0 ↔ v.desc.kind = .md ∨ v.desc.kind = .sha3 := by
  cases v <;> decide

namespace Machine

/-! ### Responses (30 R104, R105) -/

/-- An error word stands for one error and for no other response. -/
theorem eq_error_of_encodeResponse {x : Response} {e : Err} (h : encodeResponse x = encodeResponse (.error e)) :
    x = .error e := by
  cases x with
  | ok => cases e <;> exact absurd h (by decide)
  | okBits out => cases e <;> exact absurd (List.cons.inj h).1 (by decide)
  | error e' =>
    revert h
    cases e' <;> cases e <;> decide

/-- Bit 31 of the first word tells the errors from the other responses. -/
theorem eq_error_of_msb {x : Response} {w : Word} {r : List Word} (h : encodeResponse x = w :: r)
    (hw : w.msb = true) : ∃ e, x = .error e := by
  cases x with
  | error e => exact ⟨e, rfl⟩
  | ok => rw [← (List.cons.inj h).1] at hw; cases hw
  | okBits out => rw [← (List.cons.inj h).1] at hw; cases hw

theorem afterError_code (e : Err) (s : State) : afterError e.code s = raiseError e s := by
  cases e <;> rfl

theorem code_mem (e : Err) : e.code ∈ ([0x01, 0x02, 0x03, 0x04, 0x05, 0x06, 0x7F] : List Byte) := by
  cases e <;> decide

/-! ### The causes (60 R351 to R356) -/

/-- What asks for the error `e` when `i` is executed in `s`, with the priorities of 60 R360; no command asks for
`IllegalCommand` (60 R358). -/
def Causes (i : Instr) (s : State) : Err → Prop
  | .unsupportedVariant => ∃ var o, i = .initUnknown var o
  | .unsupportedOption =>
    (∃ v o, i = initInstr v o ∧ initCheck v o = some .unsupportedOption) ∨
      ∃ key, i = .setKey key ∧ s.phase ≠ .idle ∧ keyAllowed s.var s.nr key = false
  | .missingRequiredOption => ∃ v o, i = initInstr v o ∧ initCheck v o = some .missingRequiredOption
  | .invalidState =>
    (∃ data, i = .update data ∧ (s.phase = .idle ∨ lengthLegal s.var data = false)) ∨
      (∃ key, i = .setKey key ∧
        (s.phase = .idle ∨ ((s.upd = true ∨ s.keyset = true) ∧ keyAllowed s.var s.nr key = true))) ∨
      ∃ len, (i = .getHash len ∨ i = .getHmac len) ∧ s.phase = .idle
  | .unsupportedOutputLength =>
    ∃ len, (i = .getHash len ∨ (i = .getHmac len ∧ s.keyset = true)) ∧ s.phase ≠ .idle ∧ outLen s.desc len = none
  | .noKeySet => (∃ len, i = .getHmac len) ∧ s.phase ≠ .idle ∧ s.keyset = false
  | .illegalCommand => False

/-- A command on `s` has answered in `t`; if with an error `e`, then `C e` holds and the response is all it did. -/
def ErrorsAreCaused (C : Err → Prop) (s t : State) : Prop :=
  ∃ x, t.rsp = s.rsp ++ encodeResponse x ∧ ∀ e, x = .error e → C e ∧ t = raiseError e s

theorem errorsAreCaused_raiseError {C : Err → Prop} {s : State} {e : Err} (h : C e) :
    ErrorsAreCaused C s (raiseError e s) := by
  refine ⟨.error e, rfl, fun e' he => ?_⟩
  cases he
  exact ⟨h, rfl⟩

theorem cause_of_errorsAreCaused {C : Err → Prop} {s : State} {e : Err} (h : ErrorsAreCaused C s (raiseError e s)) :
    C e := by
  obtain ⟨x, hx, hcaused⟩ := h
  exact (hcaused e (eq_error_of_encodeResponse (List.append_cancel_left hx).symm)).1

theorem initVariant_next_errorsAreCaused {v : Variant} {o : InitOpts} {s t : State} (h : initVariant v o s = .next t) :
    ErrorsAreCaused (initCheck v o = some ·) s t := by
  obtain ⟨e, he, rfl⟩ | ⟨-, s', hs', rfl⟩ := initVariant_next h
  · exact errorsAreCaused_raiseError he
  · obtain ⟨-, rfl⟩ | ⟨key, k0, -, -, rfl⟩ := initEffect_eq_some hs' <;> exact ⟨.ok, rfl, nofun⟩

theorem causes_of_initCheck {v : Variant} {o : InitOpts} {e : Err} (s : State) (h : initCheck v o = some e) :
    Causes (initInstr v o) s e := by
  obtain rfl | rfl := initCheck_eq h
  · exact .inl ⟨v, o, rfl, h⟩
  · exact ⟨v, o, rfl, h⟩

/-- Every error answer of a command has its cause. -/
theorem exec_next_errorsAreCaused {i : Instr} {s t : State} (h : exec i s = .next t) :
    ErrorsAreCaused (Causes i s) s t := by
  rcases instr_cases i with ⟨v, o, rfl⟩ | ⟨var, o, rfl⟩ | ⟨d, rfl⟩ | ⟨l, rfl⟩ | ⟨l, rfl⟩ | ⟨k, rfl⟩
  · rw [exec_initInstr] at h
    obtain ⟨x, hx, hcaused⟩ := initVariant_next_errorsAreCaused h
    exact ⟨x, hx, fun e he => (hcaused e he).imp_left (causes_of_initCheck s)⟩
  · cases h
    exact errorsAreCaused_raiseError (e := .unsupportedVariant) ⟨var, o, rfl⟩
  · obtain ⟨hd, rfl⟩ | ⟨-, -, rfl⟩ := execUpdate_next h
    · exact errorsAreCaused_raiseError (.inl ⟨d, rfl, hd⟩)
    · exact ⟨.ok, rfl, nofun⟩
  · obtain ⟨hp, rfl⟩ | ⟨hp, hl, rfl⟩ | ⟨-, L, b, -, rfl, -⟩ := execGetHash_next h
    · exact errorsAreCaused_raiseError (.inr (.inr ⟨l, .inl rfl, hp⟩))
    · exact errorsAreCaused_raiseError ⟨l, .inl rfl, hp, hl⟩
    · exact ⟨.okBits b, rfl, nofun⟩
  · obtain ⟨hp, rfl⟩ | ⟨hp, hk, rfl⟩ | ⟨hp, hk, hl, rfl⟩ | ⟨-, -, L, ko, b, -, -, -, rfl⟩ := execGetHmac_next h
    · exact errorsAreCaused_raiseError (.inr (.inr ⟨l, .inr rfl, hp⟩))
    · exact errorsAreCaused_raiseError (e := .noKeySet) ⟨⟨l, rfl⟩, hp, hk⟩
    · exact errorsAreCaused_raiseError ⟨l, .inr ⟨rfl, hk⟩, hp, hl⟩
    · exact ⟨.okBits b, rfl, nofun⟩
  · obtain ⟨hp, rfl⟩ | ⟨hp, ha, rfl⟩ | ⟨hp, ha, hu, rfl⟩ | ⟨-, -, -, -, k0, -, rfl⟩ := execSetKey_next h
    · exact errorsAreCaused_raiseError (.inr (.inl ⟨k, rfl, .inl hp⟩))
    · exact errorsAreCaused_raiseError (.inr ⟨k, rfl, hp, ha⟩)
    · exact errorsAreCaused_raiseError (.inr (.inl ⟨k, rfl, .inr ⟨hu, ha⟩⟩))
    · exact ⟨.ok, rfl, nofun⟩

/-! ### What a cause does -/

theorem exec_init_of_error {v : Variant} {o : InitOpts} {e : Err} (s : State) (h : initCheck v o = some e) :
    exec (initInstr v o) s = .next (raiseError e s) := by
  rw [exec_initInstr, initVariant, h]
  rfl

theorem exec_update_of_refused {d : Bits} {s : State} (h : s.phase = .idle ∨ lengthLegal s.var d = false) :
    exec (.update d) s = .next (raiseError .invalidState s) := by
  show execUpdate d s = _
  obtain h | h := h <;> simp [execUpdate, h, failWith]

theorem exec_setKey_of_refused {key : Bits} {s : State} (hp : s.phase ≠ .idle)
    (ha : keyAllowed s.var s.nr key = false) : exec (.setKey key) s = .next (raiseError .unsupportedOption s) := by
  show execSetKey key s = _
  rw [execSetKey, if_neg hp, ha]
  rfl

/-- SETKEY in Idle, or with an admitted key too late (42 R194). -/
theorem exec_setKey_of_invalid {key : Bits} {s : State}
    (h : s.phase = .idle ∨ ((s.upd = true ∨ s.keyset = true) ∧ keyAllowed s.var s.nr key = true)) :
    exec (.setKey key) s = .next (raiseError .invalidState s) := by
  show execSetKey key s = _
  obtain hp | ⟨hu, ha⟩ := h
  · exact if_pos hp
  · simp [execSetKey, ha, hu, failWith]

theorem exec_finalize_of_idle {i : Instr} {len : Option Word} {s : State} (hi : i = .getHash len ∨ i = .getHmac len)
    (hp : s.phase = .idle) : exec i s = .next (raiseError .invalidState s) := by
  obtain rfl | rfl := hi
  · exact if_pos hp
  · exact if_pos hp

/-- A command that meets the cause of an error does nothing but answer it. -/
theorem exec_of_causes {i : Instr} {s : State} {e : Err} (h : Causes i s e) : exec i s = .next (raiseError e s) := by
  cases e with
  | unsupportedVariant => obtain ⟨var, o, rfl⟩ := h; rfl
  | unsupportedOption =>
    obtain ⟨v, o, rfl, hc⟩ | ⟨key, rfl, hp, ha⟩ := h
    · exact exec_init_of_error s hc
    · exact exec_setKey_of_refused hp ha
  | missingRequiredOption =>
    obtain ⟨v, o, rfl, hc⟩ := h
    exact exec_init_of_error s hc
  | invalidState =>
    obtain ⟨d, rfl, hd⟩ | ⟨key, rfl, hk⟩ | ⟨len, hi, hp⟩ := h
    · exact exec_update_of_refused hd
    · exact exec_setKey_of_invalid hk
    · exact exec_finalize_of_idle hi hp
  | unsupportedOutputLength =>
    obtain ⟨len, rfl | ⟨rfl, hk⟩, hp, hl⟩ := h
    · exact exec_getHash_badLength hp hl
    · exact exec_getHmac_badLength hp hk hl
  | noKeySet =>
    obtain ⟨⟨len, rfl⟩, hp, hk⟩ := h
    exact exec_getHmac_keyless hp hk
  | illegalCommand => exact h.elim

/-- A command answers an error, and does nothing else, exactly when it meets the cause of it. -/
theorem exec_eq_afterError_iff (i : Instr) (s : State) (e : Err) :
    exec i s = .next (afterError e.code s) ↔ Causes i s e := by
  rw [afterError_code]
  exact ⟨fun h => cause_of_errorsAreCaused (exec_next_errorsAreCaused h), exec_of_causes⟩

/-- INIT of a known variant answers an error exactly when its check does (41 R157). -/
theorem exec_init_eq_afterError_iff (v : Variant) (o : InitOpts) (s : State) (e : Err) :
    exec (initInstr v o) s = .next (afterError e.code s) ↔ initCheck v o = some e := by
  rw [afterError_code]
  refine ⟨fun h => ?_, exec_init_of_error s⟩
  rw [exec_initInstr] at h
  exact cause_of_errorsAreCaused (initVariant_next_errorsAreCaused h)

/-! ### Any error, and the illegal header (60 R358, R361) -/

/-- Settles O12: the check on the header alone decides, and no command answers `IllegalCommand`. -/
theorem illegalHeaderConsumesOneWord : Obligations.IllegalHeaderConsumesOneWord := by
  intro s h ws hcmd op opt z var legal
  have hlegal : headerFault h = none ↔ legal := headerFault_eq_none_iff_toNat h
  refine ⟨fun hl => ?_, fun hl t ht hr => ?_⟩
  · obtain ⟨why, hf⟩ := Option.ne_none_iff_exists'.mp (mt hlegal.mp hl)
    rw [step_of_illegal (hcmd ▸ decode_of_fault hf ws), ← afterError_code]
    rfl
  · obtain ⟨i, rest, -, he⟩ | ⟨why, rest, hd, -⟩ | ⟨-, rfl⟩ := step_next ht
    · obtain ⟨x, hx, hcaused⟩ := exec_next_errorsAreCaused he
      exact (hcaused .illegalCommand (eq_error_of_encodeResponse (List.append_cancel_left (hx.symm.trans hr)))).1
    · obtain ⟨h', hcmd', hf⟩ := cons_of_decode_illegal hd
      obtain ⟨rfl, -⟩ := List.cons.inj (hcmd.symm.trans hcmd')
      exact hf (hlegal.mpr hl)
    · simp at hr

/-- Settles O16: bit 31 of the first word tells that the response is an error, and every error leaves the registers. -/
theorem errorChangesNoRegister : Obligations.ErrorChangesNoRegister := by
  intro s t w r h hr hw
  obtain ⟨i, rest, hd, he⟩ | ⟨why, rest, hd, rfl⟩ | ⟨-, rfl⟩ := step_next h
  · obtain ⟨x, hx, hcaused⟩ := exec_next_errorsAreCaused he
    obtain ⟨e, rfl⟩ := eq_error_of_msb (List.append_cancel_left (hx.symm.trans hr)) hw
    obtain ⟨-, rfl⟩ := hcaused e rfl
    exact ⟨e.code, code_mem e, rest, .inl ⟨i, hd⟩, (afterError_code e _).symm⟩
  · obtain ⟨h', hcmd, -⟩ := cons_of_decode_illegal hd
    exact ⟨0x7F, code_mem .illegalCommand, rest, .inr ⟨rfl, h', hcmd⟩, rfl⟩
  · simp at hr

/-! ### UnsupportedVariant (60 R351) -/

/-- Settles O17: only a byte outside the codes makes INIT of no variant, and its packet is read back whole. -/
theorem unsupportedVariantExactly : Obligations.UnsupportedVariantExactly := by
  refine ⟨fun i s => exec_eq_afterError_iff i s .unsupportedVariant, fun s var o rest hvar ho hcmd => ?_⟩
  have hcode : Variant.ofCode var = none := ofCode_eq_none fun v hv => hvar (hv ▸ by cases v <;> decide)
  have hd : decode s.cmd = .cmd (.initUnknown var o) rest := by
    rw [hcmd, decode_encodeInit var rest ho, initOf, hcode]
  rw [step_of_cmd hd]
  rfl

/-! ### NoKeySet and UnsupportedOutputLength (60 R355, R356) -/

/-- Settles O22: GETHMAC alone asks for a key. -/
theorem noKeySetExactly : Obligations.NoKeySetExactly := fun i s => exec_eq_afterError_iff i s .noKeySet

/-- What `OutLen` refuses (41 R156). -/
theorem outLen_eq_none_iff (d : Desc) (len : Option Word) :
    outLen d len = none ↔ if d.outBits ≠ 0 then ∃ n, len = some n ∧ n.toNat ≠ d.outBits
      else len = none ∨ ∃ n, len = some n ∧ (n = 0 ∨ n.toNat % 8 ≠ 0) := by
  have hzero (n : Word) : n.toNat = 0 ↔ n = 0 := BitVec.toNat_inj (y := 0)
  unfold outLen
  split
  · cases len <;> simp
  · cases len <;> simp [hzero, imp_iff_not_or]

/-- Settles O21: the finalize commands fail on the length `OutLen` refuses. -/
theorem unsupportedOutputLengthExactly : Obligations.UnsupportedOutputLengthExactly := by
  intro i s
  refine (exec_eq_afterError_iff i s .unsupportedOutputLength).trans ?_
  simp only [Causes, outLen_eq_none_iff]

/-! ### InvalidState (60 R354) -/

theorem lengthLegal_eq_false_iff (v : Variant) (b : Bits) :
    lengthLegal v b = false ↔ v.desc.kind ≠ .md ∧ b.length % 8 ≠ 0 := by
  simp [lengthLegal, wholeBytes, ← md_iff]

/-- 42 R190 by kinds. -/
theorem keyAllowed_iff_kind (v : Variant) (nr : Word) (key : Bits) :
    keyAllowed v nr key = true ↔
      nr = 1 ∧ (v.desc.kind = .md ∨ (v.desc.kind = .sha3 ∧ key.length % 8 = 0)) := by
  rw [keyAllowed_iff, outBits_ne_zero_iff, md_iff]
  tauto

/-- Settles O20: the causes of `InvalidState` are named by the kinds of the variants. -/
theorem invalidStateExactly : Obligations.InvalidStateExactly := by
  intro i s
  refine (exec_eq_afterError_iff i s .invalidState).trans ?_
  simp only [Causes, lengthLegal_eq_false_iff, keyAllowed_iff_kind, mem_md_iff, mem_sha3_iff]

/-! ### The checks of INIT (60 R352, R353) -/

theorem initCheck_eq_unsupportedOption_iff (v : Variant) (o : InitOpts) :
    initCheck v o = some .unsupportedOption ↔ optionRefused v o = true := by
  unfold initCheck
  split_ifs <;> simp_all

theorem initCheck_eq_missingRequiredOption_iff (v : Variant) (o : InitOpts) :
    initCheck v o = some .missingRequiredOption ↔ optionRefused v o = false ∧ kmacKeyMissing v o = true := by
  unfold initCheck
  split_ifs <;> simp_all

/-- `not KeyAllowed`, causes g, h, i (60 R352). -/
theorem keyAllowed_eq_false_iff (v : Variant) (nr : Word) (key : Bits) :
    keyAllowed v nr key = false ↔
      ¬ (v.desc.kind = .md ∨ v.desc.kind = .sha3) ∨ nr ≠ 1 ∨ (v.desc.kind = .sha3 ∧ key.length % 8 ≠ 0) := by
  rw [← Bool.not_eq_true, keyAllowed_iff_kind]
  by_cases hm : v.desc.kind = .md
  · simp [hm]
  · simp only [hm, false_or]
    tauto

theorem nrOrDefault_ne_one_iff (o : InitOpts) : nrOrDefault o ≠ 1 ↔ o.nr ≠ none ∧ o.nr ≠ some 1 := by
  unfold nrOrDefault
  cases o.nr <;> simp

theorem not_all_iff_exists (p : Option Bits) (f : Bits → Bool) : (!p.all f) = true ↔ ∃ b, p = some b ∧ f b = false := by
  cases p <;> simp

theorem setKey_ne_initInstr (key : Bits) (v : Variant) (o : InitOpts) : Instr.setKey key ≠ initInstr v o := by
  cases v <;> nofun

/-- Line 2 of 41 R157 cause by cause (60 R352). -/
theorem optionRefused_iff (v : Variant) (o : InitOpts) :
    optionRefused v o = true ↔
      (o.nr ≠ none ∧ v.desc.kind ≠ .md) ∨ o.nr = some 0 ∨ (o.fn ≠ none ∧ v.desc.kind ≠ .cshake) ∨
        (o.cu ≠ none ∧ ¬ (v.desc.kind = .cshake ∨ v.desc.kind = .kmac)) ∨ (o.kk ≠ none ∧ v.desc.kind ≠ .kmac) ∨
        (∃ b, (o.fn = some b ∨ o.cu = some b ∨ o.kk = some b) ∧ b.length % 8 ≠ 0) ∨
        ∃ key, o.hk = some key ∧ keyAllowed v (nrOrDefault o) key = false := by
  have hnr : (o.nr.isSome && (!v.md || o.nr == some 0)) = true ↔ (o.nr ≠ none ∧ v.desc.kind ≠ .md) ∨ o.nr = some 0 := by
    cases o.nr <;> simp [← md_iff]
  have hfn : (o.fn.isSome && v.desc.kind != .cshake) = true ↔ o.fn ≠ none ∧ v.desc.kind ≠ .cshake := by
    simp [Option.isSome_iff_ne_none]
  have hcu : (o.cu.isSome && !(v.desc.kind == .cshake || v.desc.kind == .kmac)) = true ↔
      o.cu ≠ none ∧ ¬ (v.desc.kind = .cshake ∨ v.desc.kind = .kmac) := by
    simp [Option.isSome_iff_ne_none]
  have hkk : (o.kk.isSome && v.desc.kind != .kmac) = true ↔ o.kk ≠ none ∧ v.desc.kind ≠ .kmac := by
    simp [Option.isSome_iff_ne_none]
  have hwhole : (!(o.fn.all wholeBytes && o.cu.all wholeBytes && o.kk.all wholeBytes)) = true ↔
      ∃ b, (o.fn = some b ∨ o.cu = some b ∨ o.kk = some b) ∧ b.length % 8 ≠ 0 := by
    simp only [Bool.not_and, Bool.or_eq_true, not_all_iff_exists, wholeBytes, beq_eq_false_iff_ne, or_and_right,
      exists_or, or_assoc]
  simp only [optionRefused, Bool.or_eq_true, hnr, hfn, hcu, hkk, hwhole, not_all_iff_exists, or_assoc]

/-- Settles O18: the checks of INIT and SETKEY name the causes, by the kinds of the variants. -/
theorem unsupportedOptionExactly : Obligations.UnsupportedOptionExactly := by
  refine ⟨fun v o s => ?_, fun key s => ?_, fun i s h => ?_⟩
  · refine (exec_init_eq_afterError_iff v o s .unsupportedOption).trans ?_
    simp only [initCheck_eq_unsupportedOption_iff, optionRefused_iff, keyAllowed_eq_false_iff, nrOrDefault_ne_one_iff,
      List.mem_append, mem_md_iff, mem_sha3_iff, mem_cshake_iff, mem_kmac_iff]
  · refine (exec_eq_afterError_iff (.setKey key) s .unsupportedOption).trans ?_
    simp only [Causes, setKey_ne_initInstr, false_and, exists_false, false_or, Instr.setKey.injEq, exists_eq_left',
      keyAllowed_eq_false_iff, List.mem_append, mem_md_iff, mem_sha3_iff]
  · obtain ⟨v, o, hi, -⟩ | ⟨key, hi, -⟩ := (exec_eq_afterError_iff i s .unsupportedOption).mp h
    · exact .inl ⟨v, o, hi⟩
    · exact .inr ⟨key, hi⟩

theorem kmacKeyMissing_iff (v : Variant) (o : InitOpts) :
    kmacKeyMissing v o = true ↔ v.desc.kind = .kmac ∧ (o.kk = none ∨ o.kk = some []) := by
  cases hk : o.kk <;> simp [kmacKeyMissing, hk]

/-- What INIT of a KMAC variant without a non-empty key may carry. -/
theorem optionRefused_kmac_eq_false_iff {v : Variant} {o : InitOpts} (hv : v.desc.kind = .kmac)
    (hkk : o.kk = none ∨ o.kk = some []) :
    optionRefused v o = false ↔
      o.nr = none ∧ o.hk = none ∧ o.fn = none ∧ ∀ b, o.cu = some b → b.length % 8 = 0 := by
  have hkk8 : ∀ b, o.kk = some b → b.length % 8 = 0 := by
    obtain h | h := hkk <;> simp [h]
  have hkey (key : Bits) : keyAllowed v (nrOrDefault o) key = false := by
    simp [keyAllowed_eq_false_iff, hv]
  rw [← Bool.not_eq_true, optionRefused_iff]
  refine ⟨fun h => ?_, fun ⟨hnr, hhk, hfn, hcu⟩ => ?_⟩
  · simp only [hv, hkey, not_or, not_and, not_exists, ne_eq, reduceCtorEq, not_false_eq_true, and_true, not_not] at h
    obtain ⟨hnr, -, hfn, -, -, hwhole, hhk⟩ := h
    exact ⟨hnr, Option.eq_none_iff_forall_ne_some.mpr hhk, hfn, fun b hb => hwhole b (.inr (.inl hb))⟩
  · simpa [hv, hnr, hhk, hfn] using fun b (hb : o.cu = some b ∨ o.kk = some b) => hb.elim (hcu b) (hkk8 b)

/-- Settles O19: the check for a key of KMAC comes behind that of the options. -/
theorem missingRequiredOptionExactly : Obligations.MissingRequiredOptionExactly := by
  intro i s
  refine (exec_eq_afterError_iff i s .missingRequiredOption).trans ⟨?_, ?_⟩
  · rintro ⟨v, o, rfl, hc⟩
    obtain ⟨hopt, hmissing⟩ := (initCheck_eq_missingRequiredOption_iff v o).mp hc
    obtain ⟨hv, hkk⟩ := (kmacKeyMissing_iff v o).mp hmissing
    have hvar : v = .kmac128 ∨ v = .kmac256 := by simpa using (mem_kmac_iff v).mpr hv
    have hi : initInstr v o = .initKmac128 o ∨ initInstr v o = .initKmac256 o :=
      hvar.imp (congrArg (initInstr · o)) (congrArg (initInstr · o))
    exact ⟨o, hi, hkk, (optionRefused_kmac_eq_false_iff hv hkk).mp hopt⟩
  · rintro ⟨o, hi, hkk, hopt⟩
    obtain ⟨v, hv, rfl⟩ : ∃ v : Variant, v.desc.kind = .kmac ∧ i = initInstr v o :=
      hi.elim (fun h => ⟨.kmac128, rfl, h⟩) fun h => ⟨.kmac256, rfl, h⟩
    exact ⟨v, o, rfl, (initCheck_eq_missingRequiredOption_iff v o).mpr
      ⟨(optionRefused_kmac_eq_false_iff hv hkk).mpr hopt, (kmacKeyMissing_iff v o).mpr ⟨hv, hkk⟩⟩⟩

end Machine

end Sys2Proof
end

section
/-!
PROOFS. The statements about packets: decoding and encoding, incomplete packets, words behind a packet
(spec/30_encoding.md R102, R103, R107, R109, spec/20_memory.md R74).
-/

namespace Sys2Proof

/-! ### Decoding the packet of a command (30 R107) -/

theorem decode_encodeP_update {p : Bits} (rest : List Word) (h : payloadFits p = true) :
    decode (encodeP 0x02 p ++ rest) = .cmd (.update p) rest := by
  rw [encodeP, List.cons_append, show header 0x02 0 0 = 0x02000000 by decide, decode_updateHeader,
    payloadSection?_encodeSection p rest h]
  rfl

theorem decode_encodeP_setKey {p : Bits} (rest : List Word) (h : payloadFits p = true) :
    decode (encodeP 0x05 p ++ rest) = .cmd (.setKey p) rest := by
  rw [encodeP, List.cons_append, show header 0x05 0 0 = 0x05000000 by decide, decode_setKeyHeader,
    payloadSection?_encodeSection p rest h]
  rfl

/-- The flag `LENP` of a packet of format G (30 R98). -/
theorem getLsbD_lengthFlag (f : Bool) : (if f then 0x01 else 0 : Byte).getLsbD 0 = f := by cases f <;> rfl

theorem decode_encodeG_getHash (len : Option Word) (rest : List Word) :
    decode (encodeG 0x03 len ++ rest) = .cmd (.getHash len) rest := by
  rw [encodeG, List.cons_append, decode_of_legal (headerFault_G 0x03 len.isSome (.inl rfl)), decodeBody, opOf_header,
    optOf_header, getLsbD_lengthFlag, optWord?_encode]
  rfl

theorem decode_encodeG_getHmac (len : Option Word) (rest : List Word) :
    decode (encodeG 0x04 len ++ rest) = .cmd (.getHmac len) rest := by
  rw [encodeG, List.cons_append, decode_of_legal (headerFault_G 0x04 len.isSome (.inr rfl)), decodeBody, opOf_header,
    optOf_header, getLsbD_lengthFlag, optWord?_encode]
  rfl

/-- Decoding undoes encoding, whatever stands behind the packet. -/
theorem decode_encode {i : Instr} (rest : List Word) (h : i.wellFormed = true) :
    decode (encode i ++ rest) = .cmd i rest := by
  rcases instr_cases i with ⟨v, o, rfl⟩ | ⟨var, o, rfl⟩ | ⟨d, rfl⟩ | ⟨l, rfl⟩ | ⟨l, rfl⟩ | ⟨k, rfl⟩
  · rw [encode_initInstr, decode_encodeInit v.code rest (wellFormed_initInstr v o ▸ h), initOf_code]
  · obtain ⟨hvar, ho⟩ : Variant.ofCode var = none ∧ o.wellFormed = true := by simpa [Instr.wellFormed] using h
    rw [encode, decode_encodeInit var rest ho, initOf, hvar]
  · exact decode_encodeP_update rest h
  · exact decode_encodeG_getHash l rest
  · exact decode_encodeG_getHmac l rest
  · exact decode_encodeP_setKey rest h

/-- Settles O7: each part of the packet is read back whole, the header first. -/
theorem decodeOfEncodeIsTheCommand : Obligations.DecodeOfEncodeIsTheCommand := fun _ rest h => decode_encode rest h

/-! ### What a decoded command occupies (30 R103) -/

/-- Reading `rest` behind the front of `ws` has taken `n` words. -/
def TakesWords (n : Nat) (ws rest : List Word) : Prop := ∃ packet, ws = packet ++ rest ∧ packet.length = n

theorem TakesWords.zero (ws : List Word) : TakesWords 0 ws ws := ⟨[], rfl, rfl⟩

theorem TakesWords.trans {m n : Nat} {a b c : List Word} (h : TakesWords m a b) (h' : TakesWords n b c) :
    TakesWords (m + n) a c := by
  obtain ⟨p, rfl, rfl⟩ := h
  obtain ⟨q, rfl, rfl⟩ := h'
  exact ⟨p ++ q, (List.append_assoc p q c).symm, List.length_append⟩

theorem TakesWords.cons {n : Nat} {ws rest : List Word} (h : TakesWords n ws rest) (w : Word) :
    TakesWords (n + 1) (w :: ws) rest := by
  obtain ⟨p, rfl, rfl⟩ := h
  exact ⟨w :: p, rfl, rfl⟩

theorem takesWords_payloadSection? {ws rest : List Word} {b : Bits} (h : payloadSection? ws = some (b, rest)) :
    TakesWords (encodeSection b).length ws rest := by
  obtain ⟨n, data, rfl, hdata, -, hb⟩ := payloadSection?_eq_some h
  exact ⟨n :: data, rfl, by rw [length_encodeSection, List.length_cons, hdata, hb, Nat.add_comm]⟩

/-- What `optSection?` reads: the part its flag announces. -/
theorem optSection?_eq_some {f : Bool} {ws rest : List Word} {p : Option Bits}
    (h : optSection? f ws = some (p, rest)) :
    p.isSome = f ∧ p.all payloadFits = true ∧ TakesWords (encodeOptSection p).length ws rest := by
  cases f with
  | false => cases h; exact ⟨rfl, rfl, .zero ws⟩
  | true =>
    obtain ⟨⟨b, r⟩, hb, hr⟩ := Option.map_eq_some_iff.mp h
    cases hr
    exact ⟨rfl, payloadFits_of_section? hb, takesWords_payloadSection? hb⟩

/-- What `optWord?` reads: the word its flag announces. -/
theorem optWord?_eq_some {f : Bool} {ws rest : List Word} {w : Option Word} (h : optWord? f ws = some (w, rest)) :
    w.isSome = f ∧ TakesWords w.toList.length ws rest := by
  cases f with
  | false => cases h; exact ⟨rfl, .zero ws⟩
  | true =>
    cases ws with
    | nil => cases h
    | cons x ws => cases h; exact ⟨rfl, [x], rfl, rfl⟩

/-- The flag bits of an INIT header are determined by the parts they announce (30 R94, R100). -/
theorem initFlags_eq {o : InitOpts} {opt : Byte} (hopt : opt >>> 5 = 0) (hnr : o.nr.isSome = opt.getLsbD 0)
    (hhk : o.hk.isSome = opt.getLsbD 1) (hfn : o.fn.isSome = opt.getLsbD 2) (hcu : o.cu.isSome = opt.getLsbD 3)
    (hkk : o.kk.isSome = opt.getLsbD 4) : initFlags o = opt := by
  rw [initFlags, hnr, hhk, hfn, hcu, hkk]
  clear hnr hhk hfn hcu hkk
  revert opt
  decide

/-- What `initParts?` reads: options a packet can carry, those its flags announce. -/
theorem initParts?_eq_some {opt : Byte} {ws rest : List Word} {o : InitOpts} (hopt : opt >>> 5 = 0)
    (h : initParts? opt ws = some (o, rest)) :
    o.wellFormed = true ∧ initFlags o = opt ∧ TakesWords (encodeParts o).length ws rest := by
  simp only [initParts?, Option.bind_eq_some_iff, Option.map_eq_some_iff, Prod.mk.injEq] at h
  obtain ⟨⟨nr, r1⟩, h1, ⟨hk, r2⟩, h2, ⟨fn, r3⟩, h3, ⟨cu, r4⟩, h4, ⟨kk, r5⟩, h5, rfl, rfl⟩ := h
  obtain ⟨hnr, t1⟩ := optWord?_eq_some h1
  obtain ⟨hhk, w2, t2⟩ := optSection?_eq_some h2
  obtain ⟨hfn, w3, t3⟩ := optSection?_eq_some h3
  obtain ⟨hcu, w4, t4⟩ := optSection?_eq_some h4
  obtain ⟨hkk, w5, t5⟩ := optSection?_eq_some h5
  refine ⟨by simp only [InitOpts.wellFormed, w2, w3, w4, w5]; rfl, initFlags_eq hopt hnr hhk hfn hcu hkk, ?_⟩
  simpa only [encodeParts, List.length_append] using (((t1.trans t2).trans t3).trans t4).trans t5

/-- Whatever the `var` byte, INIT of it is encoded with it (30 R95). -/
theorem encode_initOf (var : Byte) (o : InitOpts) : encode (initOf var o) = encodeInit var o := by
  unfold initOf
  split
  next v hv => rw [encode_initInstr, code_of_ofCode hv]
  next => rfl

theorem wellFormed_initOf (var : Byte) (o : InitOpts) : (initOf var o).wellFormed = o.wellFormed := by
  unfold initOf
  split
  next v hv => exact wellFormed_initInstr v o
  next hv => simp [Instr.wellFormed, hv]

/-- A command read behind the header `h`: a packet can carry it, and its packet begins with `h`. -/
def ReadBehind (h : Word) (ws rest : List Word) (i : Instr) : Prop :=
  i.wellFormed = true ∧ ∃ parts, encode i = h :: parts ∧ TakesWords parts.length ws rest

theorem readBehind_init {h : Word} {ws rest : List Word} {o : InitOpts} (hop : opOf h = 0x01) (hz : zOf h = 0)
    (hopt : optOf h >>> 5 = 0) (hp : initParts? (optOf h) ws = some (o, rest)) :
    ReadBehind h ws rest (initOf (varOf h) o) := by
  obtain ⟨ho, hflags, ht⟩ := initParts?_eq_some hopt hp
  refine ⟨(wellFormed_initOf _ o).trans ho, encodeParts o, ?_, ht⟩
  rw [encode_initOf, encodeInit, hflags, ← hop, header_of_fields h hz]

/-- The header of format P has zero fields (30 R96, R100). -/
theorem header_P {h : Word} {op : Byte} (hop : opOf h = op) (hz : zOf h = 0) (hopt : optOf h = 0)
    (hvar : varOf h = 0) : header op 0 0 = h := by
  rw [← header_of_fields h hz, hop, hopt, hvar]

/-- The header of format G has one flag (30 R98, R100). -/
theorem header_G {h : Word} {op : Byte} (hop : opOf h = op) (hz : zOf h = 0) (hopt : optOf h >>> 1 = 0)
    (hvar : varOf h = 0) : header op (if (optOf h).getLsbD 0 then 0x01 else 0) 0 = h := by
  have hflag : (if (optOf h).getLsbD 0 then 0x01 else 0) = optOf h := by
    clear hop hz hvar
    generalize optOf h = opt at *
    revert opt
    decide
  rw [hflag, ← hop, ← hvar, header_of_fields h hz]

theorem readBehind_P {h : Word} {ws rest : List Word} {op : Byte} {p : Bits} {i : Instr} (hh : header op 0 0 = h)
    (hi : i.wellFormed = payloadFits p) (henc : encode i = encodeP op p) (hp : payloadSection? ws = some (p, rest)) :
    ReadBehind h ws rest i :=
  ⟨hi.trans (payloadFits_of_section? hp), encodeSection p, by rw [henc, encodeP, hh], takesWords_payloadSection? hp⟩

theorem readBehind_G {h : Word} {ws rest : List Word} {op : Byte} {f : Bool} {len : Option Word} {i : Instr}
    (hh : header op (if f then 0x01 else 0) 0 = h) (hi : i.wellFormed = true) (henc : encode i = encodeG op len)
    (hlen : optWord? f ws = some (len, rest)) : ReadBehind h ws rest i := by
  obtain ⟨rfl, ht⟩ := optWord?_eq_some hlen
  exact ⟨hi, len.toList, by rw [henc, encodeG, hh], ht⟩

theorem readBehind_of_decodeBody {h : Word} {ws rest : List Word} {i : Instr} (hf : headerFault h = none)
    (hd : decodeBody h ws = .cmd i rest) : ReadBehind h ws rest i := by
  obtain ⟨hop, hz, hopt⟩ | ⟨hop | hop, hz, hopt, hvar⟩ | ⟨hop | hop, hz, hopt, hvar⟩ :=
    (headerFault_eq_none_iff h).mp hf <;> rw [decodeBody, hop] at hd <;> obtain ⟨a, ha, rfl⟩ := ofParts_eq_cmd hd
  · exact readBehind_init hop hz hopt ha
  · exact readBehind_P (header_P hop hz hopt hvar) rfl rfl ha
  · exact readBehind_P (header_P hop hz hopt hvar) rfl rfl ha
  · exact readBehind_G (header_G hop hz hopt hvar) rfl rfl ha
  · exact readBehind_G (header_G hop hz hopt hvar) rfl rfl ha

/-- A decoded command was read behind the legal header in front. -/
theorem readBehind_of_decode {ws rest : List Word} {i : Instr} (hd : decode ws = .cmd i rest) :
    ∃ h tail, ws = h :: tail ∧ ReadBehind h tail rest i := by
  cases ws with
  | nil => cases hd
  | cons h tail =>
    cases hf : headerFault h with
    | some why => rw [decode_of_fault hf] at hd; cases hd
    | none => exact ⟨h, tail, rfl, readBehind_of_decodeBody hf (decode_of_legal hf tail ▸ hd)⟩

theorem wellFormed_of_decode {ws rest : List Word} {i : Instr} (hd : decode ws = .cmd i rest) :
    i.wellFormed = true := by
  obtain ⟨h, tail, -, hi, -⟩ := readBehind_of_decode hd
  exact hi

/-- Settles O8: the fields of the legal header are those of the command's own header, and each part takes the words of
its own encoding. -/
theorem decodedCommandsAreWellFormed : Obligations.DecodedCommandsAreWellFormed := by
  intro ws rest i hd
  obtain ⟨h, tail, rfl, hi, parts, henc, ht⟩ := readBehind_of_decode hd
  exact ⟨hi, by rw [henc]; rfl, by rw [henc]; exact ht.cons h⟩

/-! ### The worked encodings (30 R109) -/

/-- Settles O10: the words are fixed, so decoding them is a computation. -/
theorem writtenOutWordsDecode : Obligations.WrittenOutWordsDecode := by
  unfold Obligations.WrittenOutWordsDecode
  decide

/-! ### Incomplete packets and later words (30 R102, 20 R74) -/

/-- Of a proper front part of a packet nothing is decoded. -/
theorem decode_of_incomplete {ws missing : List Word} {i : Instr} (hi : i.wellFormed = true) (hne : missing ≠ [])
    (h : ws ++ missing = encode i) : decode ws = .wait := by
  have hwhole : decode (ws ++ missing) = .cmd i [] := by simpa [h] using decode_encode [] hi
  cases hd : decode ws with
  | wait => rfl
  | cmd c rest =>
    rw [decode_cmd_append hd missing] at hwhole
    exact absurd (List.append_eq_nil_iff.mp (Decoded.cmd.inj hwhole).2).2 hne
  | illegal why rest => rw [decode_illegal_append hd missing] at hwhole; cases hwhole

namespace Machine

/-- Settles O11: `step` fetches the packet and executes it on what is left. -/
theorem stepRunsTheDecodedCommand : Obligations.StepRunsTheDecodedCommand := fun _ _ _ _ h => step_of_cmd h

/-- Settles O13: with words missing nothing is decoded, and the engine waits. -/
theorem incompletePacketWaits : Obligations.IncompletePacketWaits := fun _ _ _ hi hne h =>
  step_of_wait (decode_of_incomplete hi hne h)

/-- What a result becomes when the host has sent words behind the packet. -/
def thenSent (more : List Word) : Result → Result
  | .next t => .next (hostSend more t)
  | .fault f => .fault f
  | .refused r => .refused r

/-- A command does not see words behind its packet. -/
theorem exec_hostSend (i : Instr) (more : List Word) (s : State) :
    exec i (hostSend more s) = thenSent more (exec i s) := by
  have h : exec i (hostSend more s) = onStreams s (s.cmd ++ more) s.rsp (exec i s) := exec_streams i s _ s.rsp
  rw [h]
  cases he : exec i s with
  | next t =>
    obtain ⟨x, hr, hc⟩ := exec_next_streams he
    simp [onStreams, thenSent, hostSend, hr, hc]
  | fault f => rfl
  | refused r => rfl

theorem step_hostSend {s : State} (more : List Word) (h : decode s.cmd ≠ .wait) :
    step (hostSend more s) = thenSent more (step s) := by
  cases hd : decode s.cmd with
  | cmd i rest =>
    rw [step_of_cmd hd, step_of_cmd (decode_cmd_append hd more), ← exec_hostSend]
    rfl
  | illegal why rest =>
    rw [step_of_illegal hd, step_of_illegal (decode_illegal_append hd more)]
    rfl
  | wait => exact absurd hd h

/-- Settles O14: the packet is decoded as before, and no command reads what stands behind it. -/
theorem laterWordsDoNotDisturb : Obligations.LaterWordsDoNotDisturb := by
  intro s more hw
  rw [step_hostSend more hw]
  exact ⟨fun t h => congrArg (thenSent more) h, fun f h => congrArg (thenSent more) h,
    fun r h => congrArg (thenSent more) h⟩

end Machine

end Sys2Proof
end

section
/-!
PROOFS. The statements about reset, the invariant and progress (spec/10_state.md R39, R41, spec/70_reset_and_hazards.md
R390, spec/41_incremental_engine.md R167).
-/

namespace Sys2Proof.Machine

/-! ### Reset (70 R390) -/

/-- Settles O1: these are the fields the reset event gives a value. -/
theorem resetLeavesIdleAndEmptyStreams : Obligations.ResetLeavesIdleAndEmptyStreams := fun _ _ =>
  ⟨rfl, rfl, rfl, rfl, rfl, rfl⟩

/-! ### The invariant speaks of the registers, not of the streams (10 R39) -/

theorem SessionInv.streams {s : State} (h : SessionInv s) (c r : List Word) :
    SessionInv { s with cmd := c, rsp := r } :=
  ⟨h.view, h.nr_pos, h.rem_short, h.plen_blocks, h.upd_phase, h.sponge_nr, h.sponge_bytes, h.key_variant, h.key_kin,
    h.key_kout, h.csf_kind, h.kmac_csf, h.fresh_rem, h.fresh_start⟩

theorem EngineInv.streams {s : State} (h : EngineInv s) (c r : List Word) : EngineInv { s with cmd := c, rsp := r } :=
  fun hp => (h hp).streams c r

theorem engineInv_of_idle {s : State} (h : s.phase = .idle) : EngineInv s := fun hp => absurd h hp

/-- Settles O2: Idle asks nothing of the registers, and the host writes the streams alone. -/
theorem invariantHoldsAfterReset : Obligations.InvariantHoldsAfterReset :=
  ⟨engineInv_of_idle rfl, fun _ _ => engineInv_of_idle rfl, fun s h =>
    ⟨fun ws => h.streams (s.cmd ++ ws) s.rsp, fun n => h.streams s.cmd (s.rsp.drop n)⟩⟩

/-! ### What keeps a session sound -/

/-- Before any key a session has absorbed what there is to frame, from the start (47 R330). -/
theorem triple_absorbPrefix_startSession (v : Variant) (o : InitOpts) (s : State) :
    (absorbPrefix v o (startSession v o s)).triple = absorb v.desc (freshTriple v) (prefixInputs v o).flatten :=
  absorb_foldl (blockBits_pos v) (freshTriple v) (blockBits_pos v) (prefixInputs v o)

theorem rem_absorbPrefix_startSession (v : Variant) (o : InitOpts) (s : State) :
    (absorbPrefix v o (startSession v o s)).rem = [] := by rw [absorbPrefix_startSession]

/-- INIT leaves a sound session, before any key (41 R158). -/
theorem sessionInv_init {v : Variant} {o : InitOpts} (s : State) (h : initCheck v o = none) :
    SessionInv (absorbPrefix v o (startSession v o s)) := by
  have ht := triple_absorbPrefix_startSession v o s
  have hplen : (absorbPrefix v o (startSession v o s)).plen = _ := congrArg Triple.plen ht
  have hrem := rem_absorbPrefix_startSession v o s
  obtain ⟨hpos, hsponge⟩ := nr_of_initCheck h
  exact {
    view := (congrArg (·.is.family) ht).trans (family_absorb_fresh v _)
    nr_pos := hpos
    rem_short := hrem ▸ blockBits_pos v
    plen_blocks := by
      rw [hplen]
      exact absorb_plen_mod (freshTriple v) _ (by simp [freshTriple])
    upd_phase := by simp
    sponge_nr := hsponge
    sponge_bytes := fun _ => by rw [hrem]; rfl
    key_variant := by simp
    key_kin := rfl
    key_kout := rfl
    csf_kind := fun hc => ((csfAtInit_iff v o).mp hc).symm.imp_left And.left
    kmac_csf := fun hk => (csfAtInit_iff v o).mpr (.inl hk)
    fresh_rem := fun _ => hrem
    fresh_start := fun _ _ h0 => by
      have hnil : prefixInputs v o = [] := prefixInputs_eq_nil o h0
      rw [absorbPrefix_of_nil hnil]
      exact ⟨rfl, rfl⟩ }

theorem lengthLegal_iff (v : Variant) (b : Bits) : lengthLegal v b = true ↔ v.md = true ∨ b.length % 8 = 0 := by
  simp [lengthLegal, wholeBytes]

/-- UPDATE keeps a session sound (41 R159). -/
theorem SessionInv.update {s : State} (h : SessionInv s) {data : Bits} (hd : lengthLegal s.var data = true) :
    SessionInv (absorbRegs data s).markUpdated where
  view := (family_absorb _ _ _).trans h.view
  nr_pos := h.nr_pos
  rem_short := absorb_rem_lt (blockBits_pos s.var) _ _
  plen_blocks := absorb_plen_mod s.triple data h.plen_blocks
  upd_phase := by simp
  sponge_nr := h.sponge_nr
  sponge_bytes := fun hm => by
    have hrem : s.rem.length % 8 = 0 := h.sponge_bytes hm
    have hdata : data.length % 8 = 0 := ((lengthLegal_iff _ _).mp hd).resolve_left (Bool.eq_false_iff.mp hm)
    have hB : 8 ∣ s.desc.blockBits := Nat.dvd_of_mod_eq_zero (blockBits_mod8 s.var)
    show (absorb s.desc s.triple data).rem.length % 8 = 0
    rw [absorb_rem_length, Nat.mod_mod_of_dvd _ hB, triple_rem]
    omega
  key_variant := fun hk => by
    obtain ⟨hv, hnr, hcount⟩ := h.key_variant hk
    refine ⟨hv, hnr, hcount.trans ?_⟩
    show counted s.plen ≤ counted (absorb s.desc s.triple data).plen
    rw [absorb_plen]
    exact counted_le_counterAdd _ _
  key_kin := h.key_kin
  key_kout := h.key_kout
  csf_kind := h.csf_kind
  kmac_csf := h.kmac_csf
  fresh_rem := by simp
  fresh_start := by simp

/-- `InstallKey` keeps a session sound that is Fresh and has no key (42 R193). -/
theorem SessionInv.installNormKey {s : State} (h : SessionInv s) {k0 : Bits} (hp : s.phase = .fresh)
    (hk : s.keyset = false) (h0 : s.desc.outBits ≠ 0) (hnr : s.nr = 1) (hl : k0.length = s.desc.blockBits) :
    SessionInv (installNormKey k0 s) := by
  have hB : (BitVec.ofNat 128 s.desc.blockBits).toNat = s.desc.blockBits := by
    have hle : s.desc.blockBits ≤ 1344 := blockBits_le s.var
    rw [BitVec.toNat_ofNat]
    omega
  have hlen (c : Byte) : (padKey s.var c k0).length = s.desc.blockBits := length_padKey c hl
  rw [installNormKey_of_start (triple_of_fresh h hp hk h0) hl]
  exact {
    view := (family_round _ _).trans (family_newState s.var)
    nr_pos := h.nr_pos
    rem_short := blockBits_pos s.var
    plen_blocks := fun p hpl => by
      cases hpl
      exact (congrArg (· % s.desc.blockBits) hB).trans (Nat.mod_self _)
    upd_phase := h.upd_phase
    sponge_nr := h.sponge_nr
    sponge_bytes := fun _ => rfl
    key_variant := fun _ => ⟨(hmac_iff s.var).mpr h0, hnr, hB.ge⟩
    key_kin := congrArg some (hlen 0x36)
    key_kout := congrArg some (hlen 0x5C)
    csf_kind := h.csf_kind
    kmac_csf := h.kmac_csf
    fresh_rem := fun _ => rfl
    fresh_start := nofun }

/-- A successful INIT leaves a sound session, with a key or without (41 R158). -/
theorem sessionInv_initEffect {v : Variant} {o : InitOpts} {s s' : State} (h : initCheck v o = none)
    (hs : initEffect v o s = some s') : SessionInv s' := by
  have hinit := sessionInv_init s h
  obtain ⟨-, rfl⟩ | ⟨key, k0, hkey, hk0, rfl⟩ := initEffect_eq_some hs
  · exact hinit
  · obtain ⟨h0, hnr, -⟩ := (keyAllowed_iff _ _ _).mp (hk_allowed h hkey)
    exact hinit.installNormKey rfl rfl h0 hnr (length_normKey hk0)

/-- Every command keeps the invariant. -/
theorem engineInv_of_exec {i : Instr} {s t : State} (hs : EngineInv s) (h : exec i s = .next t) : EngineInv t := by
  have answered (x : Response) : EngineInv (respond x s) := hs.streams s.cmd _
  rcases instr_cases i with ⟨v, o, rfl⟩ | ⟨_, o, rfl⟩ | ⟨d, rfl⟩ | ⟨l, rfl⟩ | ⟨l, rfl⟩ | ⟨k, rfl⟩
  · rw [exec_initInstr] at h
    obtain ⟨e, -, rfl⟩ | ⟨hc, s', hs', rfl⟩ := initVariant_next h
    · exact answered (.error e)
    · exact fun _ => (sessionInv_initEffect hc hs').streams _ _
  · cases h
    exact answered (.error .unsupportedVariant)
  · obtain ⟨-, rfl⟩ | ⟨hp, hd, rfl⟩ := execUpdate_next h
    · exact answered (.error .invalidState)
    · exact fun _ => ((hs hp).update hd).streams _ _
  · obtain ⟨x, -, rfl⟩ := exec_finalize_next ⟨l, .inl rfl⟩ h
    exact answered x
  · obtain ⟨x, -, rfl⟩ := exec_finalize_next ⟨l, .inr rfl⟩ h
    exact answered x
  · obtain ⟨-, rfl⟩ | ⟨-, -, rfl⟩ | ⟨-, -, -, rfl⟩ | ⟨hp, ha, hu, hk, k0, hk0, rfl⟩ := execSetKey_next h
    · exact answered (.error .invalidState)
    · exact answered (.error .unsupportedOption)
    · exact answered (.error .invalidState)
    · obtain ⟨h0, hnr, -⟩ := (keyAllowed_iff _ _ _).mp ha
      have hfresh := phase_fresh_of_not_upd (hs hp) hp hu
      exact fun _ => ((hs hp).installNormKey hfresh hk h0 hnr (length_normKey hk0)).streams _ _

/-- Settles O3: taking a packet and responding touch no register, and every command keeps the invariant. -/
theorem invariantKeptByEveryStep : Obligations.InvariantKeptByEveryStep := by
  intro s t hs h
  obtain ⟨i, rest, -, he⟩ | ⟨why, rest, -, rfl⟩ | ⟨-, rfl⟩ := step_next h
  · exact engineInv_of_exec (hs.streams rest s.rsp) he
  · exact hs.streams rest _
  · exact hs

/-! ### Progress (41 R167, 60 R371) -/

/-- INIT whose checks pass, with an HMAC key. -/
theorem exec_init_of_key {v : Variant} {o : InitOpts} {s : State} {key k0 : Bits} (hc : initCheck v o = none)
    (hk : o.hk = some key) (hk0 : normKey v key = some k0) :
    exec (initInstr v o) s = .next (respond .ok (installNormKey k0 (absorbPrefix v o (startSession v o s)))) := by
  have heff : initEffect v o s = some (installNormKey k0 (absorbPrefix v o (startSession v o s))) := by
    rw [initEffect, hk]
    exact installKey_eq_some.mpr ⟨k0, hk0, rfl⟩
  rw [exec_initInstr, initVariant, hc, heff]
  rfl

theorem exec_init_progress {v : Variant} {o : InitOpts} (s : State) (ho : o.wellFormed = true) :
    ∃ t, exec (initInstr v o) s = .next t := by
  cases hc : initCheck v o with
  | some e => exact ⟨_, exec_init_of_error s hc⟩
  | none =>
    cases hk : o.hk with
    | none => exact ⟨_, exec_init_of_check hc hk⟩
    | some key =>
      have hfits : payloadFits key = true := by simp_all [InitOpts.wellFormed]
      obtain ⟨k0, hk0⟩ := normKey_of_payload v (of_decide_eq_true hfits)
      exact ⟨_, exec_init_of_key hc hk hk0⟩

theorem exec_update_progress (data : Bits) (s : State) : ∃ t, exec (.update data) s = .next t := by
  by_cases h : s.phase = .idle ∨ lengthLegal s.var data = false
  · exact ⟨_, exec_update_of_refused h⟩
  · obtain ⟨hp, hd⟩ := not_or.mp h
    exact ⟨_, exec_update_of_legal hp ((lengthLegal_iff _ _).mp (by simpa using hd))⟩

theorem exec_setKey_progress {key : Bits} (s : State) (hkey : payloadFits key = true) :
    ∃ t, exec (.setKey key) s = .next t := by
  by_cases hp : s.phase = .idle
  · exact ⟨_, exec_setKey_of_invalid (.inl hp)⟩
  cases ha : keyAllowed s.var s.nr key with
  | false => exact ⟨_, exec_setKey_of_refused hp ha⟩
  | true =>
    by_cases hu : s.upd = true ∨ s.keyset = true
    · exact ⟨_, exec_setKey_of_invalid (.inr ⟨hu, ha⟩)⟩
    · obtain ⟨hupd, hset⟩ := not_or.mp hu
      obtain ⟨k0, hk0⟩ := normKey_of_payload s.var (of_decide_eq_true hkey)
      exact ⟨_, exec_setKey_of_allowed hp ha (by simpa using hupd) (by simpa using hset) hk0⟩

theorem exec_finalize_progress {i : Instr} {len : Option Word} {s : State} (hi : i = .getHash len ∨ i = .getHmac len)
    (hs : EngineInv s) (hf : s.phase ≠ .idle → LengthFits s) : ∃ t, exec i s = .next t := by
  by_cases hp : s.phase = .idle
  · exact ⟨_, exec_finalize_of_idle hi hp⟩
  have hkeyed (hk : s.keyset = true) : ∃ t, keyedAnswer s = .next t := by
    obtain ⟨out, -, h⟩ := keyedAnswer_of_sound (hs hp) hk (hf hp)
    exact ⟨_, h⟩
  obtain rfl | rfl := hi
  · cases hl : outLen s.desc len with
    | none => exact ⟨_, exec_getHash_badLength hp hl⟩
    | some L =>
      cases hk : s.keyset with
      | true => rw [exec_getHash_keyed hp hk hl]; exact hkeyed hk
      | false =>
        have hL : s.desc.outBits ≠ 0 → L = s.desc.outBits := fun h0 =>
          (outLen_eq_some hl).elim (fun h => h.2.1) fun h => absurd h.1 h0
        obtain ⟨b, hb, -⟩ := plainOutput_of_sound (hs hp) (hf hp) L hL
        exact ⟨_, by rw [exec_getHash_unkeyed hp hk hl, hb]; rfl⟩
  · cases hk : s.keyset with
    | false => exact ⟨_, exec_getHmac_keyless hp hk⟩
    | true =>
      cases hl : outLen s.desc len with
      | none => exact ⟨_, exec_getHmac_badLength hp hk hl⟩
      | some L => rw [exec_getHmac_keyed hp hk hl]; exact hkeyed hk

/-- A command that a packet can carry goes on to a next state in every sound state whose total length fits. -/
theorem exec_progress {i : Instr} {s : State} (hi : i.wellFormed = true) (hs : EngineInv s)
    (hf : s.phase ≠ .idle → LengthFits s) : ∃ t, exec i s = .next t := by
  rcases instr_cases i with ⟨v, o, rfl⟩ | ⟨_, o, rfl⟩ | ⟨d, rfl⟩ | ⟨l, rfl⟩ | ⟨l, rfl⟩ | ⟨k, rfl⟩
  · exact exec_init_progress s (wellFormed_initInstr v o ▸ hi)
  · exact ⟨_, rfl⟩
  · exact exec_update_progress d s
  · exact exec_finalize_progress (.inl rfl) hs hf
  · exact exec_finalize_progress (.inr rfl) hs hf
  · exact exec_setKey_progress s hi

/-- Settles O5: a decoded command is one a packet can carry, and every such command goes on; the other steps do in every
state. -/
theorem everySoundStateHasANextState : Obligations.EverySoundStateHasANextState := by
  intro s hs hf
  cases hd : decode s.cmd with
  | cmd i rest =>
    rw [step_of_cmd hd]
    exact exec_progress (wellFormed_of_decode hd) (hs.streams rest s.rsp) hf
  | illegal why rest => exact ⟨_, step_of_illegal hd⟩
  | wait => exact ⟨s, step_of_wait hd⟩

/-! ### What the registers hold in Idle cannot be observed (10 R41, 93 U2) -/

/-- Two Idle engines with the same words in their streams. -/
structure IdleAlike (s t : State) : Prop where
  left : s.phase = .idle
  right : t.phase = .idle
  cmd : t.cmd = s.cmd
  rsp : t.rsp = s.rsp

/-- Two results are the same, or both engines stay Idle with the same words in their streams. -/
def SameOrIdle (r r' : Result) : Prop := r = r' ∨ ∃ s t, IdleAlike s t ∧ r = .next s ∧ r' = .next t

/-- INIT writes every register, so nothing but the streams is left of the state it came in (41 R158). -/
theorem startSession_of_streams {s t : State} (hc : t.cmd = s.cmd) (hr : t.rsp = s.rsp) (v : Variant) (o : InitOpts) :
    startSession v o t = startSession v o s := by
  simp only [startSession, hc, hr]

theorem initEffect_of_streams {s t : State} (hc : t.cmd = s.cmd) (hr : t.rsp = s.rsp) (v : Variant) (o : InitOpts) :
    initEffect v o t = initEffect v o s := by
  rw [initEffect, initEffect, startSession_of_streams hc hr]

section Idle
variable {s t : State} (h : IdleAlike s t)
include h

theorem IdleAlike.respond (x : Response) : IdleAlike (respond x s) (respond x t) :=
  ⟨h.left, h.right, h.cmd, congrArg (· ++ encodeResponse x) h.rsp⟩

theorem IdleAlike.takePacket (rest : List Word) : IdleAlike (takePacket rest s) (takePacket rest t) :=
  ⟨h.left, h.right, rfl, h.rsp⟩

theorem IdleAlike.hostSend (ws : List Word) : IdleAlike (hostSend ws s) (hostSend ws t) :=
  ⟨h.left, h.right, congrArg (· ++ ws) h.cmd, h.rsp⟩

theorem sameOrIdle_of_causes {i : Instr} {e : Err} (hs : Causes i s e) (ht : Causes i t e) :
    SameOrIdle (exec i s) (exec i t) :=
  .inr ⟨_, _, h.respond (.error e), exec_of_causes hs, exec_of_causes ht⟩

/-- In Idle INIT alone succeeds, and it reads no register. -/
theorem exec_of_idleAlike (i : Instr) : SameOrIdle (exec i s) (exec i t) := by
  rcases instr_cases i with ⟨v, o, rfl⟩ | ⟨var, o, rfl⟩ | ⟨d, rfl⟩ | ⟨l, rfl⟩ | ⟨l, rfl⟩ | ⟨k, rfl⟩
  · cases hc : initCheck v o with
    | some e => exact .inr ⟨_, _, h.respond (.error e), exec_init_of_error s hc, exec_init_of_error t hc⟩
    | none =>
      left
      rw [exec_initInstr, exec_initInstr, initVariant, initVariant, hc, initEffect_of_streams h.cmd h.rsp]
  · exact sameOrIdle_of_causes h (e := .unsupportedVariant) ⟨var, o, rfl⟩ ⟨var, o, rfl⟩
  · exact sameOrIdle_of_causes h (e := .invalidState) (.inl ⟨d, rfl, .inl h.left⟩) (.inl ⟨d, rfl, .inl h.right⟩)
  · exact sameOrIdle_of_causes h (e := .invalidState) (.inr (.inr ⟨l, .inl rfl, h.left⟩))
      (.inr (.inr ⟨l, .inl rfl, h.right⟩))
  · exact sameOrIdle_of_causes h (e := .invalidState) (.inr (.inr ⟨l, .inr rfl, h.left⟩))
      (.inr (.inr ⟨l, .inr rfl, h.right⟩))
  · exact sameOrIdle_of_causes h (e := .invalidState) (.inr (.inl ⟨k, rfl, .inl h.left⟩))
      (.inr (.inl ⟨k, rfl, .inl h.right⟩))

theorem step_of_idleAlike : SameOrIdle (step s) (step t) := by
  cases hd : decode s.cmd with
  | cmd i rest =>
    rw [step_of_cmd hd, step_of_cmd (h.cmd ▸ hd)]
    exact exec_of_idleAlike (h.takePacket rest) i
  | illegal why rest =>
    exact .inr ⟨_, _, (h.takePacket rest).respond (.error .illegalCommand), step_of_illegal hd,
      step_of_illegal (h.cmd ▸ hd)⟩
  | wait => exact .inr ⟨s, t, h, step_of_wait hd, step_of_wait (h.cmd ▸ hd)⟩

end Idle

theorem observed_hostRun_of_idleAlike (script : List (List Word)) {s t : State} (h : IdleAlike s t) :
    observed (hostRun script s) = observed (hostRun script t) := by
  induction script generalizing s t with
  | nil => exact congrArg Host.Outcome.next h.rsp.symm
  | cons ws more ih =>
    simp only [hostRun]
    obtain heq | ⟨s', t', h', hs', ht'⟩ := step_of_idleAlike (h.hostSend ws)
    · rw [heq]
    · rw [hs', ht']
      exact ih h'

/-- Settles O4: two Idle engines stay alike until an INIT succeeds, which leaves them equal. -/
theorem registersAfterResetAreNotObservable : Obligations.RegistersAfterResetAreNotObservable :=
  fun _ _ script hs ht hc hr => observed_hostRun_of_idleAlike script ⟨hs, ht, hc, hr⟩

end Sys2Proof.Machine
end

section
/-!
PROOFS. The statements about the frames of the commands, INIT and UPDATE (spec/10_state.md R40,
spec/41_incremental_engine.md R151, R158, R159, spec/42_hmac.md R194).
-/

namespace Sys2Proof.Machine

/-! ### The frames (10 R40) -/

section Frames
variable {s t : State}

theorem execUpdate_frame {data : Bits} (h : execUpdate data s = .next t) :
    t = { s with phase := t.phase, upd := t.upd, is := t.is, rem := t.rem, plen := t.plen, rsp := t.rsp } := by
  obtain ⟨-, rfl⟩ | ⟨-, -, rfl⟩ := execUpdate_next h <;> rfl

theorem execSetKey_frame {key : Bits} (h : execSetKey key s = .next t) :
    t = { s with keyset := t.keyset, is := t.is, rem := t.rem, plen := t.plen, kin := t.kin, kout := t.kout,
                 rsp := t.rsp } := by
  obtain ⟨-, rfl⟩ | ⟨-, -, rfl⟩ | ⟨-, -, -, rfl⟩ | ⟨-, -, -, -, k0, -, rfl⟩ := execSetKey_next h <;> rfl

theorem exec_finalize_frame {i : Instr} {len : Option Word} (hi : i = .getHash len ∨ i = .getHmac len)
    (h : exec i s = .next t) : t = { s with rsp := t.rsp } := by
  obtain ⟨x, -, rfl⟩ := exec_finalize_next ⟨len, hi⟩ h
  rfl

/-- INIT of a known variant answers an error and writes no register, or answers Ok and sets up the session. -/
theorem exec_init_next {v : Variant} {o : InitOpts} (h : exec (initInstr v o) s = .next t) :
    (∃ e, t = raiseError e s) ∨
      (initCheck v o = none ∧ t.rsp = s.rsp ++ [0x00000000] ∧ ∃ s', initEffect v o s = some s' ∧ t = respond .ok s') := by
  rw [exec_initInstr] at h
  obtain ⟨e, -, rfl⟩ | ⟨hc, s', hs', rfl⟩ := initVariant_next h
  · exact .inl ⟨e, rfl⟩
  · have hrsp : s'.rsp = s.rsp := by
      obtain ⟨-, rfl⟩ | ⟨key, k0, -, -, rfl⟩ := initEffect_eq_some hs' <;> rfl
    exact .inr ⟨hc, congrArg (· ++ [0x00000000]) hrsp, s', hs', rfl⟩

end Frames

/-- Settles O24: each command writes what its inversion lemma names, and every command appends to `RSP`. -/
theorem eachCommandWritesOnlyItsRegisters : Obligations.EachCommandWritesOnlyItsRegisters := by
  intro s t
  refine ⟨fun data => execUpdate_frame, fun key => execSetKey_frame, fun len => exec_finalize_frame (.inl rfl),
    fun len => exec_finalize_frame (.inr rfl), fun var o h => ?_, fun v o h => ⟨?_, fun hr => ?_⟩, fun i h => ?_⟩
  · cases h
    rfl
  · obtain ⟨-, -, hcmd⟩ := exec_next_streams h
    exact hcmd
  · obtain ⟨e, rfl⟩ | ⟨-, hok, -⟩ := exec_init_next h
    · rfl
    · exact absurd hok hr
  · obtain ⟨x, hr, -⟩ := exec_next_streams h
    exact ⟨x, hr.symm⟩

/-! ### INIT (41 R158) -/

/-- Settles O25: the effect of INIT depends on the streams alone. -/
theorem initForgetsTheOldSession : Obligations.InitForgetsTheOldSession := by
  intro v o s s' t h hok
  obtain ⟨e, rfl⟩ | ⟨hc, -, t', ht', rfl⟩ := exec_init_next h
  · exact absurd hok (respond_rsp_ne_ok (x := .error e) nofun s)
  · have heff : initEffect v o { s' with cmd := s.cmd, rsp := s.rsp } = some t' := by
      rw [← ht']
      exact initEffect_of_streams rfl rfl v o
    rw [exec_initInstr, initVariant, hc, heff]
    rfl

/-- Settles O27: there is nothing to frame, so the lanes stay at zero. -/
theorem initOfSha3OrShakeClearsTheLanes : Obligations.InitOfSha3OrShakeClearsTheLanes := by
  intro o s hnr hhk hfn hcu hkk started
  have hinit {v : Variant} (hv : v.desc.kind = .sha3 ∨ v.desc.kind = .shake) :
      exec (initInstr v o) s = .next (started v) := by
    obtain ⟨hmd, hkmac, hcshake⟩ : v.desc.kind ≠ .md ∧ v.desc.kind ≠ .kmac ∧ v.desc.kind ≠ .cshake := by
      obtain h | h := hv <;> simp [h]
    have hcheck : initCheck v o = none :=
      initCheck_sponge hnr hhk (fun _ => hfn) (fun _ _ => hcu) (fun _ => hkk) (fun h => absurd h hkmac)
        (by simp [hfn, hcu, hkk])
    have hcsf : csfAtInit v o = false := by
      rw [← Bool.not_eq_true, csfAtInit_iff]
      simp [hkmac, hcshake]
    exact exec_init_unframed s (md_false_of_kind hmd) hcheck hnr hhk hcsf
  exact ⟨hinit (v := .sha3_224) (.inl rfl), hinit (v := .sha3_256) (.inl rfl), hinit (v := .sha3_384) (.inl rfl),
    hinit (v := .sha3_512) (.inl rfl), hinit (v := .shake128) (.inr rfl), hinit (v := .shake256) (.inr rfl)⟩

/-! ### INIT with a key (42 R194) -/

/-- One round, whether `nr` is left out or says so. -/
theorem nrOrDefault_eq_one {v : Variant} {o : InitOpts} (hnr : o.nr = none ∨ (v.md = true ∧ o.nr = some 1)) :
    nrOrDefault o = 1 := by
  obtain h | ⟨-, h⟩ := hnr <;> simp [nrOrDefault, h]

/-- INIT of a variant that admits a key takes one round and a key the variant admits (41 R157, 42 R190). -/
theorem initCheck_keyed {v : Variant} {o : InitOpts} (h0 : v.desc.outBits ≠ 0)
    (hnr : o.nr = none ∨ (v.md = true ∧ o.nr = some 1)) (hfn : o.fn = none) (hcu : o.cu = none) (hkk : o.kk = none)
    (hhk : ∀ key, o.hk = some key → v.md = true ∨ key.length % 8 = 0) : initCheck v o = none := by
  have hallowed : ∀ key, o.hk = some key → keyAllowed v (nrOrDefault o) key = true := fun key hkey =>
    (keyAllowed_iff _ _ _).mpr ⟨h0, nrOrDefault_eq_one hnr, hhk key hkey⟩
  have hrounds : ¬ (o.nr ≠ none ∧ v.desc.kind ≠ .md) ∧ o.nr ≠ some 0 := by
    obtain h | ⟨hm, h⟩ := hnr
    · simp [h]
    · simp [h, (md_iff v).mp hm]
  have hopt : optionRefused v o = false := by
    rw [← Bool.not_eq_true, optionRefused_iff]
    rintro (h | h | h | h | h | h | ⟨key, hkey, h⟩)
    · exact hrounds.1 h
    · exact hrounds.2 h
    · exact h.1 hfn
    · exact h.1 hcu
    · exact h.1 hkk
    · simp [hfn, hcu, hkk] at h
    · simp [hallowed key hkey] at h
  have hkmac : kmacKeyMissing v o = false := by
    obtain h | h := (outBits_ne_zero_iff v).mp h0 <;> simp [kmacKeyMissing, h]
  simp [initCheck, hopt, hkmac]

/-- Settles O30: both ways the normalised key is installed in the session INIT starts. -/
theorem initWithHmacKeyIsInitThenSetKey : Obligations.InitWithHmacKeyIsInitThenSetKey := by
  intro v o key s h0 hnr hhk hfn hcu hkk hkey hlen
  obtain ⟨k0, hk0⟩ := normKey_of_payload v hlen
  have hinit := exec_init_of_check (s := s) (initCheck_keyed h0 hnr hfn hcu hkk (by simp [hhk])) hhk
  have hset := exec_setKey_of_allowed (s := respond .ok (absorbPrefix v o (startSession v o s))) (by simp)
    ((keyAllowed_iff _ _ _).mpr ⟨h0, nrOrDefault_eq_one hnr, hkey⟩) rfl rfl hk0
  have hboth := exec_init_of_key (o := { o with hk := some key }) (s := s)
    (initCheck_keyed h0 hnr hfn hcu hkk fun _ h => Option.some.inj h ▸ hkey) rfl hk0
  refine ⟨_, _, (runCommands_cons hinit).trans (runCommands_cons hset), hboth, rfl, ?_⟩
  rw [absorbPrefix_of_nil (prefixInputs_eq_nil _ h0), absorbPrefix_of_nil (prefixInputs_eq_nil _ h0)]
  exact congrArg (fun r => { installNormKey k0 (startSession v o s) with rsp := r })
    (List.append_assoc s.rsp [0x00000000] [0x00000000])

/-! ### UPDATE (41 R151, R159) -/

/-- Settles O32: the statement is `Absorb` on the registers, written out. -/
theorem updateAbsorbsThePayload : Obligations.UpdateAbsorbsThePayload := fun _ _ hp hd => exec_update_of_legal hp hd

theorem counterOf_eq_none {n : Nat} (h : 2 ^ 128 ≤ n) : counterOf n = none := if_neg (Nat.not_lt.mpr h)

/-- `REM` after an absorption is what came in, without the bits that went to the round function. -/
theorem absorb_rem_eq_drop (d : Desc) (t : Triple) (b : Bits) :
    (absorb d t b).rem = (t.rem ++ b).drop ((t.rem.length + b.length) / d.blockBits * d.blockBits) := by
  rw [← List.length_append]
  rfl

/-- Settles O33: the whole blocks of what waited and the payload are counted, and the rest waits. -/
theorem updateCountsEveryBit : Obligations.UpdateCountsEveryBit := by
  intro data s t h hok
  obtain ⟨-, rfl⟩ | ⟨-, -, rfl⟩ := execUpdate_next h
  · exact absurd hok (respond_rsp_ne_ok (x := .error .invalidState) nofun s)
  have hrem : (absorb s.desc s.triple data).rem.length = (s.rem.length + data.length) % s.desc.blockBits :=
    absorb_rem_length s.desc s.triple data
  have hplen : (absorb s.desc s.triple data).plen =
      counterAdd s.plen ((s.rem.length + data.length) / s.desc.blockBits * s.desc.blockBits) :=
    absorb_plen s.desc s.triple data
  have hsum := Nat.div_add_mod' (s.rem.length + data.length) s.desc.blockBits
  refine ⟨(s.rem.length + data.length) / s.desc.blockBits * s.desc.blockBits, Nat.mul_mod_left ..,
    absorb_rem_eq_drop s.desc s.triple data, absorb_rem_lt (blockBits_pos s.var) s.triple data, fun p hp hlt => ?_,
    fun p hp hge => ?_, fun hnone => ?_⟩
  · have hval := (BitVec.toNat_ofNat _ 128).trans (Nat.mod_eq_of_lt hlt)
    refine ⟨_, hplen.trans (by rw [hp, counterAdd_some, counterOf_eq_some hlt]), hval, ?_⟩
    show (BitVec.ofNat 128 _).toNat + (absorb s.desc s.triple data).rem.length = _
    rw [hval, hrem]
    omega
  · exact hplen.trans (by rw [hp, counterAdd_some, counterOf_eq_none hge])
  · exact hplen.trans (by rw [hnone, counterAdd_none])

end Sys2Proof.Machine
end

section
/-!
PROOFS. The statements about the permutation, the sponge, the rotations and the length encodings (spec/00_scope.md R8,
spec/46_keccak_sponge.md R281 to R294, spec/47_cshake_kmac.md R322).
-/

namespace Sys2Proof

/-! ### Rotations (00 R8) -/

/-- The right rotation by `n` takes bit `i` from where the left rotation by `n` puts it. -/
theorem getLsbD_rotr {w : Nat} (v : BitVec w) {n i : Nat} (hn : n < w) (hi : i < w) :
    (rotr v n).getLsbD i = v.getLsbD ((i + n) % w) := by
  have hw : 0 < w := by omega
  have hback : ((i + n) % w + (w - n) % w) % w = i := by
    rw [← Nat.add_mod, show i + n + (w - n) = i + w by omega, Nat.add_mod_right, Nat.mod_eq_of_lt hi]
  have h := getLsbD_rotl v (Nat.mod_lt (w - n) hw) (Nat.mod_lt (i + n) hw)
  rwa [hback] at h

/-- Settles O48: both rotations add the amount to the position, modulo the width. -/
theorem rotationsMoveEveryBit : Obligations.RotationsMoveEveryBit := fun _ v _ _ hn hi =>
  ⟨getLsbD_rotl v hn hi, getLsbD_rotr v hn hi⟩

namespace Machine

/-! ### The tables of the permutation (46 R283, R286) -/

/-- The place of step `t` of the walk over the lanes (46 R283). -/
def rhoWalk (t : Nat) : Fin 5 × Fin 5 := (fun p : Fin 5 × Fin 5 => (p.2, 2 * p.1 + 3 * p.2))^[t] (1, 0)

/-- The feedback shift register after `t` steps (46 R286). -/
def lfsrState (t : Nat) : BitVec 9 :=
  (fun s : BitVec 9 => if (s <<< 1).getLsbD 8 then (s <<< 1) ^^^ 0x171 else s <<< 1)^[t] 1

theorem rhoOffset_rhoWalk :
    ∀ t < 24, rhoOffset (rhoWalk t).1 (rhoWalk t).2 = (t + 1) * (t + 2) / 2 % 64 := by decide +kernel

theorem getLsbD_roundConstants :
    ∀ ir < 24, ∀ b < 64, (roundConstants.getD ir 0).getLsbD b =
      (List.range 7).any fun j => b == 2 ^ j - 1 && (lfsrState (j + 7 * ir)).getLsbD 0 := by decide +kernel

/-- Settles O53: the tables are fixed, so that they follow their rules is a computation, entry by entry. -/
theorem keccakTablesFollowTheirGeneratingRules : Obligations.KeccakTablesFollowTheirGeneratingRules :=
  ⟨rfl, rhoOffset_rhoWalk, rfl, fun ir b hir hb => getLsbD_roundConstants ir hir b hb⟩

/-! ### The byte form of the state (46 R281) -/

theorem getD_laneBytes (v : Lane) {j : Nat} (hj : j < 8) : (laneBytes v).getD j 0 = v.extractLsb' (8 * j) 8 := by
  simp [laneBytes, List.getD_eq_getElem?_getD, hj]

/-- Eight bytes to a lane: byte `j` of lane `i` is byte `8·i + j`. -/
theorem getD_flatMap_laneBytes (L : List Lane) (i : Nat) {j : Nat} (hj : j < 8) :
    (L.flatMap laneBytes).getD (8 * i + j) 0 = (L.getD i 0).extractLsb' (8 * j) 8 := by
  induction L generalizing i with
  | nil => simp
  | cons v L ih =>
    have hv : (laneBytes v).length = 8 := by simp [laneBytes]
    rw [List.flatMap_cons]
    cases i with
    | zero => rw [List.getD_append _ _ _ _ (by omega), Nat.mul_zero, Nat.zero_add, getD_laneBytes v hj]; rfl
    | succ i =>
      rw [List.getD_append_right _ _ _ _ (by omega), List.getD_cons_succ, ← ih i, hv]
      congr 1; omega

/-- Where each bit of a lane stands in the byte form: bytes from the least significant, each most significant bit
first. -/
theorem getD_stateBits (A : Lanes) (i : Nat) {j b : Nat} (hj : j < 8) (hb : b < 8) :
    (stateBits A).getD (64 * i + 8 * j + b) false = (A.toList.getD i 0).getLsbD (8 * j + (7 - b)) := by
  rw [stateBits, bitsOfBytes, show 64 * i + 8 * j + b = 8 * (8 * i + j) + b by omega, getD_flatMap_bitsBE _ _ _ hb,
    stateBytes, getD_flatMap_laneBytes _ _ hj, BitVec.getMsbD_eq_getLsbD, decide_eq_true hb, Bool.true_and,
    BitVec.getLsbD_extractLsb', decide_eq_true (by omega), Bool.true_and]

/-- Every position in the byte form is that of one bit of one lane. -/
theorem exists_bit_position (k : Nat) : ∃ i j b, j < 8 ∧ b < 8 ∧ k = 64 * i + 8 * j + b :=
  ⟨k / 64, k % 64 / 8, k % 8, by omega, by omega, by omega⟩

/-! ### Absorbing (46 R290) -/

theorem get_xorLanes (A : Lanes) (L : List Lane) (x y : Fin 5) :
    (xorLanes A L).get x y = A.get x y ^^^ L.getD (x.val + 5 * y.val) 0 := Lanes.get_of _ x y

theorem length_toList (A : Lanes) : A.toList.length = 25 := rfl

theorem getD_toList_xorLanes (A : Lanes) {L : List Lane} (hL : L.length ≤ 25) (i : Nat) :
    (xorLanes A L).toList.getD i 0 = A.toList.getD i 0 ^^^ L.getD i 0 := by
  by_cases hi : i < 25
  · have hpos : (⟨i % 5, by omega⟩ : Fin 5).val + 5 * (⟨i / 5, by omega⟩ : Fin 5).val = i := Nat.mod_add_div i 5
    have h := get_xorLanes A L ⟨i % 5, by omega⟩ ⟨i / 5, by omega⟩
    rwa [← Lanes.toList_getD, ← Lanes.toList_getD, hpos] at h
  · rw [List.getD_eq_default _ _ (by rw [length_toList]; omega), List.getD_eq_default _ _ (by rw [length_toList]; omega),
      List.getD_eq_default _ _ (by omega)]
    rfl

theorem length_convLE (P : Bits) : (convLE P).length = P.length / 64 := by simp [convLE]

/-- Where each bit of a block of whole lanes stands in its lane; beyond the block the lanes are zero. -/
theorem getLsbD_getD_convLE {P : Bits} (hP : P.length % 64 = 0) (i : Nat) {j b : Nat} (hj : j < 8) (hb : b < 8) :
    ((convLE P).getD i 0).getLsbD (8 * j + (7 - b)) = P.getD (64 * i + 8 * j + b) false := by
  by_cases hi : i < P.length / 64
  · obtain ⟨-, h⟩ := blocksArePackedInTheirByteOrder.2 P hP
    exact h i j b hi hj hb
  · rw [List.getD_eq_default _ _ (by rw [length_convLE]; omega), List.getD_eq_default P _ (by omega)]
    exact BitVec.getLsbD_zero

/-- XOR into the lanes is XOR into the byte form, bit by bit. -/
theorem getD_stateBits_xorLanes (A : Lanes) {P : Bits} (hP : P.length % 64 = 0) (hle : P.length ≤ 1600) (k : Nat) :
    (stateBits (xorLanes A (convLE P))).getD k false = ((stateBits A).getD k false ^^ P.getD k false) := by
  obtain ⟨i, j, b, hj, hb, rfl⟩ := exists_bit_position k
  rw [getD_stateBits _ i hj hb, getD_stateBits _ i hj hb, getD_toList_xorLanes A (by rw [length_convLE]; omega),
    BitVec.getLsbD_xor, getLsbD_getD_convLE hP i hj hb]

/-- XOR of a shorter string into the front of a longer one, bit by bit. -/
theorem getD_xorbits_front {a p : Bits} (h : p.length ≤ a.length) (k : Nat) :
    (xorbits (a.take p.length) p ++ a.drop p.length).getD k false = (a.getD k false ^^ p.getD k false) := by
  have hlen : (xorbits (a.take p.length) p).length = p.length := by rw [length_xorbits, List.length_take]; omega
  by_cases hk : k < p.length
  · rw [List.getD_append _ _ _ _ (by omega), List.getD_eq_getElem _ _ (by omega), List.getD_eq_getElem _ _ hk,
      List.getD_eq_getElem _ _ (by omega)]
    simp [xorbits]
  · rw [List.getD_append_right _ _ _ _ (by omega), hlen, getD_drop, List.getD_eq_default p _ (by omega), Bool.xor_false,
      Nat.add_sub_cancel' (by omega)]

theorem ext_getD {a b : Bits} (hl : a.length = b.length) (h : ∀ k, a.getD k false = b.getD k false) : a = b :=
  List.ext_getElem hl fun k ha hb => by
    rw [← List.getD_eq_getElem a false ha, ← List.getD_eq_getElem b false hb, h k]

theorem stateBits_xorLanes_convLE (A : Lanes) {P : Bits} (hP : P.length % 64 = 0) (hle : P.length ≤ 1600) :
    stateBits (xorLanes A (convLE P)) =
      xorbits ((stateBits A).take P.length) P ++ (stateBits A).drop P.length := by
  have hA : P.length ≤ (stateBits A).length := by rwa [length_stateBits]
  refine ext_getD ?_ fun k => by rw [getD_stateBits_xorLanes A hP hle, getD_xorbits_front hA]
  rw [List.length_append, length_xorbits, List.length_take, List.length_drop, length_stateBits, length_stateBits]
  omega

/-- Settles O55: the XOR goes to the lanes of the block, and in the byte form to the bits of the block. -/
theorem absorbXorsTheBlockIntoTheRate : Obligations.AbsorbXorsTheBlockIntoTheRate := by
  refine fun A P hP hle => ⟨xorLanes A (convLE P), rfl, stateBits_xorLanes_convLE A hP hle, fun x y hxy => ?_⟩
  rw [get_xorLanes, List.getD_eq_default _ _ (by rw [length_convLE]; exact hxy)]
  exact BitVec.xor_zero

/-! ### Squeezing (46 R294) -/

/-- The rate parts laid end to end: bit `i` comes from the state permuted `i / r` times. -/
theorem getD_rateParts {r : Nat} (hr0 : 0 < r) (hr : r ≤ 1600) (n : Nat) (S : Lanes) {i : Nat} (hi : i < (n + 1) * r) :
    ((stateBits S).take r ++ squeezeMore r n S).getD i false =
      (stateBits (keccakF^[i / r] S)).getD (i % r) false := by
  have hlen (A : Lanes) : ((stateBits A).take r).length = r := by rw [List.length_take, length_stateBits]; omega
  induction n generalizing S i with
  | zero =>
    rw [squeezeMore, List.append_nil, getD_take _ _ (by omega), Nat.div_eq_of_lt (by omega), Nat.mod_eq_of_lt (by omega)]
    rfl
  | succ n ih =>
    by_cases hir : i < r
    · rw [List.getD_append _ _ _ _ (by rwa [hlen]), getD_take _ _ hir, Nat.div_eq_of_lt hir, Nat.mod_eq_of_lt hir]
      rfl
    · obtain ⟨j, rfl⟩ := Nat.exists_eq_add_of_le' (Nat.not_lt.mp hir)
      rw [List.getD_append_right _ _ _ _ (by rw [hlen]; omega), hlen, Nat.add_sub_cancel, squeezeMore,
        ih (keccakF S) (by rw [Nat.add_mul] at hi; omega), Nat.add_div_right _ hr0, Nat.add_mod_right,
        Function.iterate_succ_apply]

/-- Bit `i` of the squeeze. -/
theorem getD_squeeze {r : Nat} (hr0 : 0 < r) (hr : r ≤ 1600) (S : Lanes) {L i : Nat} (hi : i < L) :
    (squeeze S r L).getD i false = (stateBits (keccakF^[i / r] S)).getD (i % r) false := by
  have hparts : i < (ceilDiv L r - 1 + 1) * r := by
    have h := le_mul_ceilDiv L r hr0
    have hpos : 0 < ceilDiv L r := Nat.pos_of_ne_zero fun h0 => by rw [h0] at h; omega
    rw [Nat.sub_add_cancel hpos, Nat.mul_comm]
    omega
  rw [squeeze, getD_take _ _ hi, getD_rateParts hr0 hr _ S hparts]

/-- Settles O57: the squeeze is the front of the rate parts laid end to end. -/
theorem squeezeEmitsRatePartsInTurn : Obligations.SqueezeEmitsRatePartsInTurn := fun S _ L hr0 hr =>
  ⟨length_squeeze hr0 hr S L, fun _ hi => getD_squeeze hr0 hr S hi⟩

/-! ### The encoding of strings (47 R322) -/

/-- Below `2^2040` the count byte holds the count. -/
theorem toNat_countByte {x : Nat} (h : x < 2 ^ 2040) : (BitVec.ofNat 8 (byteCount x)).toNat = byteCount x := by
  have hle : byteCount x ≤ 255 := byteCount_le (by decide) (by simpa only [Nat.reduceMul] using h)
  rw [BitVec.toNat_ofNat]
  omega

theorem bitsOfBytes_cons (c : Byte) (B : List Byte) : bitsOfBytes (c :: B) = bitsBE c ++ bitsOfBytes B := rfl

/-- A length encoding with anything behind it says which length it is and what is behind it. -/
theorem leftEncode_append_inj {m n : Nat} {x y : Bits} (hm : m < 2 ^ 2040) (hn : n < 2 ^ 2040)
    (h : leftEncode m ++ x = leftEncode n ++ y) : m = n ∧ x = y := by
  rw [leftEncode, leftEncode, bitsOfBytes_cons, bitsOfBytes_cons, List.append_assoc, List.append_assoc] at h
  obtain ⟨hcount, hrest⟩ := List.append_inj h (by simp)
  have hbytes : byteCount m = byteCount n := by
    rw [← toNat_countByte hm, ← toNat_countByte hn, bitsBE_injective hcount]
  obtain ⟨hvalue, hxy⟩ := List.append_inj hrest (by simp [valueBytes, hbytes])
  exact ⟨by rw [← intBE_valueBytes m, hvalue, intBE_valueBytes], hxy⟩

/-- Settles O59: the length in front tells where the string ends. -/
theorem encodedStringsAreUnambiguous : Obligations.EncodedStringsAreUnambiguous := by
  intro a b x y ha hb h
  rw [encodeString, encodeString, List.append_assoc, List.append_assoc] at h
  obtain ⟨hlen, hrest⟩ := leftEncode_append_inj ha hb h
  exact List.append_inj hrest hlen

end Machine

end Sys2Proof
end

section
/-!
PROOFS. The statement that the permutation is a bijection (spec/46_keccak_sponge.md R282 to R288).
-/

namespace Sys2Proof

/-! ### Rotations as maps on words -/

/-- Each bit of a left rotation comes from `n` places below, modulo the width. -/
theorem getLsbD_rotl_source {w : Nat} (v : BitVec w) {n i : Nat} (hn : n < w) (hi : i < w) :
    (rotl v n).getLsbD i = v.getLsbD ((i + (w - n)) % w) := by
  have hback : ((i + (w - n)) % w + n) % w = i := by
    rw [Nat.mod_add_mod, show i + (w - n) + n = i + w by omega, Nat.add_mod_right, Nat.mod_eq_of_lt hi]
  rw [← getLsbD_rotl v hn (Nat.mod_lt _ (by omega)), hback]

theorem rotl_xor {w : Nat} (u v : BitVec w) {n : Nat} (hn : n < w) : rotl (u ^^^ v) n = rotl u n ^^^ rotl v n :=
  BitVec.eq_of_getLsbD_eq fun i hi => by simp only [BitVec.getLsbD_xor, getLsbD_rotl_source _ hn hi]

theorem rotl_injective {w : Nat} {u v : BitVec w} {n : Nat} (hn : n < w) (h : rotl u n = rotl v n) : u = v :=
  BitVec.eq_of_getLsbD_eq fun i hi => by rw [← getLsbD_rotl u hn hi, h, getLsbD_rotl v hn hi]

namespace Machine

/-! ### θ (46 R282)

The difference of two states that θ maps to one state is the same in all rows, and meets a linear recurrence over the
columns. Over bits the recurrence may be doubled: in six doublings the rotation by 1 becomes one by 64, which is none. -/

/-- One step of the recurrence taken twice: the two middle terms cancel. -/
theorem recurrence_twice {G H : Type} [AddCommGroup G] [AddCommGroup H] {e : G → H → Bool} {k : G} {n : H}
    (h : ∀ x i, e x i = (e (x - k) i ^^ e (x + k) (i - n))) (x : G) (i : H) :
    e x i = (e (x - (k + k)) i ^^ e (x + (k + k)) (i - (n + n))) :=
  calc e x i = (e (x - k) i ^^ e (x + k) (i - n)) := h x i
    _ = ((e (x - k - k) i ^^ e (x - k + k) (i - n)) ^^ (e (x + k - k) (i - n) ^^ e (x + k + k) (i - n - n))) := by
      rw [← h (x - k) i, ← h (x + k) (i - n)]
    _ = (e (x - (k + k)) i ^^ e (x + (k + k)) (i - (n + n))) := by
      rw [sub_add_cancel, add_sub_cancel_right, sub_sub, sub_sub, add_assoc]
      cases e x (i - n) <;> simp

theorem recurrence_pow {G H : Type} [AddCommGroup G] [AddCommGroup H] {e : G → H → Bool} {k : G} {n : H}
    (h : ∀ x i, e x i = (e (x - k) i ^^ e (x + k) (i - n))) (m : Nat) (x : G) (i : H) :
    e x i = (e (x - 2 ^ m • k) i ^^ e (x + 2 ^ m • k) (i - 2 ^ m • n)) := by
  induction m generalizing x i with
  | zero => simpa using h x i
  | succ m ih => simpa only [pow_succ, mul_two, add_nsmul] using recurrence_twice ih x i

/-- Five bits in a ring, each the sum of its neighbours, are zero. -/
theorem eq_false_of_neighbours :
    ∀ f : Fin 5 → Bool, (∀ x, f x = (f (x - 4) ^^ f (x + 4))) → ∀ x, f x = false := by decide

/-- The recurrence of θ has the zero solution alone. -/
theorem eq_zero_of_thetaRecurrence {d : Fin 5 → Lane} (h : ∀ x, d x = d (x - 1) ^^^ rotl (d (x + 1)) 1) (x : Fin 5) :
    d x = 0 := by
  have hbit (x : Fin 5) (i : Fin 64) :
      (d x).getLsbD i = ((d (x - 1)).getLsbD i ^^ (d (x + 1)).getLsbD (i - 1 : Fin 64)) := by
    conv_lhs => rw [h x]
    rw [BitVec.getLsbD_xor, getLsbD_rotl_source _ (by decide) i.isLt, Fin.val_sub]
    congr 3
    omega
  have hcolumn : 2 ^ 6 • (1 : Fin 5) = 4 := by decide
  have hplace : 2 ^ 6 • (1 : Fin 64) = 0 := by decide
  refine BitVec.eq_of_getLsbD_eq fun i hi => ?_
  have hring := eq_false_of_neighbours (fun x => (d x).getLsbD i) fun x => by
    have hpow := recurrence_pow (e := fun x (i : Fin 64) => (d x).getLsbD i) hbit 6 x ⟨i, hi⟩
    rwa [hcolumn, hplace, sub_zero] at hpow
  exact (hring x).trans BitVec.getLsbD_zero.symm

/-- The parity of the column `x` (46 R282). -/
def columnParity (A : Lanes) (x : Fin 5) : Lane :=
  A.get x 0 ^^^ A.get x 1 ^^^ A.get x 2 ^^^ A.get x 3 ^^^ A.get x 4

/-- What θ adds to every lane of the column `x` (46 R282). -/
def thetaEffect (A : Lanes) (x : Fin 5) : Lane := columnParity A (x - 1) ^^^ rotl (columnParity A (x + 1)) 1

theorem get_theta_effect (A : Lanes) (x y : Fin 5) : (theta A).get x y = A.get x y ^^^ thetaEffect A x :=
  get_theta (fun _ => rfl) (fun _ => rfl) x y

/-- Adding one word to every lane of a column adds it to the parity, as a column has five lanes. -/
theorem columnParity_of_shifted {A B : Lanes} {x : Fin 5} {d : Lane} (h : ∀ y, A.get x y = B.get x y ^^^ d) :
    columnParity A x ^^^ columnParity B x = d := by
  simp only [columnParity, h]
  grind

theorem eq_xor_of_xor_eq_xor {w : Nat} {a b c d : BitVec w} (h : a ^^^ c = b ^^^ d) : a = b ^^^ (c ^^^ d) := by
  rw [BitVec.xor_comm c d, ← BitVec.xor_assoc, ← h, BitVec.xor_assoc, BitVec.xor_self, BitVec.xor_zero]

theorem theta_injective : Function.Injective theta := by
  intro A B hAB
  have hshift (x y : Fin 5) : A.get x y = B.get x y ^^^ (thetaEffect A x ^^^ thetaEffect B x) := by
    apply eq_xor_of_xor_eq_xor
    rw [← get_theta_effect, ← get_theta_effect, hAB]
  have hparity (x : Fin 5) := columnParity_of_shifted (hshift x)
  have hzero := eq_zero_of_thetaRecurrence (d := fun x => thetaEffect A x ^^^ thetaEffect B x) fun x => by
    rw [← hparity (x - 1), ← hparity (x + 1), rotl_xor _ _ (by decide), thetaEffect, thetaEffect]
    ac_rfl
  refine Lanes.ext_get fun x y => ?_
  rw [hshift x y, hzero x]
  exact BitVec.xor_zero

/-! ### The other mappings of a round (46 R283 to R286) -/

theorem rhoOffset_lt (x y : Fin 5) : rhoOffset x y < 64 := by decide +revert

theorem rho_injective : Function.Injective rho := fun A B h => Lanes.ext_get fun x y =>
  rotl_injective (rhoOffset_lt x y) (by rw [← get_rho, ← get_rho, h])

theorem pi_injective : Function.Injective pi := fun A B h => Lanes.ext_get fun x y => by
  rw [← get_pi_moved A x y, h, get_pi_moved]

/-- χ on five bits of a row (46 R285). -/
def chiBits (f : Fin 5 → Bool) (x : Fin 5) : Bool := f x ^^ (!f (x + 1) && f (x + 2))

/-- χ taken four times is the identity on every row. -/
theorem chiBits_four : ∀ f x, chiBits (chiBits (chiBits (chiBits f))) x = f x := by decide

theorem chiBits_injective : Function.Injective chiBits := fun f g h => funext fun x => by
  rw [← chiBits_four f x, h, chiBits_four]

theorem getLsbD_chi (A : Lanes) (y : Fin 5) {i : Nat} (hi : i < 64) :
    (fun x => ((chi A).get x y).getLsbD i) = chiBits fun x => (A.get x y).getLsbD i := by
  funext x
  simp only [get_chi, chiBits, BitVec.getLsbD_xor, BitVec.getLsbD_and, BitVec.getLsbD_not, decide_eq_true hi,
    Bool.true_and]

theorem chi_injective : Function.Injective chi := by
  refine fun A B h => Lanes.ext_get fun x y => BitVec.eq_of_getLsbD_eq fun i hi => ?_
  have hbits : (chiBits fun x => (A.get x y).getLsbD i) = chiBits fun x => (B.get x y).getLsbD i := by
    rw [← getLsbD_chi A y hi, h, getLsbD_chi B y hi]
  exact congrFun (chiBits_injective hbits) x

theorem iota_injective (RC : Lane) : Function.Injective (iota RC) := fun A B h => Lanes.ext_get fun x y =>
  (BitVec.xor_left_inj (if x = 0 ∧ y = 0 then RC else 0)).mp (by rw [← get_iota, ← get_iota, h])

/-! ### The permutation (46 R287, R288) -/

theorem keccakRound_injective (RC : Lane) : Function.Injective (keccakRound · RC) :=
  (iota_injective RC).comp (chi_injective.comp (pi_injective.comp (rho_injective.comp theta_injective)))

theorem foldl_keccakRound_injective (RCs : List Lane) : Function.Injective (RCs.foldl keccakRound) := by
  induction RCs with
  | nil => exact Function.injective_id
  | cons RC RCs ih => exact ih.comp (keccakRound_injective RC)

/-- There are finitely many states: twenty-five lanes of 64 bits. -/
theorem finite_lanes : Finite Lanes :=
  Finite.of_injective (fun A (x y : Fin 5) => (A.get x y).toFin) fun _ _ h =>
    Lanes.ext_get fun x y => BitVec.eq_of_toFin_eq (congrFun (congrFun h x) y)

/-- The first lane of the permuted zero state. -/
theorem get_keccakF_zero : (keccakF Lanes.zero).get 0 0 = 0xF1258F7940E1DDE7 := by decide +kernel

/-- Settles O54: each mapping of a round is injective, and there are finitely many states; the zero state is computed. -/
theorem keccakFIsABijection : Obligations.KeccakFIsABijection := by
  have := finite_lanes
  refine ⟨Finite.injective_iff_bijective.mp (foldl_keccakRound_injective roundConstants), fun h => ?_⟩
  have hlane := get_keccakF_zero
  rw [Lanes.zero, h] at hlane
  exact absurd hlane (by decide)

end Machine

end Sys2Proof
end

section
/-!
PROOFS. The statements about GETHASH: sessions of variable-length variants, further rounds, the Merkle–Damgård session
(spec/41_incremental_engine.md R156 to R162, spec/43_md_sha1.md R211 to R213, spec/46_keccak_sponge.md R295).
-/

namespace Sys2Proof.Machine

/-! ### Variable-length variants (41 R156, R160, 46 R295) -/

/-- A sound session of a variable-length variant answers every admitted length with the sponge finalize. -/
theorem exec_getHash_variable {s : State} (h : SessionInv s) (hp : s.phase ≠ .idle) (h0 : s.desc.outBits = 0) :
    ∃ A, ∀ n : Word, n ≠ 0 → n.toNat % 8 = 0 →
      exec (.getHash (some n)) s = .next (afterBits (spongeFinal s.desc A s.rem n.toNat s.csf) s) := by
  have hm : s.var.md = false := Bool.eq_false_iff.mpr fun hm => outBits_ne_zero_of_md hm h0
  have hk : s.keyset = false := Bool.eq_false_iff.mpr fun hk =>
    (hmac_iff s.var).mp (h.key_variant hk).1 h0
  obtain ⟨A, hA, -⟩ := finalize_sponge (t := s.triple) h.view hm 0 s.csf
  refine ⟨A, fun n hn h8 => ?_⟩
  have hpos : 0 < n.toNat := Nat.pos_of_ne_zero fun hz => hn (BitVec.eq_of_toNat_eq hz)
  have hL : outLen s.desc (some n) = some n.toNat :=
    outLen_of_admitted (by rw [if_neg (not_not.mpr h0)]; exact ⟨n, rfl, rfl, hpos, h8⟩)
  have hfinal : finalize s.desc s.triple n.toNat s.csf = some (spongeFinal s.desc A s.rem n.toNat s.csf) := by
    rw [finalize, hA]
    rfl
  rw [exec_getHash_plain hp (h.sponge_nr hm) hk hL, hfinal]
  rfl

/-- Settles O36: the sponge finalize gives as many bits as it is asked for. -/
theorem variableLengthOutputHasTheRequestedLength : Obligations.VariableLengthOutputHasTheRequestedLength := by
  intro s n hs hp h0 hn h8
  obtain ⟨A, hA⟩ := exec_getHash_variable (hs hp) hp h0
  exact ⟨_, length_spongeFinal s.var A s.rem n.toNat s.csf, hA n hn h8⟩

/-- 46 R295: bit `i` of a squeeze does not depend on the length. -/
theorem take_squeeze {r : Nat} (hr0 : 0 < r) (hr : r ≤ 1600) (S : Lanes) {m n : Nat} (h : m ≤ n) :
    (squeeze S r n).take m = squeeze S r m := by
  have hlen := length_squeeze hr0 hr S
  refine List.ext_getElem (by rw [List.length_take, hlen, hlen]; omega) fun i h1 h2 => ?_
  have hi : i < m := hlen m ▸ h2
  rw [← List.getD_eq_getElem _ false h1, ← List.getD_eq_getElem _ false h2, getD_take _ _ hi,
    getD_squeeze hr0 hr S (hi.trans_le h), getD_squeeze hr0 hr S hi]

/-- But for KMAC nothing of what is squeezed depends on the length (46 R293, R295). -/
theorem take_spongeFinal {v : Variant} (hk : v.desc.kind ≠ .kmac) (S : Lanes) (R : Bits) (csf : Bool) {m n : Nat}
    (h : m ≤ n) : (spongeFinal v.desc S R n csf).take m = spongeFinal v.desc S R m csf := by
  have htail : spongeTail v.desc S R n = spongeTail v.desc S R m := by
    cases hd : v.desc.kind <;> simp_all [spongeTail]
  rw [spongeFinal, htail, take_squeeze (blockBits_pos v) ((blockBits_le v).trans (by decide)) _ h]
  rfl

/-- Settles O44: both answers are squeezed from one state. -/
theorem shorterOutputIsAPrefix : Obligations.ShorterOutputIsAPrefix := by
  intro s n n' hs hp hvar hn h8 h8' hlt
  obtain ⟨h0, hkind⟩ : s.desc.outBits = 0 ∧ s.desc.kind ≠ .kmac := by
    rw [State.desc]
    revert hvar
    cases s.var <;> decide
  have hn' : n' ≠ 0 := by
    rintro rfl
    exact absurd hlt (Nat.not_lt_zero _)
  obtain ⟨A, hA⟩ := exec_getHash_variable (hs hp) hp h0
  exact ⟨_, _, hA n hn h8, hA n' hn' h8', length_spongeFinal s.var A s.rem n.toNat s.csf,
    length_spongeFinal s.var A s.rem n'.toNat s.csf, (take_spongeFinal (v := s.var) hkind A s.rem s.csf hlt.le).symm⟩

/-! ### Further rounds (41 R162) -/

/-- Data words say which payload of a given length they carry. -/
theorem eq_of_payloadWords {a b : Bits} (hl : a.length = b.length) (h : payloadWords a = payloadWords b) : a = b := by
  rw [← take_wordsBits_payloadWords a, h, hl, take_wordsBits_payloadWords]

/-- A response with bits says which bits, given their number. -/
theorem eq_of_answer {out : Option Bits} {b : Bits} {s : State} (h : answer out s = .next (afterBits b s))
    (hl : ∀ o, out = some o → o.length = b.length) : out = some b := by
  obtain ⟨o, rfl, ho⟩ := answer_next h
  have hwords : (afterBits b s).rsp = (respond (.okBits o) s).rsp := congrArg State.rsp ho
  obtain ⟨-, hdata⟩ : BitVec.ofNat 32 b.length = BitVec.ofNat 32 o.length ∧ payloadWords b = payloadWords o := by
    simpa [afterBits, encodeResponse, encodeSection] using hwords
  rw [eq_of_payloadWords (hl o rfl) hdata.symm]

/-- The output of a fixed-length session has the length of the variant, after any number of rounds. -/
theorem length_plainOutput {s : State} {out : Bits} (hview : s.is.family = s.desc.family)
    (h : plainOutput s s.desc.outBits = some out) : out.length = s.desc.outBits := by
  obtain ⟨o, ho, hit⟩ := Option.bind_eq_some_iff.mp h
  obtain ⟨out', hit', hl⟩ := iterate_isSome (v := s.var) (s.nr.toNat - 1)
    (length_finalize_fixed (v := s.var) (t := s.triple) hview ho)
  rw [hit] at hit'
  exact Option.some.inj hit' ▸ hl

/-- One round more is one hash more (41 R162). -/
theorem plainOutput_succ (s : State) {n : Word} (hpos : 1 ≤ n.toNat) (hlt : n.toNat + 1 < 2 ^ 32) (L : Nat) :
    plainOutput { s with nr := n + 1 } L = (plainOutput { s with nr := n } L).bind (oneShot s.var) := by
  have hnext : (n + 1).toNat - 1 = n.toNat - 1 + 1 := by
    rw [BitVec.toNat_add_of_lt (by simpa using hlt)]
    exact (Nat.add_sub_cancel ..).trans (Nat.sub_add_cancel hpos).symm
  show (finalize s.desc s.triple L s.csf).bind (iterate s.var ((n + 1).toNat - 1)) =
    ((finalize s.desc s.triple L s.csf).bind (iterate s.var (n.toNat - 1))).bind (oneShot s.var)
  rw [hnext, Option.bind_assoc]
  exact congrArg _ (funext (iterate_succ s.var (n.toNat - 1)))

/-- Settles O39: the answer names the digest before, and one round more hashes it once more. -/
theorem eachFurtherRoundRehashesTheDigest : Obligations.EachFurtherRoundRehashesTheDigest := by
  intro s n out hs hp hm hk hpos hlt hout h
  have hview := (hs hp).view
  have hL : outLen s.desc none = some s.desc.outBits := outLen_fixed (outBits_ne_zero_of_md hm) (.inl rfl)
  have hanswer (m : Word) := exec_getHash_unkeyed (s := { s with nr := m }) hp hk hL
  rw [hanswer] at h
  have hplain : plainOutput { s with nr := n } s.desc.outBits = some out :=
    eq_of_answer h fun o ho => (length_plainOutput (s := { s with nr := n }) hview ho).trans hout.symm
  obtain ⟨out', hout'⟩ := oneShot_isSome (v := s.var) (m := out) (hout ▸ fits_outBits s.var)
  refine ⟨out', hout', ?_⟩
  rw [hanswer, plainOutput_succ s hpos hlt, hplain, Option.bind_some, hout']
  rfl

/-! ### The Merkle–Damgård session (43 R211 to R213) -/

/-- The number of zeros is the one below a block that fills the last block. -/
theorem eq_mdPadZeros {n z B F : Nat} (hz : z < B) (h : (n + 1 + z + F) % B = 0) : z = mdPadZeros n B F := by
  have hsum : ((n + 1 + F) % B + z) % B = 0 := by rw [Nat.mod_add_mod, ← h]; congr 1; omega
  have hlt := Nat.mod_lt (n + 1 + F) (Nat.zero_lt_of_lt hz)
  rw [mdPadZeros]
  generalize (n + 1 + F) % B = x at *
  obtain ⟨q, hq⟩ := Nat.dvd_of_mod_eq_zero hsum
  have hq2 : q < 2 := Nat.lt_of_mul_lt_mul_left (a := B) (by omega)
  obtain rfl | rfl : q = 0 ∨ q = 1 := by omega
  · rw [show x = 0 by omega, Nat.sub_zero, Nat.mod_self]
    omega
  · rw [show B - x = z by omega, Nat.mod_eq_of_lt hz]

/-- The padding of a message is that of what stays of it when its whole blocks are gone. -/
theorem mdPad_eq_of_takeBlocks (m : Bits) (T F : Nat) {B : Nat} (hB : 0 < B) :
    (takeBlocks (mdPad m T B F) B).1 =
      (takeBlocks m B).1 ++ (takeBlocks (mdPad (takeBlocks m B).2 T B F) B).1 := by
  have hzeros : mdPadZeros (takeBlocks m B).2.length B F = mdPadZeros m.length B F := by
    simp only [mdPadZeros, length_takeBlocks_snd, Nat.add_assoc, Nat.mod_add_mod]
  simp only [mdPad, hzeros, List.append_assoc, takeBlocks_append m _ hB]

/-- The finalize of a session that absorbed `m` sends the initial state through all blocks of the padded message. -/
theorem finalize_absorb_fresh_md {v : Variant} {m : Bits} (hm : v.md = true)
    (hfit : m.length < 2 ^ Desc.fieldBits v.desc) (L : Nat) (csf : Bool) :
    finalize v.desc (absorb v.desc (freshTriple v) m) L csf =
      some (digest v.desc (rounds (newState v)
        (takeBlocks (mdPad m m.length v.desc.blockBits (Desc.fieldBits v.desc)) v.desc.blockBits).1)) := by
  have htotal := total_absorb_fresh (v := v) (hfit.trans_le (fieldBits_le v))
  rw [finalize_md (family_absorb_fresh v m) hm, mdFinal_eq_some (htotal ▸ hfit), htotal,
    mdPad_eq_of_takeBlocks m _ _ (blockBits_pos v), rounds_append]
  rfl

/-- Settles O37: INIT and the UPDATEs absorb the message, and the finalize pads it; the zeros of the statement are those
of `mdPad`. -/
theorem mdSessionHashesThePaddedMessage : Obligations.MdSessionHashesThePaddedMessage := by
  intro v o cs s zeroBits hm hnr hhk hfn hcu hkk m B F hfit hzero hlt padded
  have h0 := outBits_ne_zero_of_md hm
  have hF : Desc.fieldBits v.desc = F := fieldBits_of_md hm
  have hpadded : padded = mdPad m m.length B (Desc.fieldBits v.desc) := by
    rw [hF, mdPad, ← eq_mdPadZeros hlt hzero]
    rfl
  have hnr0 : o.nr ≠ some 0 := by obtain h | h := hnr <;> simp [h]
  obtain ⟨t, hrun, hp, rfl, hnrt, hk, -, ht⟩ := runCommands_session (s := s) (cs := cs)
    (initCheck_md hm hnr0 hhk hfn hcu hkk) hhk fun _ _ => .inl hm
  rw [prefixInputs_eq_nil _ h0, List.flatten_nil, List.nil_append] at ht
  have hone : t.nr = 1 := hnrt.trans (nrOrDefault_eq_one (hnr.imp_right fun h => ⟨hm, h⟩))
  have hfinal : finalize t.desc t.triple t.var.desc.outBits t.csf =
      some (digest t.var.desc ((takeBlocks padded B).1.foldl round (newState t.var))) := by
    rw [ht, hpadded]
    exact finalize_absorb_fresh_md hm (hF ▸ hfit) _ _
  exact ⟨t, hrun, by rw [exec_getHash_plain hp hone hk (outLen_fixed h0 (.inl rfl)), hfinal]; rfl⟩

end Sys2Proof.Machine
end
